-- ==== Sys2Proof/Word.lean ====
section
/-! DEFINITION. The machine's two word types (00_scope.md R10, 30_encoding.md R96). All values are unsigned; bit 0 is the
least significant bit. -/

namespace Sys2Proof

/-- A byte: the data register, a control word, a payload element (10_state.md R22). -/
abbrev Byte := BitVec 8

/-- A command word, an extension word or a result word (30_encoding.md R96, R101, R102). -/
abbrev Word := BitVec 32

end Sys2Proof
end

