-- ==== Sys2Proof/Syntax.lean ====
section
/-! DEFINITION. The command set: one constructor of `Instr` for each of the 17 rows of spec/opcode_table.json, with the operand
types of 30_encoding.md R97, and the pseudo-instructions of R107 that are other names of core instructions.

Operands are kept as wide as the command TYPE of the spec allows (93_implementation_defined.md U17, 90_conflicts.md C12): an
address, a count or a transfer operand that no word can encode is a term of `Instr`, refused by its own name when it is issued. -/

namespace Sys2Proof

/-- One of the two lines (R103: CLOCK 0, DATA 1). -/
inductive Line where
  | clock
  | data
  deriving DecidableEq, Repr, Inhabited

/-- A line's direction (10_state.md R27; R103: input 0, output 1). -/
inductive Dir where
  | input
  | output
  deriving DecidableEq, Repr, Inhabited

/-- The three delay selects (R97, R103). -/
inductive DelaySel where
  | tLow
  | tHigh
  | tSetup
  deriving DecidableEq, Repr, Inhabited

/-- The commands of the three tiers (30_encoding.md R98, R99, R100). -/
inductive Instr where
  | setHigh (l : Line)
  | setLow (l : Line)
  | readLevel (l : Line)
  | setDir (l : Line) (d : Dir)
  | loadDR (v : Byte)
  | readDR
  | loadSR (cw : Byte)
  | readSR
  | strobe
  | delay (k : DelaySel)
  | waitHigh (l : Line)
  | start
  | stop
  | sendByte (v : Byte)
  | xfer (bitCount : Nat) (controlWord : Byte)
  | send (address : Nat) (bytes : List Byte)
  | receive (address : Nat) (count : Nat)
  deriving DecidableEq, Repr

/-- `RELEASE L` (R107). -/
abbrev Instr.release (l : Line) : Instr := .setHigh l

/-- `DRIVELOW L` (R107). -/
abbrev Instr.driveLow (l : Line) : Instr := .setLow l

/-- `ACKPAT` (R107, R95). -/
abbrev Instr.ackPat : Instr := .loadDR 0x00#8

/-- `NACKPAT` (R107, R95). -/
abbrev Instr.nackPat : Instr := .loadDR 0xFF#8

/-- `XFER8` (R107, R93). -/
abbrev Instr.xfer8 : Instr := .xfer 8 0xF0#8

/-- `XFER1` (R107, R93). -/
abbrev Instr.xfer1 : Instr := .xfer 1 0xFE#8

end Sys2Proof
end

