-- ==== Sys2Proof/WellFormed.lean ====
section
/-! DEFINITION. Which terms of `Instr` are commands that a word (or a word and its extension words) can carry: the operand
restrictions of 30_encoding.md R98 to R101 and R104. -/

namespace Sys2Proof

/-- The operand restrictions of R99 to R101: `XFER` admits two pairs, an address has 7 bits, a payload at most 255 bytes, a count is
1 to 255. Every other operand is in range by its type. -/
def Instr.wellFormed : Instr → Bool
  | .xfer n cw => (n == 8 && cw == 0xF0#8) || (n == 1 && cw == 0xFE#8)
  | .send a bytes => decide (a < 128) && decide (bytes.length < 256)
  | .receive a c => decide (a < 128) && (decide (0 < c) && decide (c < 256))
  | .setHigh _ => true
  | .setLow _ => true
  | .readLevel _ => true
  | .setDir _ _ => true
  | .loadDR _ => true
  | .readDR => true
  | .loadSR _ => true
  | .readSR => true
  | .strobe => true
  | .delay _ => true
  | .waitHigh _ => true
  | .start => true
  | .stop => true
  | .sendByte _ => true

/-- A command that the command word can carry (R104). -/
abbrev Instr.WellFormed (i : Instr) : Prop := i.wellFormed = true

end Sys2Proof
end

