-- ==== Sys2Proof/Decode.lean ====
section
/-! DEFINITION. Decoding and encoding of command words, from 30_encoding.md R96 to R101, R104, R108 and spec/opcode_table.json.

A command is one 32-bit word, followed for `SEND` by one extension word per payload byte. The decoder takes the host's coming words and
answers the first command with the words that follow it, or refuses by name. -/

namespace Sys2Proof

/-- Why a list of words gives no command. -/
inductive DecodeError where
  /-- R104: the first word, or an extension word, is reserved. -/
  | reservedEncoding
  /-- The words end before the command does (R101 says how long it is; log 6). -/
  | truncatedCommand
  deriving DecidableEq, Repr

/-! ### The fields of a command word (R96) -/

/-- `TIER`, bits 31 to 28. -/
def Word.tier (w : Word) : BitVec 4 := w.extractLsb' 28 4
/-- `OP`, bits 27 to 24. -/
def Word.op (w : Word) : BitVec 4 := w.extractLsb' 24 4
/-- `N`, bits 23 to 16. -/
def Word.fieldN (w : Word) : Byte := w.extractLsb' 16 8
/-- `A`, bits 15 to 8. -/
def Word.fieldA (w : Word) : Byte := w.extractLsb' 8 8
/-- `B`, bits 7 to 0. -/
def Word.fieldB (w : Word) : Byte := w.extractLsb' 0 8

/-- The word with the given fields (R96). -/
def packWord (tier op : BitVec 4) (n a b : Byte) : Word := tier ++ op ++ n ++ a ++ b

/-! ### Operand assembly (R97, R103) -/

/-- `line = N`, 0 CLOCK, 1 DATA; above 1 reserved. -/
def decodeLine (n : Byte) : Option Line :=
  if n = 0x00#8 then some .clock else if n = 0x01#8 then some .data else none

/-- `dir = B`, 0 input, 1 output; above 1 reserved. -/
def decodeDir (b : Byte) : Option Dir :=
  if b = 0x00#8 then some .input else if b = 0x01#8 then some .output else none

/-- The delay select, 0 `T_LOW`, 1 `T_HIGH`, 2 `T_SETUP`; above 2 reserved. -/
def decodeDelay (n : Byte) : Option DelaySel :=
  if n = 0x00#8 then some .tLow else if n = 0x01#8 then some .tHigh else if n = 0x02#8 then some .tSetup else none

/-- The byte of R103 for a line. -/
def encodeLine : Line → Byte
  | .clock => 0x00#8
  | .data => 0x01#8

/-- The byte of R103 for a direction. -/
def encodeDir : Dir → Byte
  | .input => 0x00#8
  | .output => 0x01#8

/-- The byte of R103 for a delay select. -/
def encodeDelay : DelaySel → Byte
  | .tLow => 0x00#8
  | .tHigh => 0x01#8
  | .tSetup => 0x02#8

/-! ### The decoder -/

/-- A field the command does not use must be zero (R96). -/
def onlyIf (c : Bool) (i : Option Instr) : Option Instr := if c then i else none

/-- Tier 1, format M (R98), from the fields of the word. -/
def decodeMicro (op : Nat) (n a b : Byte) : Option Instr :=
  let noA := a == 0x00#8
  let noAB := noA && b == 0x00#8
  let noNA := noA && n == 0x00#8
  let none3 := noAB && n == 0x00#8
  match op with
  | 0 => onlyIf noAB ((decodeLine n).map .setHigh)
  | 1 => onlyIf noAB ((decodeLine n).map .setLow)
  | 2 => onlyIf noAB ((decodeLine n).map .readLevel)
  | 3 => onlyIf noA ((decodeLine n).bind fun l => (decodeDir b).map (.setDir l))
  | 4 => onlyIf noNA (some (.loadDR b))
  | 5 => onlyIf none3 (some .readDR)
  | 6 => onlyIf noNA (some (.loadSR b))
  | 7 => onlyIf none3 (some .readSR)
  | 8 => onlyIf none3 (some .strobe)
  | 9 => onlyIf noAB ((decodeDelay n).map .delay)
  | 10 => onlyIf noAB ((decodeLine n).map .waitHigh)
  | _ => none

/-- Tier 2, format P (R99). -/
def decodePrimitive (op : Nat) (n a b : Byte) : Option Instr :=
  let noA := a == 0x00#8
  let noNA := noA && n == 0x00#8
  let none3 := noNA && b == 0x00#8
  match op with
  | 0 => onlyIf none3 (some .start)
  | 1 => onlyIf none3 (some .stop)
  | 2 => onlyIf noNA (some (.sendByte b))
  | 3 => onlyIf (noA && ((n == 0x08#8 && b == 0xF0#8) || (n == 0x01#8 && b == 0xFE#8))) (some (.xfer n.toNat b))
  | _ => none

/-- `SEND`'s payload: `n` extension words, each the zero-extension of one byte (R101). -/
def takePayload : Nat → List Word → Except DecodeError (List Byte × List Word)
  | 0, ws => .ok ([], ws)
  | _ + 1, [] => .error .truncatedCommand
  | n + 1, w :: ws =>
    if w.extractLsb' 8 24 = 0#24 then
      match takePayload n ws with
      | .ok (bytes, rest) => .ok (w.fieldB :: bytes, rest)
      | .error e => .error e
    else .error .reservedEncoding

/-- Tier 3, format T (R100, R101), with the words after the first. -/
def decodeTransaction (op : Nat) (n a b : Byte) (ws : List Word) : Except DecodeError (Instr × List Word) :=
  if a.getLsbD 7 || b != 0x00#8 then .error .reservedEncoding
  else match op with
    | 0 =>
      match takePayload n.toNat ws with
      | .ok (bytes, rest) => .ok (.send a.toNat bytes, rest)
      | .error e => .error e
    | 1 => if n = 0x00#8 then .error .reservedEncoding else .ok (.receive a.toNat n.toNat, ws)
    | _ => .error .reservedEncoding

/-- A one-word command, or the refusal of a reserved word (R104). -/
def orReserved (i : Option Instr) (ws : List Word) : Except DecodeError (Instr × List Word) :=
  match i with
  | some i => .ok (i, ws)
  | none => .error .reservedEncoding

/-- The decoder (R108): the first command of a list of words and the words after it. It is total: every word is exactly one command's
first word or reserved. -/
def decode : List Word → Except DecodeError (Instr × List Word)
  | [] => .error .truncatedCommand
  | w :: ws =>
    match w.tier.toNat with
    | 1 => orReserved (decodeMicro w.op.toNat w.fieldN w.fieldA w.fieldB) ws
    | 2 => orReserved (decodePrimitive w.op.toNat w.fieldN w.fieldA w.fieldB) ws
    | 3 => decodeTransaction w.op.toNat w.fieldN w.fieldA w.fieldB ws
    | _ => .error .reservedEncoding

/-- How many words the command has, from its first word alone (R101). -/
def commandLength (w : Word) : Nat :=
  if w.tier = 3#4 ∧ w.op = 0#4 then 1 + w.fieldN.toNat else 1

/-! ### The encoder -/

/-- The extension words of a payload (R101): `zext_32` of each byte, in payload order. -/
def extensionWords (bytes : List Byte) : List Word := bytes.map (fun b => b.setWidth 32)

/-- The word or words of a command (R98 to R101). Operands that no word can carry (`Instr.wellFormed` is false) are cut to their
fields. -/
def encode : Instr → List Word
  | .setHigh l => [packWord 1#4 0#4 (encodeLine l) 0#8 0#8]
  | .setLow l => [packWord 1#4 1#4 (encodeLine l) 0#8 0#8]
  | .readLevel l => [packWord 1#4 2#4 (encodeLine l) 0#8 0#8]
  | .setDir l d => [packWord 1#4 3#4 (encodeLine l) 0#8 (encodeDir d)]
  | .loadDR v => [packWord 1#4 4#4 0#8 0#8 v]
  | .readDR => [packWord 1#4 5#4 0#8 0#8 0#8]
  | .loadSR cw => [packWord 1#4 6#4 0#8 0#8 cw]
  | .readSR => [packWord 1#4 7#4 0#8 0#8 0#8]
  | .strobe => [packWord 1#4 8#4 0#8 0#8 0#8]
  | .delay k => [packWord 1#4 9#4 (encodeDelay k) 0#8 0#8]
  | .waitHigh l => [packWord 1#4 10#4 (encodeLine l) 0#8 0#8]
  | .start => [packWord 2#4 0#4 0#8 0#8 0#8]
  | .stop => [packWord 2#4 1#4 0#8 0#8 0#8]
  | .sendByte v => [packWord 2#4 2#4 0#8 0#8 v]
  | .xfer n cw => [packWord 2#4 3#4 (BitVec.ofNat 8 n) 0#8 cw]
  | .send a bytes => packWord 3#4 0#4 (BitVec.ofNat 8 bytes.length) (BitVec.ofNat 8 a) 0#8 :: extensionWords bytes
  | .receive a c => [packWord 3#4 1#4 (BitVec.ofNat 8 c) (BitVec.ofNat 8 a) 0#8]

/-! ### One row of the opcode table -/

/-- The `nbits` low bits of `w` as words, the first word in the low 32 bits. -/
def wordsOfNat : Nat → Nat → List Word
  | 0, _ => []
  | k + 1, w => BitVec.ofNat 32 w :: wordsOfNat k (w / 2 ^ 32)

/-- The words of the instruction whose bits, numbered as the opcode table numbers them, are `w`: `nbits` bits, then words of zeros up to
the length its first word gives (R101). -/
def tableWords (nbits w : Nat) : List Word :=
  match wordsOfNat ((nbits + 31) / 32) (w % 2 ^ nbits) with
  | [] => []
  | first :: more => first :: (more ++ List.replicate (commandLength first - 1 - more.length) 0#32)

/-- The instruction the decoder reads from a row's bits. -/
def decodeTableWord (nbits w : Nat) : Option Instr :=
  match decode (tableWords nbits w) with
  | .ok (i, _) => some i
  | .error _ => none

end Sys2Proof
end

