-- ==== Sys2Proof/Config.lean ====
section
/-! DEFINITION. The parameters of 00_scope.md R7, fixed when the block is constructed and changed by no step, and the free values:
constants with no body, of which nothing can be proved (93_implementation_defined.md "any value", "parameter"). -/

namespace Sys2Proof

/-- The environment's answer to one micro-operation (20_memory.md R63): whether some other device holds each line low at the instant
of the micro-operation's samples, and whether it holds each low just after the micro-operation. -/
structure EnvAnswer where
  clockLow : Bool
  dataLow : Bool
  clockLowAfter : Bool
  dataLowAfter : Bool
  deriving DecidableEq, Repr, Inhabited

/-- A `SensorReading` of 43_host_client.md R190: two float32 values, as their 32 bits. -/
structure Reading where
  temperature : BitVec 32
  humidity : BitVec 32
  deriving DecidableEq, Repr, Inhabited

/-- The configuration function `FloatEval` (R7, R195) as plain data: the float32 words chosen for raw values, each half a list of entries.
A raw value without an entry has a free value (log 13); `floatEvalOf` gives the data of any two functions. -/
structure FloatEval where
  temperature : List (BitVec 16 × BitVec 32)
  humidity : List (BitVec 16 × BitVec 32)
  deriving DecidableEq, Repr, Inhabited

/-- The parameters of R7. `pollLimit = none` is `POLL_LIMIT = ∞`. Times are microseconds. -/
structure Config where
  pinClock : Nat
  pinData : Nat
  tHigh : Nat
  tLow : Nat
  tSetup : Nat
  pollLimit : Option Nat
  rxCheckAddrAck : Bool
  sensorAddr : BitVec 7
  ptrConfig : Byte
  cfgHi : Byte
  cfgLo : Byte
  ptrTrigger : Byte
  conversionDelay : Nat
  floatEval : FloatEval
  driverSurfacesErrors : Bool
  deriving DecidableEq, Repr

/-- OPEN parameter `PIN_CLOCK` (R7; no rule reads it). -/
opaque Config.openPinClock : Nat
/-- OPEN parameter `PIN_DATA` (R7; no rule reads it). -/
opaque Config.openPinData : Nat
/-- OPEN parameter `T_HIGH` (R7, R261). -/
opaque Config.openTHigh : Nat
/-- OPEN parameter `T_LOW` (R7, R261). -/
opaque Config.openTLow : Nat
/-- OPEN parameter `SENSOR_ADDR` (R7, R191). -/
opaque Config.openSensorAddr : BitVec 7
/-- OPEN parameter `PTR_CONFIG` (R7, R191). -/
opaque Config.openPtrConfig : Byte
/-- OPEN parameter `CFG_HI` (R7, R191). -/
opaque Config.openCfgHi : Byte
/-- OPEN parameter `CFG_LO` (R7, R191). -/
opaque Config.openCfgLo : Byte
/-- OPEN parameter `PTR_TRIGGER` (R7, R191). -/
opaque Config.openPtrTrigger : Byte

/-- The parameters at their defaults (R7): `T_SETUP = T_LOW`, `POLL_LIMIT = ∞`, `RX_CHECK_ADDR_ACK = false`, `CONVERSION_DELAY` 20 ms,
`DRIVER_SURFACES_ERRORS = false`; the OPEN ones are free (`FloatEval`: no entry, so every value free). -/
def Config.standard : Config where
  pinClock := Config.openPinClock
  pinData := Config.openPinData
  tHigh := Config.openTHigh
  tLow := Config.openTLow
  tSetup := Config.openTLow
  pollLimit := none
  rxCheckAddrAck := false
  sensorAddr := Config.openSensorAddr
  ptrConfig := Config.openPtrConfig
  cfgHi := Config.openCfgHi
  cfgLo := Config.openCfgLo
  ptrTrigger := Config.openPtrTrigger
  conversionDelay := 20000
  floatEval := ⟨[], []⟩
  driverSurfacesErrors := false

/-- Free value: the environment's answer to the `n`-th micro-operation when no script gives one (R63, D23; log 2). -/
opaque Config.freeAnswer : Nat → EnvAnswer

/-- Free value: how many microseconds the `n`-th micro-operation takes beyond a DELAY's constant (R130, R262; log 9). -/
opaque Config.freeElapsed : Nat → Nat

/-- Free value: how many microseconds the client's `n`-th wait takes beyond `CONVERSION_DELAY` (R193; log 9). -/
opaque Config.freeHostElapsed : Nat → Nat

/-- Free value: `convT` of a raw value for which `FloatEval` has no entry (R195; log 13). -/
opaque Config.freeConvT : BitVec 16 → BitVec 32

/-- Free value: `convH` of a raw value for which `FloatEval` has no entry (R195; log 13). -/
opaque Config.freeConvH : BitVec 16 → BitVec 32

/-- Free value: the reading `measure()` returns as its `n`-th return when `receive` gave no bytes (R196, U5; log 13). -/
opaque Config.freeReading : Nat → Reading

end Sys2Proof
end

