-- ==== Sys2Proof/Machine/State.lean ====
section
/-! DEFINITION. The state of the machine (10_state.md R20, R30 to R32, R35; 00_scope.md R12), its refusals (60_exceptions.md R222), and
the state after construction (70_reset_and_hazards.md R240).

`Block` holds the registers of the block, the two histories, and what meets the environment. `State` adds the sequencer position, `RESULT`
and the host's side. The transaction latches and what a running listing holds stand inside the sequencer position, so that they exist
only while their listing runs (R32). -/

namespace Sys2Proof.Machine

/-! ### The protocol state machine -/

/-- `BusState` (R29, R103): 0 to 5 in this order. -/
inductive BusState where
  | idle
  | start
  | addressPhase
  | dataPhase
  | ackPhase
  | stop
  deriving DecidableEq, Repr, Inhabited

/-- The 3-bit number of a `BusState` (R103). -/
def BusState.code : BusState → BitVec 3
  | .idle => 0#3
  | .start => 1#3
  | .addressPhase => 2#3
  | .dataPhase => 3#3
  | .ackPhase => 4#3
  | .stop => 5#3

/-! ### The sequencer position (R30): one type of labels per listing -/

/-- The two admitted bit counts of `transfer` (R68, R93). -/
inductive Width where
  | eight
  | one
  deriving DecidableEq, Repr, Inhabited

/-- What a running `transfer` holds: its bit count, and `d0` and `v0` of X0 (41_primitives.md R151). -/
structure XferCtx where
  width : Width
  d0 : Dir
  v0 : Byte
  deriving DecidableEq, Repr, Inhabited

/-- The labels of `transfer` (R151). `x7` is the loop test with the micro-operation that follows it (X2 again, or X8). -/
inductive XferPos where
  | x1 (w : Width)
  | x2 (c : XferCtx)
  | x3 (c : XferCtx)
  | x4 (c : XferCtx)
  | x5 (c : XferCtx)
  | x6 (c : XferCtx)
  | x7 (c : XferCtx)
  deriving DecidableEq, Repr, Inhabited

/-- The labels of `generateStart` (R152). -/
inductive StartPos where
  | s1 | s2 | s3 | s4 | s5 | s6 | s7
  deriving DecidableEq, Repr, Inhabited

/-- The labels of `generateStop` (R153). -/
inductive StopPos where
  | p1 | p2 | p3 | p4 | p5 | p6 | p7
  deriving DecidableEq, Repr, Inhabited

/-- The labels of `sendByte` (R154), with the byte to send until it is loaded and the byte the 1-bit transfer returned after it. -/
inductive BytePos where
  | b1 (value : Byte)
  | b2 (x : XferPos)
  | b3
  | b4 (x : XferPos)
  | b5 (r : Byte)
  | b6 (r : Byte)
  deriving DecidableEq, Repr, Inhabited

/-- The transaction latches of `send` (R32): `t_addr`, `t_bytes`, `t_i`, `t_ok`. -/
structure SendLatches where
  addr : BitVec 7
  bytes : List Byte
  i : Nat
  ok : Bool
  deriving DecidableEq, Repr, Inhabited

/-- The transaction latches of `receive` (R32): `t_addr`, `t_count`, `t_i`, `t_out`. -/
structure RecvLatches where
  addr : BitVec 7
  count : Nat
  i : Nat
  out : List Byte
  deriving DecidableEq, Repr, Inhabited

/-- The labels of `send` at which a micro-operation can be next (42_transactions.md R171). -/
inductive SendPos where
  | w1 (p : StartPos)
  | w2 (p : BytePos)
  | w4 (p : BytePos)
  | w6 (p : StopPos)
  deriving DecidableEq, Repr, Inhabited

/-- The labels of `receive` at which a micro-operation can be next (R172); `b` is the byte captured at Q6. -/
inductive RecvPos where
  | q1 (p : StartPos)
  | q2 (p : BytePos)
  | q3 (p : StopPos)
  | q5
  | q6 (x : XferPos)
  | q7 (b : Byte)
  | q8 (b : Byte)
  | q9 (b : Byte) (x : XferPos)
  | q11 (p : StopPos)
  deriving DecidableEq, Repr, Inhabited

/-- The five micro-operations of the recovery after BusTimeout (60_exceptions.md R213). -/
inductive RecoverPos where
  | r1 | r2 | r3 | r4 | r5
  deriving DecidableEq, Repr, Inhabited

/-- The sequencer position (R30): empty, or the running command with the label each of its nested listings stands at. -/
inductive Seq where
  /-- Empty: waiting for a command (R35, R241). -/
  | ready
  /-- A `WAITHIGH` command that has sampled 0 and polls again (R131). -/
  | waitHigh (l : Line)
  /-- The command `START`. -/
  | start (p : StartPos)
  /-- The command `STOP`. -/
  | stop (p : StopPos)
  /-- The command `SENDBYTE`. -/
  | sendByte (p : BytePos)
  /-- The command `XFER`. -/
  | xfer (p : XferPos)
  /-- The command `SEND` with its latches. -/
  | send (t : SendLatches) (p : SendPos)
  /-- The command `RECEIVE` with its latches. -/
  | receive (t : RecvLatches) (p : RecvPos)
  /-- The recovery after BusTimeout on a line, whatever command raised it. -/
  | recover (p : RecoverPos) (l : Line)
  deriving DecidableEq, Repr, Inhabited

/-! ### Results (R31, R102, R215) -/

/-- The status codes of R215. -/
inductive Status where
  | ok
  | acknowledgmentFailure
  | busTimeout
  | malformedReceive
  deriving DecidableEq, Repr, Inhabited

/-- The number of a status (R215). -/
def Status.code : Status → Byte
  | .ok => 0#8
  | .acknowledgmentFailure => 1#8
  | .busTimeout => 2#8
  | .malformedReceive => 3#8

/-- The value half of `RESULT` (R31). -/
inductive ResultValue where
  /-- No value. -/
  | empty
  /-- One bit: `READLEVEL`, `SENDBYTE`. -/
  | bit (b : Bool)
  /-- One byte: `READDR`, `READSR`, `XFER`. -/
  | byte (b : Byte)
  /-- A list of bytes: `RECEIVE`. -/
  | bytes (l : List Byte)
  /-- The count of acknowledged frames: AcknowledgmentFailure (R211). -/
  | frames (n : Nat)
  /-- The line whose poll ran out: BusTimeout (R213). -/
  | line (l : Line)
  deriving DecidableEq, Repr, Inhabited

/-- `RESULT` (R31). -/
structure Result where
  status : Status
  value : ResultValue
  deriving DecidableEq, Repr, Inhabited

/-! ### The histories (00_scope.md R12) -/

/-- One event of the primitive history. -/
inductive PrimEvent where
  | start
  | byteOut (v : Byte)
  | byteIn (v : Byte)
  | ackBit (b : Bool)
  | stop
  deriving DecidableEq, Repr, Inhabited

/-- The levels of CLOCK and DATA after a micro-operation: one entry of the line history. -/
structure Levels where
  clock : Bool
  data : Bool
  deriving DecidableEq, Repr, Inhabited

/-! ### The host's side (60_exceptions.md R227; 43_host_client.md) -/

/-- One move of the host (R227; the three pseudo-instructions of 30_encoding.md R107 that are no single command). -/
inductive HostOp where
  /-- Hand over one word of a command. -/
  | word (w : Word)
  /-- Read `RESULT` (R102). -/
  | readResult
  /-- `POLL L`: issue `READLEVEL L` until it returns 1. -/
  | poll (l : Line)
  /-- Call `initialize()`. -/
  | initializeClient
  /-- Call `measure()`. -/
  | measure
  deriving DecidableEq, Repr, Inhabited

/-- Where the host's software stands between commands (R192, R193; `poll` of R107). -/
inductive Client where
  /-- Not inside a call. -/
  | idle
  /-- Inside `POLL L`: a `READLEVEL L` was issued. -/
  | polling (l : Line)
  /-- Inside `initialize()`: its `send` was issued. -/
  | initializing
  /-- Inside `measure()` at M1: the trigger `send` was issued. -/
  | triggering
  /-- Inside `measure()` before M3: the wait of M2 is over; `s1` is the status of M1. -/
  | waited (s1 : Status)
  /-- Inside `measure()` at M3: the `receive` was issued. -/
  | reading (s1 : Status)
  deriving DecidableEq, Repr, Inhabited

/-- What a call of the client returned (R190, R196). -/
inductive ClientReturn where
  /-- `initialize()` returned, nothing surfaced. -/
  | initialized
  /-- `initialize()` returned its `send`'s status (`DRIVER_SURFACES_ERRORS`). -/
  | initStatus (s : Status)
  /-- `measure()` returned a reading. -/
  | reading (r : Reading)
  /-- `measure()` returned a non-zero status in place of a reading (`DRIVER_SURFACES_ERRORS`). -/
  | measureStatus (s : Status)
  deriving DecidableEq, Repr, Inhabited

/-! ### The block and the whole state -/

/-- The registers of the block (R20), its parameters (00_scope.md R7), the two histories (R12), and where it meets the environment. -/
structure Block where
  /-- The parameters; no step changes them (R7). -/
  cfg : Config
  /-- `dir[CLOCK]` (R27). -/
  dirClock : Dir
  /-- `dir[DATA]` (R27). -/
  dirData : Dir
  /-- `latch[CLOCK]` (R28): true is 1, released. -/
  latchClock : Bool
  /-- `latch[DATA]` (R28): true is 1, released. -/
  latchData : Bool
  /-- `DR` (R22). -/
  dr : Byte
  /-- `SR.CNT` (R26). -/
  cnt : BitVec 4
  /-- `SR.DONE` (R23). -/
  done : Bool
  /-- `BusState` (R29). -/
  bus : BusState
  /-- `after_start` (R20). -/
  afterStart : Bool
  /-- `poll_n` (R20, R131). -/
  pollN : Nat
  /-- Line history, oldest first (R12). -/
  lineHist : List Levels
  /-- Primitive history, oldest first (R12). -/
  primHist : List PrimEvent
  /-- The model's own: the environment's coming answers, one per micro-operation (log 2). -/
  env : List EnvAnswer
  /-- The model's own: how many micro-operations have run; numbers the free values (log 2, log 9). -/
  ops : Nat
  /-- The model's own: the clock of R262, in microseconds (log 9). -/
  time : Nat
  deriving DecidableEq, Repr

/-- The whole state. -/
structure State where
  /-- The block's registers, parameters and histories. -/
  blk : Block
  /-- The sequencer position (R30). -/
  seq : Seq
  /-- `RESULT` (R31): none before the first command completes (R35). -/
  result : Option Result
  /-- The model's own: what the host does next, oldest first (log 5). -/
  program : List HostOp
  /-- The model's own: where the host's software stands (log 12). -/
  client : Client
  /-- The model's own: what the client's calls returned, oldest first (log 12). -/
  clientLog : List ClientReturn
  /-- The model's own: the result words the host has read, oldest first (log 11). -/
  inbox : List Word
  deriving DecidableEq, Repr

/-- The machine never stops with a fault: an error of the block ends its command in a NEXT state with a status in `RESULT` (R9, R215,
R219), and nothing in the block is fatal (R220). So there is no constructor (log 18). -/
inductive Fault where
  deriving DecidableEq, Repr

/-- The model's verdicts that a command has no meaning (60_exceptions.md R222: "Each errs toward unprovable"). All are safe. -/
inductive Refusal where
  /-- An instruction the model gives no meaning yet; raised by no arm. Safe. -/
  | notModelled (mnemonic : String)
  /-- R104: the decoder, on a reserved word or extension word. Safe. -/
  | reservedEncoding
  /-- R151: `XFER` with a pair other than (8, 0xF0) and (1, 0xFE). Safe. -/
  | transferOperands
  /-- R151, R154: a byte transfer issued while the master does not drive CLOCK low. Safe. -/
  | transferEntryClockNotLow
  /-- R152, R153: `START`, `STOP` or a transaction with a line in input direction. Safe. -/
  | pinsNotOutput
  /-- R153: `STOP` with `latch[CLOCK] = 1`. Safe. -/
  | stopEntryClockNotLow
  /-- R155: `START` outside `Idle`. Safe. -/
  | startNotFromIdle
  /-- R155: `SENDBYTE` or `XFER 8` outside `Start` and `AckPhase`. Safe. -/
  | byteNotAfterStartOrAck
  /-- R155: `XFER 1` outside `AddressPhase` and `DataPhase`. Safe. -/
  | ackNotAfterByte
  /-- R155: `STOP` outside `Start` and `AckPhase`. Safe. -/
  | stopNotAfterStartOrAck
  /-- R170: a transaction outside `Idle`. Safe. -/
  | busy
  /-- R171, R172: an address above 127. Safe. -/
  | addressRange
  /-- R172: a `RECEIVE` of no bytes. Safe. -/
  | countZero
  /-- R129: a falling strobe that finds the CLOCK line low. Safe. -/
  | fallingStrobeWhileClockLow
  /-- R35: the host reads `RESULT` before any command has completed. Safe. -/
  | resultBeforeFirstCommand
  /-- The model's own (log 6): the host's words end inside a command. Safe. -/
  | truncatedCommand
  /-- The model's own (log 4): a command issued while another runs (R227, R250). `step` never raises it. Safe. -/
  | commandRunning
  deriving DecidableEq, Repr

/-- The block right after construction with the given parameters (R35, R240). -/
def Block.construct (cfg : Config) : Block where
  cfg := cfg
  dirClock := .output
  dirData := .output
  latchClock := true
  latchData := true
  dr := 0xFF#8
  cnt := 0#4
  done := false
  bus := .idle
  afterStart := false
  pollN := 0
  lineHist := []
  primHist := []
  env := []
  ops := 0
  time := 0

/-- Construction, the one reset event (R240): the block in its reset state, no command issued yet (R241). -/
def State.construct (cfg : Config) : State where
  blk := Block.construct cfg
  seq := .ready
  result := none
  program := []
  client := .idle
  clientLog := []
  inbox := []

/-- The machine right after construction with the parameters at their defaults (R7, R35, R240). -/
def State.reset : State := State.construct Config.standard

end Sys2Proof.Machine
end

