-- ==== Sys2Proof/Machine/Conversion.lean ====
section
/-! DEFINITION. The client's arithmetic (43_host_client.md R194, R195): the raw values, the exact conversions, and what a float32 word
stands for. -/

namespace Sys2Proof.Machine

/-- A raw value from two bytes, most significant first (R67, R194). -/
def rawOf (hi lo : Byte) : BitVec 16 := hi ++ lo

/-- `convT` of a `FloatEval` (R195): the chosen value, else the free one. -/
def convT (e : FloatEval) (raw : BitVec 16) : BitVec 32 :=
  match e.temperature.lookup raw with
  | some w => w
  | none => Config.freeConvT raw

/-- `convH` of a `FloatEval` (R195): the chosen value, else the free one. -/
def convH (e : FloatEval) (raw : BitVec 16) : BitVec 32 :=
  match e.humidity.lookup raw with
  | some w => w
  | none => Config.freeConvH raw

/-- One entry for every raw value. -/
def tabulate (f : BitVec 16 → BitVec 32) : List (BitVec 16 × BitVec 32) :=
  (List.range 65536).map fun n => (BitVec.ofNat 16 n, f (BitVec.ofNat 16 n))

/-- The `FloatEval` whose `convT` and `convH` are two given functions. -/
def floatEvalOf (f g : BitVec 16 → BitVec 32) : FloatEval where
  temperature := tabulate f
  humidity := tabulate g

/-- `T(raw) = raw * 165 / 65536 - 40` as an exact rational (R195). -/
def exactT (raw : BitVec 16) : Rat := (raw.toNat * 165 : Rat) / 65536 - 40

/-- `H(raw) = raw * 100 / 65536` as an exact rational (R195). -/
def exactH (raw : BitVec 16) : Rat := (raw.toNat * 100 : Rat) / 65536

/-- A float32 word is finite: its exponent field is not all ones. -/
def f32Finite (w : BitVec 32) : Bool := w.extractLsb' 23 8 != 0xFF#8

/-- The number a finite float32 word stands for (R195 "The results are float32 values"; the IEEE 754 binary32 layout is PRESUMED, log 13). -/
def f32Value (w : BitVec 32) : Rat :=
  let e := (w.extractLsb' 23 8).toNat
  let f := (w.extractLsb' 0 23).toNat
  let magnitude : Rat := if e = 0 then (f : Rat) / 2 ^ 149 else ((2 ^ 23 + f : Nat) : Rat) * 2 ^ e / 2 ^ 150
  if w.getLsbD 31 then -magnitude else magnitude

/-- The property a claim may assume of `FloatEval` (R195): finite results within 0.1 of the exact values. -/
def FloatEvalOk (e : FloatEval) : Prop :=
  ∀ raw, f32Finite (convT e raw) = true ∧ f32Finite (convH e raw) = true ∧
    |f32Value (convT e raw) - exactT raw| ≤ 1 / 10 ∧ |f32Value (convH e raw) - exactH raw| ≤ 1 / 10

/-- The float32 word of `m / 65536` for a natural `m` below `2 ^ 24`; it is exact. -/
def f32OfNat (m : Nat) : BitVec 32 :=
  if m = 0 then 0#32
  else BitVec.ofNat 32 ((Nat.log2 m + 111) * 2 ^ 23 + (m * 2 ^ (23 - Nat.log2 m) - 2 ^ 23))

/-- The float32 nearest to `T(raw)`, R195's suggested single value: `T(raw)` is `(raw * 165 - 2621440) / 65536`, whose numerator has
less than 24 bits, so the nearest float32 is `T(raw)` itself. -/
def nearestT (raw : BitVec 16) : BitVec 32 :=
  if raw.toNat * 165 < 2621440 then f32OfNat (2621440 - raw.toNat * 165) ||| 0x80000000#32
  else f32OfNat (raw.toNat * 165 - 2621440)

/-- The float32 nearest to `H(raw)`, exact for the same reason. -/
def nearestH (raw : BitVec 16) : BitVec 32 := f32OfNat (raw.toNat * 100)

/-- `measure()`'s M4 and M5 on four bytes, with the host's float evaluation (R193 to R195). -/
def readingOf (e : FloatEval) (b0 b1 b2 b3 : Byte) : Reading where
  temperature := convT e (rawOf b0 b1)
  humidity := convH e (rawOf b2 b3)

end Sys2Proof.Machine
end

