-- ==== Sys2Proof/Machine/Flags.lean ====
section
/-! DEFINITION. The status register and the data register's shift (10_state.md R22, R23, R25, R26; 40_micro_ops.md R127 to R129):
every flag and counter computation of the block. -/

namespace Sys2Proof.Machine

/-- `SR` as read: `0 ∥ DONE ∥ 00 ∥ CNT` (R25, R94). -/
def srByte (cnt : BitVec 4) (done : Bool) : Byte := 0#1 ++ BitVec.ofBool done ++ 0#2 ++ cnt

/-- `SR.CNT <- cw[3:0]` (R25, R127). -/
def loadCnt (cw : Byte) : BitVec 4 := cw.extractLsb' 0 4

/-- `if cw[6] = 1 then SR.DONE <- 0`: write one to clear (R25, R127). -/
def loadDone (cw : Byte) (done : Bool) : Bool := if cw.getLsbD 6 then false else done

/-- `SR.CNT <- (SR.CNT + 1) mod 16` (R26, R79). -/
def countUp (cnt : BitVec 4) : BitVec 4 := cnt + 1#4

/-- `SR.DONE` after a strobe whose new count is `cnt`: set on the wrap to 0, else as it was (R23, R129). -/
def doneAfter (cnt : BitVec 4) (done : Bool) : Bool := if cnt = 0#4 then true else done

/-- `DR[6:0] ∥ s` (R79, R129). -/
def shiftIn (dr : Byte) (s : Bool) : Byte := dr.extractLsb' 0 7 ++ BitVec.ofBool s

end Sys2Proof.Machine
end

