-- ==== Sys2Proof/Machine/Operands.lean ====
section
/-! DEFINITION. The operand forms: a line's direction and latch, a delay's constant, the control words and bit counts of `transfer`, the
address byte, the acknowledgment patterns and the result words. -/

namespace Sys2Proof.Machine

/-- `dir[L]` (10_state.md R27). -/
def Block.dir (b : Block) : Line → Dir
  | .clock => b.dirClock
  | .data => b.dirData

/-- `latch[L]` (R28). -/
def Block.latch (b : Block) : Line → Bool
  | .clock => b.latchClock
  | .data => b.latchData

/-- `dir[L] <- d`. -/
def Block.withDir (b : Block) (l : Line) (d : Dir) : Block :=
  match l with
  | .clock => { b with dirClock := d }
  | .data => { b with dirData := d }

/-- `latch[L] <- v`. -/
def Block.withLatch (b : Block) (l : Line) (v : Bool) : Block :=
  match l with
  | .clock => { b with latchClock := v }
  | .data => { b with latchData := v }

/-- The constant a delay select names (00_scope.md R7, 30_encoding.md R97). -/
def delayOf (cfg : Config) : DelaySel → Nat
  | .tLow => cfg.tLow
  | .tHigh => cfg.tHigh
  | .tSetup => cfg.tSetup

/-- The control word tied to a bit count: `CW8`, `CW1` (R93). -/
def controlWord : Width → Byte
  | .eight => 0xF0#8
  | .one => 0xFE#8

/-- The bit count (R68). -/
def bitCount : Width → Nat
  | .eight => 8
  | .one => 1

/-- `transfer` admits two operand pairs (R93, 41_primitives.md R151). -/
def widthOf (n : Nat) (cw : Byte) : Option Width :=
  if n = 8 ∧ cw = 0xF0#8 then some .eight
  else if n = 1 ∧ cw = 0xFE#8 then some .one
  else none

/-- The address byte with WRITE = 0 (R91). -/
def addressWrite (a : BitVec 7) : Byte := a ++ 0#1

/-- The address byte with READ = 1 (R91). -/
def addressRead (a : BitVec 7) : Byte := a ++ 1#1

/-- The ACK pattern (R95). -/
def ackPattern : Byte := 0x00#8

/-- The NACK pattern (R95). -/
def nackPattern : Byte := 0xFF#8

/-- The number of a line in a result word (R102, R103). -/
def lineCode : Line → Byte
  | .clock => 0#8
  | .data => 1#8

/-- `R[7:0]` of the result word (R102, R215). -/
def ResultValue.valueByte : ResultValue → Byte
  | .empty => 0#8
  | .bit b => if b then 1#8 else 0#8
  | .byte v => v
  | .bytes _ => 0#8
  | .frames n => BitVec.ofNat 8 n
  | .line l => lineCode l

/-- The data words that follow the result word (R102): the bytes of a `RECEIVE`, in capture order. -/
def ResultValue.dataWords : ResultValue → List Word
  | .bytes l => l.map (fun v => v.setWidth 32)
  | .empty => []
  | .bit _ => []
  | .byte _ => []
  | .frames _ => []
  | .line _ => []

/-- The words a result is handed back as (R102): status, number of data words, zero, value; then the data words. -/
def resultWords (r : Result) : List Word :=
  (r.status.code ++ BitVec.ofNat 8 r.value.dataWords.length ++ 0#8 ++ r.value.valueByte) :: r.value.dataWords

end Sys2Proof.Machine
end

