-- ==== Sys2Proof/Machine/Ops.lean ====
section
/-! DEFINITION. The named operations on the block: the wire model (20_memory.md R62, R63), the eleven micro-operations
(40_micro_ops.md R121 to R131), the histories (00_scope.md R12), and on the state: accepting and completing a command, raising
BusTimeout (60_exceptions.md R213). -/

namespace Sys2Proof.Machine

/-! ### The wires -/

/-- `mdrv_low(CLOCK)` (R62). -/
def Block.drivesClockLow (b : Block) : Bool := b.dirClock == .output && !b.latchClock

/-- `mdrv_low(DATA)` (R62): through the latch or through `DR[7]`. -/
def Block.drivesDataLow (b : Block) : Bool := b.dirData == .output && (!b.latchData || !b.dr.getLsbD 7)

/-- `mdrv_low(L)` (R62). -/
def Block.drivesLow (b : Block) : Line → Bool
  | .clock => b.drivesClockLow
  | .data => b.drivesDataLow

/-- `level(L)` when the environment holds L low or not (R63). -/
def Block.level (b : Block) (l : Line) (envLow : Bool) : Bool := !(b.drivesLow l || envLow)

/-- The environment's answer to the coming micro-operation: the script's next, or the free value (log 2). -/
def Block.answer (b : Block) : EnvAnswer :=
  match b.env with
  | a :: _ => a
  | [] => Config.freeAnswer b.ops

/-- `env_low(L)` at the instant of the micro-operation's sample (R63). -/
def envLow (a : EnvAnswer) : Line → Bool
  | .clock => a.clockLow
  | .data => a.dataLow

/-- `env_low(L)` just after the micro-operation. -/
def envLowAfter (a : EnvAnswer) : Line → Bool
  | .clock => a.clockLowAfter
  | .data => a.dataLowAfter

/-- A sample of a line: `level(L)` with the environment's answer (R63). -/
def Block.sample (b : Block) (l : Line) : Bool := b.level l (envLow b.answer l)

/-- The levels of both lines after a micro-operation that left the block as it is (R12). -/
def Block.levelsAfter (b : Block) : Levels where
  clock := b.level .clock (envLowAfter b.answer .clock)
  data := b.level .data (envLowAfter b.answer .data)

/-- The end of every micro-operation: the line history grows by the new levels (R12), one answer of the environment is used up, and the
clock moves by at least `atLeast` microseconds (R130, R262). -/
def Block.tick (b : Block) (atLeast : Nat) : Block :=
  { b with
    lineHist := b.lineHist ++ [b.levelsAfter]
    env := b.env.tail
    ops := b.ops + 1
    time := b.time + atLeast + Config.freeElapsed b.ops }

/-- The primitive history grows by one event (R12). -/
def Block.record (b : Block) (e : PrimEvent) : Block := { b with primHist := b.primHist ++ [e] }

/-! ### The micro-operations -/

/-- `SETHIGH L` (R121). -/
def Block.setHigh (b : Block) (l : Line) : Block := (b.withLatch l true).tick 0

/-- `SETLOW L` (R122). -/
def Block.setLow (b : Block) (l : Line) : Block := (b.withLatch l false).tick 0

/-- `SETDIR L, d` (R124). -/
def Block.setDir (b : Block) (l : Line) (d : Dir) : Block := (b.withDir l d).tick 0

/-- `LOADDR v` (R125). -/
def Block.loadDR (b : Block) (v : Byte) : Block := { b with dr := v }.tick 0

/-- `LOADSR cw` (R127). -/
def Block.loadSR (b : Block) (cw : Byte) : Block := { b with cnt := loadCnt cw, done := loadDone cw b.done }.tick 0

/-- A micro-operation that writes no register: `READLEVEL`, `READDR`, `READSR` (R123, R126, R128). -/
def Block.readOnly (b : Block) : Block := b.tick 0

/-- `DELAY k` (R130): nothing but time. -/
def Block.delay (b : Block) (k : DelaySel) : Block := b.tick (delayOf b.cfg k)

/-- Counting one edge (R129): `SR.CNT` and, on the wrap, `SR.DONE`. -/
def Block.countEdge (b : Block) : Block :=
  { b with cnt := countUp b.cnt, done := doneAfter (countUp b.cnt) b.done }

/-- The rising strobe (R129): CLOCK released, one edge counted. -/
def Block.risingStrobe (b : Block) : Block := ({ b with latchClock := true } : Block).countEdge.tick 0

/-- The falling strobe (R129): DATA sampled, CLOCK driven low, `DR` shifted, one edge counted. -/
def Block.fallingStrobe (b : Block) : Block :=
  ({ b with latchClock := false, dr := shiftIn b.dr (b.sample .data) } : Block).countEdge.tick 0

/-- `STROBE` (R129). `none`: a falling strobe that finds the CLOCK line low. -/
def Block.strobe (b : Block) : Option Block :=
  if b.latchClock then
    if b.sample .clock then some b.fallingStrobe else none
  else some b.risingStrobe

/-- What one poll of `WAITHIGH` gives (R131). -/
inductive PollResult where
  /-- The sample was 1. -/
  | high (b : Block)
  /-- The sample was 0: poll again. -/
  | again (b : Block)
  /-- The sample was 0 and the limit is reached: BusTimeout. -/
  | timeout (b : Block)
  deriving DecidableEq, Repr

/-- One poll of `WAITHIGH L` (R131). `poll_n` counts only under a finite `POLL_LIMIT` (R20; log 7). -/
def Block.poll (b : Block) (l : Line) : PollResult :=
  if b.sample l then .high ({ b with pollN := 0 }.tick 0)
  else match b.cfg.pollLimit with
    | none => .again (b.tick 0)
    | some limit =>
      if limit ≤ b.pollN + 1 then .timeout (b.tick 0)
      else .again ({ b with pollN := b.pollN + 1 }.tick 0)

/-! ### Commands: acceptance, completion, BusTimeout -/

/-- The outcomes of the model's steps. -/
abbrev Out := Host.Outcome State Fault Refusal

/-- A command is issued only while the sequencer waits for one (R227, R250; log 4). -/
def State.issue (s : State) (o : Out) : Out :=
  match s.seq with
  | .ready => o
  | _ => .refused .commandRunning

/-- A test made before the command's first micro-operation (R222). -/
def require (c : Bool) (r : Refusal) (o : Out) : Out := if c then o else .refused r

/-- The command ends: its result is written and the position is empty (R31, R35). -/
def State.finish (s : State) (b : Block) (r : Result) : State :=
  { s with blk := b, seq := .ready, result := some r }

/-- The command ends normally with a value: status 0 (R9 Complete). -/
def State.complete (s : State) (b : Block) (v : ResultValue) : State := s.finish b ⟨.ok, v⟩

/-- The command goes on: the block after this micro-operation, and the position of the next. -/
def State.goto (s : State) (b : Block) (q : Seq) : State := { s with blk := b, seq := q }

/-- BUS TIMEOUT, the one error with an entry of its own (R213, R219): the running command and every listing it is nested in are abandoned
at this poll, and the recovery sequence is next. It will report the line. -/
def State.raiseBusTimeout (s : State) (b : Block) (l : Line) : State := s.goto b (.recover .r1 l)

/-- The end of the recovery (R213): `Idle`, latches dead, and the return to the host with status 2. -/
def State.returnBusTimeout (s : State) (b : Block) (l : Line) : State :=
  s.finish { b with bus := .idle, afterStart := false, pollN := 0 } ⟨.busTimeout, .line l⟩

/-! ### One step of a listing -/

/-- What one micro-operation of a listing gives: the listing stands at a new label, or has returned, or a poll of it has run out, or the
model has no meaning for what comes. -/
inductive Adv (π ρ : Type) where
  | goto (p : π) (b : Block)
  | ret (r : ρ) (b : Block)
  | timeout (l : Line) (b : Block)
  | refuse (r : Refusal)

/-- A `WAITHIGH` inside a listing: stay at this label, or go to the next. -/
def pollAdv {π ρ : Type} (b : Block) (l : Line) (here next : π) : Adv π ρ :=
  match b.poll l with
  | .high b' => .goto next b'
  | .again b' => .goto here b'
  | .timeout b' => .timeout l b'

/-- A `STROBE` inside a listing. -/
def strobeAdv {π ρ : Type} (b : Block) (next : π) : Adv π ρ :=
  match b.strobe with
  | some b' => .goto next b'
  | none => .refuse .fallingStrobeWhileClockLow

/-- A listing called by another: its labels inside the caller's, and the caller's next label when it returns. -/
def Adv.call {π ρ π' ρ' : Type} (r : Adv π ρ) (inside : π → π') (after : ρ → Block → Adv π' ρ') : Adv π' ρ' :=
  match r with
  | .goto p b => .goto (inside p) b
  | .ret v b => after v b
  | .timeout l b => .timeout l b
  | .refuse e => .refuse e

/-- A command's listing, seen from the state: its labels inside the position, and what its return does. -/
def State.runListing {π ρ : Type} (s : State) (r : Adv π ρ) (position : π → Seq) (done : ρ → Block → State) : Out :=
  match r with
  | .goto p b => .next (s.goto b (position p))
  | .ret v b => .next (done v b)
  | .timeout l b => .next (s.raiseBusTimeout b l)
  | .refuse e => .refused e

end Sys2Proof.Machine
end

