-- ==== Sys2Proof/Machine/Pins.lean ====
section
/-! DEFINITION. The pin operations as commands: `SETHIGH`, `SETLOW`, `READLEVEL`, `SETDIR` (40_micro_ops.md R121 to R124). Each is one
micro-operation, so one step completes it (R120); each is accepted in any `BusState` (R155). -/

namespace Sys2Proof.Machine

/-- `SETHIGH L` (R121). -/
def execSetHigh (l : Line) (s : State) : Out :=
  s.issue (.next (s.complete (s.blk.setHigh l) .empty))

/-- `SETLOW L` (R122). -/
def execSetLow (l : Line) (s : State) : Out :=
  s.issue (.next (s.complete (s.blk.setLow l) .empty))

/-- `READLEVEL L` (R123): one sample. -/
def execReadLevel (l : Line) (s : State) : Out :=
  s.issue (.next (s.complete s.blk.readOnly (.bit (s.blk.sample l))))

/-- `SETDIR L, d` (R124). -/
def execSetDir (l : Line) (d : Dir) (s : State) : Out :=
  s.issue (.next (s.complete (s.blk.setDir l d) .empty))

end Sys2Proof.Machine
end

