-- ==== Sys2Proof/Machine/Primitives.lean ====
section
/-! DEFINITION. The four primitives (41_primitives.md R151 to R154): each listing as the micro-operation at each of its labels, and the
commands `START`, `STOP`, `SENDBYTE`, `XFER` with their acceptance (R155).

A line of a listing that is not a micro-operation is done in the step of the micro-operation that follows it; the lines after a listing's
last micro-operation are done in that micro-operation's step (log 3). -/

namespace Sys2Proof.Machine

/-- The master drives CLOCK low: the entry test X0, B0 (R151, R154). -/
def Block.clockDrivenLow (b : Block) : Bool := b.dirClock == .output && b.latchClock == false

/-- Both directions are `output`: the entry test S0, P0 (R152, R153). -/
def Block.pinsOutput (b : Block) : Bool := b.dirClock == .output && b.dirData == .output

/-- The phase of an 8-bit transfer: the address byte right after a start, else data (R29, R151 X0, R154 B0). -/
def bytePhase (afterStart : Bool) : BusState := if afterStart then .addressPhase else .dataPhase

/-- The `BusState` and `after_start` lines of X0 (R151). -/
def Block.enterTransfer (b : Block) (w : Width) : Block :=
  match w with
  | .eight => { b with bus := bytePhase b.afterStart }
  | .one => { b with bus := .ackPhase, afterStart := false }

/-- The event of X8 (R151, 00_scope.md R12). -/
def transferEvent (c : XferCtx) (r : Byte) : PrimEvent :=
  match c.width, c.d0 with
  | .eight, .output => .byteOut c.v0
  | .eight, .input => .byteIn r
  | .one, _ => .ackBit (r.getLsbD 0)

/-! ### transfer -/

/-- One micro-operation of `transfer` (R151). It returns the captured byte. -/
def xferAdv (p : XferPos) (b : Block) : Adv XferPos Byte :=
  match p with
  | .x1 w =>
    if b.clockDrivenLow then .goto (.x2 ⟨w, b.dirData, b.dr⟩) ((b.enterTransfer w).loadSR (controlWord w))
    else .refuse .transferEntryClockNotLow
  | .x2 c => .goto (.x3 c) (b.delay .tLow)
  | .x3 c => strobeAdv b (.x4 c)
  | .x4 c => pollAdv b .clock (.x4 c) (.x5 c)
  | .x5 c => .goto (.x6 c) (b.delay .tHigh)
  | .x6 c => strobeAdv b (.x7 c)
  | .x7 c =>
    if b.done then .ret b.dr (b.readOnly.record (transferEvent c b.dr))
    else .goto (.x3 c) (b.delay .tLow)

/-! ### generateStart and generateStop -/

/-- One micro-operation of `generateStart` (R152). -/
def startAdv (p : StartPos) (b : Block) : Adv StartPos Unit :=
  match p with
  | .s1 =>
    if b.pinsOutput then .goto .s2 ({ b with bus := .start }.setHigh .clock)
    else .refuse .pinsNotOutput
  | .s2 => pollAdv b .clock .s2 .s3
  | .s3 => .goto .s4 (b.delay .tSetup)
  | .s4 => .goto .s5 (b.setLow .data)
  | .s5 => .goto .s6 (b.delay .tHigh)
  | .s6 => .goto .s7 (b.setLow .clock)
  | .s7 => .ret () ({ b.setHigh .data with afterStart := true }.record .start)

/-- One micro-operation of `generateStop` (R153). -/
def stopAdv (p : StopPos) (b : Block) : Adv StopPos Unit :=
  match p with
  | .p1 =>
    if b.pinsOutput then
      if b.latchClock then .refuse .stopEntryClockNotLow
      else .goto .p2 ({ b with bus := .stop }.setLow .data)
    else .refuse .pinsNotOutput
  | .p2 => .goto .p3 (b.setHigh .clock)
  | .p3 => pollAdv b .clock .p3 .p4
  | .p4 => .goto .p5 (b.delay .tHigh)
  | .p5 => .goto .p6 (b.setHigh .data)
  | .p6 => pollAdv b .data .p6 .p7
  | .p7 => .ret () ({ b.delay .tLow with bus := .idle, afterStart := false }.record .stop)

/-! ### sendByte -/

/-- One micro-operation of `sendByte` (R154). It returns the acknowledgment bit: false is ACK, true is NACK (R92). -/
def byteAdv (p : BytePos) (b : Block) : Adv BytePos Bool :=
  match p with
  | .b1 v =>
    if b.clockDrivenLow then .goto (.b2 (.x1 .eight)) ({ b with bus := bytePhase b.afterStart }.loadDR v)
    else .refuse .transferEntryClockNotLow
  | .b2 x => (xferAdv x b).call .b2 (fun _ b' => .goto .b3 b')
  | .b3 => .goto (.b4 (.x1 .one)) ({ b with bus := .ackPhase, afterStart := false }.setDir .data .input)
  | .b4 x => (xferAdv x b).call .b4 (fun r b' => .goto (.b5 r) b')
  | .b5 r => .goto (.b6 r) (b.loadDR nackPattern)
  | .b6 r => .ret (r.getLsbD 0) (b.setDir .data .output)

/-! ### The commands of tier 2 -/

/-- A byte may begin (R155). -/
def byteAccepted (bus : BusState) : Bool := bus == .start || bus == .ackPhase

/-- An acknowledgment bit may begin (R155). -/
def ackAccepted (bus : BusState) : Bool := bus == .addressPhase || bus == .dataPhase

/-- The step of a `START` command at a label. -/
def startStep (p : StartPos) (s : State) : Out :=
  s.runListing (startAdv p s.blk) .start (fun _ b => s.complete b .empty)

/-- The step of a `STOP` command at a label. -/
def stopStep (p : StopPos) (s : State) : Out :=
  s.runListing (stopAdv p s.blk) .stop (fun _ b => s.complete b .empty)

/-- The step of a `SENDBYTE` command at a label. -/
def sendByteStep (p : BytePos) (s : State) : Out :=
  s.runListing (byteAdv p s.blk) .sendByte (fun ack b => s.complete b (.bit ack))

/-- The step of an `XFER` command at a label. -/
def xferStep (p : XferPos) (s : State) : Out :=
  s.runListing (xferAdv p s.blk) .xfer (fun r b => s.complete b (.byte r))

/-- `START` (R152, R155). -/
def execStart (s : State) : Out :=
  s.issue (require (s.blk.bus == .idle) .startNotFromIdle (startStep .s1 s))

/-- `STOP` (R153, R155). -/
def execStop (s : State) : Out :=
  s.issue (require (byteAccepted s.blk.bus) .stopNotAfterStartOrAck (stopStep .p1 s))

/-- `SENDBYTE v` (R154, R155). -/
def execSendByte (v : Byte) (s : State) : Out :=
  s.issue (require (byteAccepted s.blk.bus) .byteNotAfterStartOrAck (sendByteStep (.b1 v) s))

/-- The acceptance of an `XFER` of a width (R155). -/
def acceptXfer (w : Width) (s : State) : Out :=
  match w with
  | .eight => require (byteAccepted s.blk.bus) .byteNotAfterStartOrAck (xferStep (.x1 .eight) s)
  | .one => require (ackAccepted s.blk.bus) .ackNotAfterByte (xferStep (.x1 .one) s)

/-- `XFER n, cw` (R151, R155). -/
def execXfer (n : Nat) (cw : Byte) (s : State) : Out :=
  s.issue (match widthOf n cw with
    | some w => acceptXfer w s
    | none => .refused .transferOperands)

end Sys2Proof.Machine
end

