-- ==== Sys2Proof/Machine/Shift.lean ====
section
/-! DEFINITION. The shift-peripheral operations as commands: `LOADDR`, `READDR`, `LOADSR`, `READSR`, `STROBE` (40_micro_ops.md R125 to
R129). -/

namespace Sys2Proof.Machine

/-- `LOADDR v` (R125). -/
def execLoadDR (v : Byte) (s : State) : Out :=
  s.issue (.next (s.complete (s.blk.loadDR v) .empty))

/-- `READDR` (R126). -/
def execReadDR (s : State) : Out :=
  s.issue (.next (s.complete s.blk.readOnly (.byte s.blk.dr)))

/-- `LOADSR cw` (R127). -/
def execLoadSR (cw : Byte) (s : State) : Out :=
  s.issue (.next (s.complete (s.blk.loadSR cw) .empty))

/-- `READSR` (R128). -/
def execReadSR (s : State) : Out :=
  s.issue (.next (s.complete s.blk.readOnly (.byte (srByte s.blk.cnt s.blk.done))))

/-- `STROBE` (R129). -/
def execStrobe (s : State) : Out :=
  s.issue (match s.blk.strobe with
    | some b => .next (s.complete b .empty)
    | none => .refused .fallingStrobeWhileClockLow)

end Sys2Proof.Machine
end

