-- ==== Sys2Proof/Machine/Transactions.lean ====
section
/-! DEFINITION. The two transactions `send` and `receive` (42_transactions.md R171, R172) and the commands `SEND`, `RECEIVE` (R170). -/

namespace Sys2Proof.Machine

/-! ### send -/

/-- Where a running `send` stands: its latches and its label. -/
structure SendRun where
  latches : SendLatches
  pos : SendPos
  deriving DecidableEq, Repr

/-- The loop test W3 (R171): the next payload byte, or the stop. -/
def sendNext (t : SendLatches) : SendRun :=
  if t.ok && decide (t.i < t.bytes.length) then ⟨t, .w4 (.b1 (t.bytes.getD t.i 0#8))⟩ else ⟨t, .w6 .p1⟩

/-- W2 (R171): `t_ok` from the address byte's acknowledgment bit. -/
def afterAddress (t : SendLatches) (ack : Bool) : SendLatches := { t with ok := !ack }

/-- W4 and W5 (R171): `t_ok` from the payload byte's acknowledgment bit, and the next index. -/
def afterPayload (t : SendLatches) (ack : Bool) : SendLatches := { t with ok := !ack, i := t.i + 1 }

/-- W7 (R171): status 0, or AcknowledgmentFailure with the number of frames acknowledged before the failing one (R211). -/
def sendResult (t : SendLatches) : Result :=
  if t.ok then ⟨.ok, .empty⟩ else ⟨.acknowledgmentFailure, .frames t.i⟩

/-- One micro-operation of `send` (R171). -/
def sendAdv (t : SendLatches) (p : SendPos) (b : Block) : Adv SendRun Result :=
  match p with
  | .w1 q => (startAdv q b).call (fun q' => ⟨t, .w1 q'⟩) (fun _ b' => .goto ⟨t, .w2 (.b1 (addressWrite t.addr))⟩ b')
  | .w2 q => (byteAdv q b).call (fun q' => ⟨t, .w2 q'⟩) (fun ack b' => .goto (sendNext (afterAddress t ack)) b')
  | .w4 q => (byteAdv q b).call (fun q' => ⟨t, .w4 q'⟩) (fun ack b' => .goto (sendNext (afterPayload t ack)) b')
  | .w6 q => (stopAdv q b).call (fun q' => ⟨t, .w6 q'⟩) (fun _ b' => .ret (sendResult t) b')

/-! ### receive -/

/-- Where a running `receive` stands: its latches and its label. -/
structure RecvRun where
  latches : RecvLatches
  pos : RecvPos
  deriving DecidableEq, Repr

/-- The loop test Q4 (R172): the next byte, or the stop. -/
def recvNext (t : RecvLatches) : RecvRun :=
  if t.i < t.count then ⟨t, .q5⟩ else ⟨t, .q11 .p1⟩

/-- Q3 (R172): the optional exit on an address byte that nobody acknowledged (R214), else the loop. -/
def recvAfterAddress (check : Bool) (t : RecvLatches) (ack : Bool) : RecvRun :=
  if check && ack then ⟨t, .q3 .p1⟩ else recvNext t

/-- The pattern of Q8 (R172): NACK on the final byte, ACK before. -/
def ackOrNack (t : RecvLatches) : Byte := if t.i + 1 = t.count then nackPattern else ackPattern

/-- Q10 (R172). -/
def afterRead (t : RecvLatches) (v : Byte) : RecvLatches := { t with out := t.out ++ [v], i := t.i + 1 }

/-- One micro-operation of `receive` (R172). -/
def recvAdv (t : RecvLatches) (p : RecvPos) (b : Block) : Adv RecvRun Result :=
  match p with
  | .q1 q => (startAdv q b).call (fun q' => ⟨t, .q1 q'⟩) (fun _ b' => .goto ⟨t, .q2 (.b1 (addressRead t.addr))⟩ b')
  | .q2 q => (byteAdv q b).call (fun q' => ⟨t, .q2 q'⟩)
      (fun ack b' => .goto (recvAfterAddress b'.cfg.rxCheckAddrAck t ack) b')
  | .q3 q => (stopAdv q b).call (fun q' => ⟨t, .q3 q'⟩) (fun _ b' => .ret ⟨.malformedReceive, .empty⟩ b')
  | .q5 => .goto ⟨t, .q6 (.x1 .eight)⟩ ({ b with bus := .dataPhase }.setDir .data .input)
  | .q6 x => (xferAdv x b).call (fun x' => ⟨t, .q6 x'⟩) (fun v b' => .goto ⟨t, .q7 v⟩ b')
  | .q7 v => .goto ⟨t, .q8 v⟩ ({ b with bus := .ackPhase }.setDir .data .output)
  | .q8 v => .goto ⟨t, .q9 v (.x1 .one)⟩ (b.loadDR (ackOrNack t))
  | .q9 v x => (xferAdv x b).call (fun x' => ⟨t, .q9 v x'⟩) (fun _ b' => .goto (recvNext (afterRead t v)) b')
  | .q11 q => (stopAdv q b).call (fun q' => ⟨t, .q11 q'⟩) (fun _ b' => .ret ⟨.ok, .bytes t.out⟩ b')

/-! ### The commands of tier 3 -/

/-- The step of a `SEND` command at a label. -/
def sendStep (t : SendLatches) (p : SendPos) (s : State) : Out :=
  s.runListing (sendAdv t p s.blk) (fun r => .send r.latches r.pos) (fun r b => s.finish b r)

/-- The step of a `RECEIVE` command at a label. -/
def recvStep (t : RecvLatches) (p : RecvPos) (s : State) : Out :=
  s.runListing (recvAdv t p s.blk) (fun r => .receive r.latches r.pos) (fun r b => s.finish b r)

/-- The latches of `send` on acceptance (W0). `t_ok` gets its value at W2. -/
def sendLatches (a : Nat) (bytes : List Byte) : SendLatches := ⟨BitVec.ofNat 7 a, bytes, 0, true⟩

/-- The latches of `receive` on acceptance (Q0). -/
def recvLatches (a c : Nat) : RecvLatches := ⟨BitVec.ofNat 7 a, c, 0, []⟩

/-- `SEND a, bytes` (R170, R171). -/
def execSend (a : Nat) (bytes : List Byte) (s : State) : Out :=
  s.issue
    (require (s.blk.bus == .idle) .busy
      (require (decide (a < 128)) .addressRange
        (sendStep (sendLatches a bytes) (.w1 .s1) s)))

/-- `RECEIVE a, c` (R170, R172). -/
def execReceive (a c : Nat) (s : State) : Out :=
  s.issue
    (require (s.blk.bus == .idle) .busy
      (require (decide (a < 128)) .addressRange
        (require (decide (0 < c)) .countZero
          (recvStep (recvLatches a c) (.q1 .s1) s))))

end Sys2Proof.Machine
end

