-- ==== Sys2Proof/Machine/Waits.lean ====
section
/-! DEFINITION. The delay and the poll as commands: `DELAY`, `WAITHIGH` (40_micro_ops.md R130, R131). -/

namespace Sys2Proof.Machine

/-- `DELAY k` (R130). -/
def execDelay (k : DelaySel) (s : State) : Out :=
  s.issue (.next (s.complete (s.blk.delay k) .empty))

/-- The state after one poll of the command `WAITHIGH L` (R131): it completes on a sample of 1, stays at the poll on a sample of 0, or
raises BusTimeout. -/
def waitHighNext (l : Line) (s : State) : State :=
  match s.blk.poll l with
  | .high b => s.complete b .empty
  | .again b => s.goto b (.waitHigh l)
  | .timeout b => s.raiseBusTimeout b l

/-- The step of a `WAITHIGH L` command, its first and every later one. -/
def waitHighStep (l : Line) (s : State) : Out := .next (waitHighNext l s)

/-- `WAITHIGH L` (R131). -/
def execWaitHigh (l : Line) (s : State) : Out :=
  s.issue (waitHighStep l s)

end Sys2Proof.Machine
end

