-- ==== Sys2Proof/Machine/Dispatch.lean ====
section
/-! DEFINITION. One arm per command: accepting it and running its first micro-operation. -/

namespace Sys2Proof.Machine

def exec (i : Instr) (s : State) : Host.Outcome State Fault Refusal :=
  match i with
  | .setHigh l => Sys2Proof.Machine.execSetHigh l s
  | .setLow l => Sys2Proof.Machine.execSetLow l s
  | .readLevel l => Sys2Proof.Machine.execReadLevel l s
  | .setDir l d => Sys2Proof.Machine.execSetDir l d s
  | .loadDR v => Sys2Proof.Machine.execLoadDR v s
  | .readDR => Sys2Proof.Machine.execReadDR s
  | .loadSR cw => Sys2Proof.Machine.execLoadSR cw s
  | .readSR => Sys2Proof.Machine.execReadSR s
  | .strobe => Sys2Proof.Machine.execStrobe s
  | .delay k => Sys2Proof.Machine.execDelay k s
  | .waitHigh l => Sys2Proof.Machine.execWaitHigh l s
  | .start => Sys2Proof.Machine.execStart s
  | .stop => Sys2Proof.Machine.execStop s
  | .sendByte v => Sys2Proof.Machine.execSendByte v s
  | .xfer n cw => Sys2Proof.Machine.execXfer n cw s
  | .send a bytes => Sys2Proof.Machine.execSend a bytes s
  | .receive a c => Sys2Proof.Machine.execReceive a c s

end Sys2Proof.Machine
end

