-- ==== Sys2Proof/Machine/HostSide.lean ====
section
/-! DEFINITION. The host (00_scope.md R6(c), 60_exceptions.md R227): taking the next command from the words it hands over, reading `RESULT`,
polling a line by hand, and the client program `initialize()` and `measure()` (43_host_client.md R190 to R196). The host acts only while
the sequencer waits for a command: it is blocked while one runs. -/

namespace Sys2Proof.Machine

/-! ### Taking a command from the command stream -/

/-- The words the host hands over next. -/
def leadingWords : List HostOp → List Word
  | .word w :: ops => w :: leadingWords ops
  | _ => []

/-- The next command of the stream (30_encoding.md R101, R108) and the host's moves after it. -/
def fetch (ops : List HostOp) : Except Refusal (Instr × List HostOp) :=
  match decode (leadingWords ops) with
  | .ok (i, rest) => .ok (i, ops.drop ((leadingWords ops).length - rest.length))
  | .error .reservedEncoding => .error .reservedEncoding
  | .error .truncatedCommand => .error .truncatedCommand

/-- Issue the next command of the stream. -/
def issueFetched (s : State) : Out :=
  match fetch s.program with
  | .ok (i, rest) => exec i { s with program := rest }
  | .error r => .refused r

/-! ### The client -/

/-- `INITIALIZE`'s command (R192). -/
def initializeCommand (cfg : Config) : Instr := .send cfg.sensorAddr.toNat [cfg.ptrConfig, cfg.cfgHi, cfg.cfgLo]

/-- `MEASURE`'s M1 (R193). -/
def triggerCommand (cfg : Config) : Instr := .send cfg.sensorAddr.toNat [cfg.ptrTrigger]

/-- `MEASURE`'s M3 (R193). -/
def readCommand (cfg : Config) : Instr := .receive cfg.sensorAddr.toNat 4

/-- What `initialize()` returns (R192, R196). -/
def initializeReturn (cfg : Config) (st : Status) : ClientReturn :=
  if cfg.driverSurfacesErrors then .initStatus st else .initialized

/-- The reading from what `receive` gave (R193 M4, M5); a free value when it gave no four bytes (R196). -/
def readingFrom (e : FloatEval) (n : Nat) (v : ResultValue) : Reading :=
  match v with
  | .bytes [b0, b1, b2, b3] => readingOf e b0 b1 b2 b3
  | _ => Config.freeReading n

/-- What `measure()` returns as the client's `n`-th return, with `s1` the status of M1 and `r` the result of M3 (R193, R196). -/
def measureReturn (cfg : Config) (n : Nat) (s1 : Status) (r : Result) : ClientReturn :=
  if cfg.driverSurfacesErrors && s1 != .ok then .measureStatus s1
  else if cfg.driverSurfacesErrors && r.status != .ok then .measureStatus r.status
  else .reading (readingFrom cfg.floatEval n r.value)

/-- A call of the client returns. -/
def State.clientReturns (s : State) (c : ClientReturn) : State :=
  { s with client := .idle, clientLog := s.clientLog ++ [c] }

/-- M2 (R193): the host waits at least `CONVERSION_DELAY` by its own timer. -/
def State.conversionWait (s : State) (s1 : Status) : State :=
  { s with
    blk := { s.blk with time := s.blk.time + s.blk.cfg.conversionDelay + Config.freeHostElapsed s.clientLog.length }
    client := .waited s1 }

/-- The host looks at `RESULT` (R31, R35). -/
def State.withResult (s : State) (k : Result → Out) : Out :=
  match s.result with
  | some r => k r
  | none => .refused .resultBeforeFirstCommand

/-! ### The host's moves -/

/-- The host's next move outside a call (R227). With nothing left to do it leaves the block waiting (R241). -/
def nextMove (s : State) : Out :=
  match s.program with
  | [] => .next s
  | .word _ :: _ => issueFetched s
  | .readResult :: ops => s.withResult fun r => .next { s with program := ops, inbox := s.inbox ++ resultWords r }
  | .poll l :: ops => exec (.readLevel l) { s with program := ops, client := .polling l }
  | .initializeClient :: ops => exec (initializeCommand s.blk.cfg) { s with program := ops, client := .initializing }
  | .measure :: ops => exec (triggerCommand s.blk.cfg) { s with program := ops, client := .triggering }

/-- One move of the host while the sequencer waits for a command. -/
def hostStep (s : State) : Out :=
  match s.client with
  | .idle => nextMove s
  | .polling l => s.withResult fun r =>
      if r.value = .bit true then .next { s with client := .idle } else exec (.readLevel l) s
  | .initializing => s.withResult fun r => .next (s.clientReturns (initializeReturn s.blk.cfg r.status))
  | .triggering => s.withResult fun r => .next (s.conversionWait r.status)
  | .waited s1 => exec (readCommand s.blk.cfg) { s with client := .reading s1 }
  | .reading s1 => s.withResult fun r =>
      .next (s.clientReturns (measureReturn s.blk.cfg s.clientLog.length s1 r))

end Sys2Proof.Machine
end

