-- ==== Sys2Proof/Machine/Sequencer.lean ====
section
/-! DEFINITION. The sequencer (00_scope.md R6(a), 10_state.md R30): the next micro-operation of the running command, and the recovery after
BusTimeout (60_exceptions.md R213). -/

namespace Sys2Proof.Machine

/-- One micro-operation of the recovery (R213). -/
def recoverAdv (p : RecoverPos) (b : Block) : Adv RecoverPos Unit :=
  match p with
  | .r1 => .goto .r2 (b.setDir .clock .output)
  | .r2 => .goto .r3 (b.setDir .data .output)
  | .r3 => .goto .r4 (b.loadDR nackPattern)
  | .r4 => .goto .r5 (b.setHigh .clock)
  | .r5 => .ret () (b.setHigh .data)

/-- The step of the recovery after BusTimeout on line `l` (R213). -/
def recoverStep (p : RecoverPos) (l : Line) (s : State) : Out :=
  s.runListing (recoverAdv p s.blk) (fun q => .recover q l) (fun _ b => s.returnBusTimeout b l)

/-- The next micro-operation of the running command. With no command running the block executes nothing (R241). -/
def seqStep (s : State) : Out :=
  match s.seq with
  | .ready => .next s
  | .waitHigh l => waitHighStep l s
  | .start p => startStep p s
  | .stop p => stopStep p s
  | .sendByte p => sendByteStep p s
  | .xfer p => xferStep p s
  | .send t p => sendStep t p s
  | .receive t p => recvStep t p s
  | .recover p l => recoverStep p l s

end Sys2Proof.Machine
end

