-- ==== Sys2Proof/Machine/Step.lean ====
section
/-! DEFINITION. One step of the machine: the next micro-operation of the running command (00_scope.md R6(a)), or, while the sequencer waits
for a command (10_state.md R30, 70_reset_and_hazards.md R241), the host's next move. -/

namespace Sys2Proof.Machine

/-- One step. -/
def step (s : State) : Host.Outcome State Fault Refusal :=
  match s.seq with
  | .ready => hostStep s
  | _ => seqStep s

/-- `s` with the instruction of an opcode-table row handed over by the host as its next move: the sequencer waits, no client call is
open, and the words are the command stream (log 5). -/
def State.withFetchWord (s : State) (nbits w : Nat) : State :=
  { s with seq := .ready, client := .idle, program := (tableWords nbits w).map .word }

end Sys2Proof.Machine
end

