-- ==== Sys2Proof/Machine/Assembler.lean ====
section
/-! DEFINITION. The assembler syntax of 30_encoding.md R106 and the pseudo-instructions of R107: one line of text to the command, or the
move of the host, that it names. -/

namespace Sys2Proof.Machine

/-- The tokens of a line (R106): a name or number, a comma, a bracket. -/
inductive Token where
  | word (s : String)
  | comma
  | openList
  | closeList
  deriving DecidableEq, Repr

/-- Close the word under way, if any. -/
def flushWord (acc : List Char) (rest : List Token) : List Token :=
  match acc with
  | [] => rest
  | _ => .word (String.ofList acc.reverse) :: rest

/-- The tokens of a line; `;` starts a comment, blanks separate (R106). `acc` holds the word under way, last character first. -/
def tokens : List Char → List Char → List Token
  | [], acc => flushWord acc []
  | c :: cs, acc =>
    if c = ';' then flushWord acc []
    else if c = ' ' ∨ c = '\t' then flushWord acc (tokens cs [])
    else if c = ',' then flushWord acc (.comma :: tokens cs [])
    else if c = '[' then flushWord acc (.openList :: tokens cs [])
    else if c = ']' then flushWord acc (.closeList :: tokens cs [])
    else tokens cs (c :: acc)

/-- The value of a digit, decimal or hexadecimal. -/
def digitValue (c : Char) : Option Nat :=
  let n := c.toNat
  if 48 ≤ n ∧ n ≤ 57 then some (n - 48)
  else if 65 ≤ n ∧ n ≤ 70 then some (n - 55)
  else if 97 ≤ n ∧ n ≤ 102 then some (n - 87)
  else none

/-- A run of digits in a base. -/
def digitsValue (base : Nat) : List Char → Nat → Option Nat
  | [], acc => some acc
  | c :: cs, acc =>
    match digitValue c with
    | some d => if d < base then digitsValue base cs (acc * base + d) else none
    | none => none

/-- A number: decimal, or hexadecimal after `0x` (R106). -/
def numberOf (s : String) : Option Nat :=
  match s.toList with
  | [] => none
  | ['0', 'x'] => none
  | '0' :: 'x' :: cs => digitsValue 16 cs 0
  | cs => digitsValue 10 cs 0

/-- A number that fits a byte. -/
def byteOf (s : String) : Option Byte :=
  match numberOf s with
  | some n => if n < 256 then some (BitVec.ofNat 8 n) else none
  | none => none

/-- A line's name (R106). -/
def lineOf (s : String) : Option Line :=
  match s with
  | "CLOCK" => some .clock
  | "DATA" => some .data
  | _ => none

/-- A direction's name (R106). -/
def dirOf (s : String) : Option Dir :=
  match s with
  | "input" => some .input
  | "output" => some .output
  | _ => none

/-- A delay's name (R106). -/
def delaySelOf (s : String) : Option DelaySel :=
  match s with
  | "T_LOW" => some .tLow
  | "T_HIGH" => some .tHigh
  | "T_SETUP" => some .tSetup
  | _ => none

/-- The rest of a bracketed payload after its first element (R106). -/
def payloadTail : List Token → Option (List Byte)
  | [.closeList] => some []
  | .comma :: .word s :: ts =>
    match byteOf s, payloadTail ts with
    | some b, some bs => some (b :: bs)
    | _, _ => none
  | _ => none

/-- A bracketed payload (R106). -/
def payloadOf : List Token → Option (List Byte)
  | [.closeList] => some []
  | .word s :: ts =>
    match byteOf s, payloadTail ts with
    | some b, some bs => some (b :: bs)
    | _, _ => none
  | _ => none

/-- What a line of text names: a command, or one of the three pseudo-instructions that are moves of the host (R107). -/
inductive AsmLine where
  | command (i : Instr)
  | hostMove (h : HostOp)
  deriving DecidableEq, Repr

/-- A mnemonic without operands. -/
def assemble0 (m : String) : Option AsmLine :=
  match m with
  | "READDR" => some (.command .readDR)
  | "READSR" => some (.command .readSR)
  | "STROBE" => some (.command .strobe)
  | "START" => some (.command .start)
  | "STOP" => some (.command .stop)
  | "ACKPAT" => some (.command .ackPat)
  | "NACKPAT" => some (.command .nackPat)
  | "XFER8" => some (.command .xfer8)
  | "XFER1" => some (.command .xfer1)
  | "INITIALIZE" => some (.hostMove .initializeClient)
  | "MEASURE" => some (.hostMove .measure)
  | _ => none

/-- A mnemonic with one operand. -/
def assemble1 (m x : String) : Option AsmLine :=
  match m with
  | "SETHIGH" => (lineOf x).map fun l => .command (.setHigh l)
  | "SETLOW" => (lineOf x).map fun l => .command (.setLow l)
  | "READLEVEL" => (lineOf x).map fun l => .command (.readLevel l)
  | "WAITHIGH" => (lineOf x).map fun l => .command (.waitHigh l)
  | "RELEASE" => (lineOf x).map fun l => .command (.release l)
  | "DRIVELOW" => (lineOf x).map fun l => .command (.driveLow l)
  | "POLL" => (lineOf x).map fun l => .hostMove (.poll l)
  | "LOADDR" => (byteOf x).map fun v => .command (.loadDR v)
  | "LOADSR" => (byteOf x).map fun v => .command (.loadSR v)
  | "SENDBYTE" => (byteOf x).map fun v => .command (.sendByte v)
  | "DELAY" => (delaySelOf x).map fun k => .command (.delay k)
  | _ => none

/-- A mnemonic with two operands. -/
def assemble2 (m x y : String) : Option AsmLine :=
  match m with
  | "SETDIR" =>
    match lineOf x, dirOf y with
    | some l, some d => some (.command (.setDir l d))
    | _, _ => none
  | "XFER" =>
    match numberOf x, byteOf y with
    | some n, some cw => some (.command (.xfer n cw))
    | _, _ => none
  | "RECEIVE" =>
    match numberOf x, numberOf y with
    | some a, some c => some (.command (.receive a c))
    | _, _ => none
  | _ => none

/-- `SEND a, [..]`. -/
def assembleSend (m x : String) (ts : List Token) : Option AsmLine :=
  match m, numberOf x, payloadOf ts with
  | "SEND", some a, some bytes => some (.command (.send a bytes))
  | _, _, _ => none

/-- One line of text (R106, R107); none when it is not a line of the syntax. -/
def assemble (text : String) : Option AsmLine :=
  match tokens text.toList [] with
  | [.word m] => assemble0 m
  | [.word m, .word x] => assemble1 m x
  | [.word m, .word x, .comma, .word y] => assemble2 m x y
  | .word m :: .word x :: .comma :: .openList :: ts => assembleSend m x ts
  | _ => none

end Sys2Proof.Machine
end

