-- ==== Sys2Proof/Safety.lean ====
section
/-! DEFINITION. The terms in which claims about runs are made: the environment's answers ahead, START, STOP and data bits on
the wire (20_memory.md R77), the bus as a slave follows it and the compliant bus (R64), the polls of the running command (R74), the
control flow of `BusState` (42_transactions.md R173), and the invariant of the machine. -/

namespace Sys2Proof.Machine

/-! ### The environment ahead -/

/-- The environment's answer to the `k`-th micro-operation from here (0 is the coming one). -/
def Block.answerAt (b : Block) (k : Nat) : EnvAnswer :=
  match b.env[k]? with
  | some a => a
  | none => Config.freeAnswer (b.ops + k)

/-- The environment does not hold CLOCK low at any sample of the next `n` micro-operations: no clock stretching. -/
def Block.noStretch (b : Block) (n : Nat) : Prop := ∀ k, k < n → (b.answerAt k).clockLow = false

/-- The environment drives neither line, at the samples of and after each of the next `n` micro-operations: an idle bus. -/
def Block.idleBus (b : Block) (n : Nat) : Prop := ∀ k, k < n → b.answerAt k = ⟨false, false, false, false⟩

/-! ### The wire (R77) -/

/-- Consecutive entries of the line history that are a START condition. -/
def isStartCondition (before after : Levels) : Bool := before == ⟨true, true⟩ && after == ⟨true, false⟩

/-- Consecutive entries that are a STOP condition. -/
def isStopCondition (before after : Levels) : Bool := before == ⟨true, false⟩ && after == ⟨true, true⟩

/-- The data bit of an entry: DATA where CLOCK is 1 and was 0 in the entry before. -/
def dataBit (before after : Levels) : Option Bool :=
  if !before.clock && after.clock then some after.data else none

/-- The data bits of the entries `l` of a line history, the entry before them being `before`. -/
def dataBits (before : Levels) : List Levels → List Bool
  | [] => []
  | a :: l => (dataBit before a).toList ++ dataBits a l

/-! ### Where the running command stands -/

/-- The innermost `transfer` that runs. -/
def BytePos.transfer : BytePos → Option XferPos
  | .b2 x => some x
  | .b4 x => some x
  | .b1 _ => none
  | .b3 => none
  | .b5 _ => none
  | .b6 _ => none

/-- The innermost `transfer` that runs. -/
def Seq.transfer : Seq → Option XferPos
  | .xfer x => some x
  | .sendByte p => p.transfer
  | .send _ (.w2 p) => p.transfer
  | .send _ (.w4 p) => p.transfer
  | .receive _ (.q2 p) => p.transfer
  | .receive _ (.q6 x) => some x
  | .receive _ (.q9 _ x) => some x
  | _ => none

/-- The transfer has seen CLOCK high and its falling strobe is to come (labels X5 and X6). -/
def Seq.awaitsFall (q : Seq) : Bool :=
  match q.transfer with
  | some (.x5 _) => true
  | some (.x6 _) => true
  | _ => false

/-- A `WAITHIGH` step of `transfer`: the line it polls and the label after it (X4). -/
def XferPos.poll : XferPos → Option (Line × XferPos)
  | .x4 c => some (.clock, .x5 c)
  | _ => none

/-- A `WAITHIGH` step of `generateStart` (S2). -/
def StartPos.poll : StartPos → Option (Line × StartPos)
  | .s2 => some (.clock, .s3)
  | _ => none

/-- A `WAITHIGH` step of `generateStop` (P3, P6). -/
def StopPos.poll : StopPos → Option (Line × StopPos)
  | .p3 => some (.clock, .p4)
  | .p6 => some (.data, .p7)
  | _ => none

/-- A `WAITHIGH` step of `sendByte` (inside its transfers). -/
def BytePos.poll : BytePos → Option (Line × BytePos)
  | .b2 x => x.poll.map fun y => (y.1, .b2 y.2)
  | .b4 x => x.poll.map fun y => (y.1, .b4 y.2)
  | _ => none

/-- A `WAITHIGH` step inside a listing (R74): the line it polls, and the position after a sample of 1. -/
def Seq.poll : Seq → Option (Line × Seq)
  | .start p => p.poll.map fun y => (y.1, .start y.2)
  | .stop p => p.poll.map fun y => (y.1, .stop y.2)
  | .sendByte p => p.poll.map fun y => (y.1, .sendByte y.2)
  | .xfer x => x.poll.map fun y => (y.1, .xfer y.2)
  | .send t (.w1 p) => p.poll.map fun y => (y.1, .send t (.w1 y.2))
  | .send t (.w2 p) => p.poll.map fun y => (y.1, .send t (.w2 y.2))
  | .send t (.w4 p) => p.poll.map fun y => (y.1, .send t (.w4 y.2))
  | .send t (.w6 p) => p.poll.map fun y => (y.1, .send t (.w6 y.2))
  | .receive t (.q1 p) => p.poll.map fun y => (y.1, .receive t (.q1 y.2))
  | .receive t (.q2 p) => p.poll.map fun y => (y.1, .receive t (.q2 y.2))
  | .receive t (.q3 p) => p.poll.map fun y => (y.1, .receive t (.q3 y.2))
  | .receive t (.q6 x) => x.poll.map fun y => (y.1, .receive t (.q6 y.2))
  | .receive t (.q9 v x) => x.poll.map fun y => (y.1, .receive t (.q9 v y.2))
  | .receive t (.q11 p) => p.poll.map fun y => (y.1, .receive t (.q11 y.2))
  | _ => none

/-- The line the running command polls: at a `WAITHIGH` step of a listing, or as the command `WAITHIGH` itself. -/
def Seq.awaited (q : Seq) : Option Line :=
  match q with
  | .waitHigh l => some l
  | q => q.poll.map fun y => y.1

/-- The labels at which the master makes its START (S4) or its STOP (P5) on the wire. -/
def Seq.makesCondition : Seq → Bool
  | .start .s4 => true
  | .stop .p5 => true
  | .send _ (.w1 .s4) => true
  | .send _ (.w6 .p5) => true
  | .receive _ (.q1 .s4) => true
  | .receive _ (.q3 .p5) => true
  | .receive _ (.q11 .p5) => true
  | _ => false

/-- A listing of tier 2 or 3 is running. -/
def Seq.inListing : Seq → Bool
  | .ready => false
  | .waitHigh _ => false
  | .start _ => true
  | .stop _ => true
  | .sendByte _ => true
  | .xfer _ => true
  | .send _ _ => true
  | .receive _ _ => true
  | .recover _ _ => false

/-- A transaction is running (not its recovery after a timeout). -/
def Seq.inTransaction : Seq → Bool
  | .send _ _ => true
  | .receive _ _ => true
  | _ => false

/-! ### The bus as a slave follows it (R68, R69, R77) -/

/-- Whose byte a frame of the bus carries. -/
inductive Frame where
  /-- The address byte, right after a START. -/
  | address
  /-- A byte the master sends to slave `a`. -/
  | written (a : BitVec 7)
  /-- A byte slave `a` sends. -/
  | read (a : BitVec 7)
  deriving DecidableEq, Repr, Inhabited

/-- Where a slave that listens stands. -/
inductive Listening where
  /-- No START since the last STOP. -/
  | idle
  /-- A START, and CLOCK has not fallen since. -/
  | started
  /-- In the clock cycle after the cycles that carried `bits`, the ninth being the acknowledgment bit. -/
  | bit (f : Frame) (bits : List Bool)
  /-- After the master's NACK of a read byte: the slave has no more bits. -/
  | ended
  deriving DecidableEq, Repr, Inhabited

/-- The byte of eight bits, the first in bit 7 (R65). -/
def wireByte (bits : List Bool) : Byte := bits.foldl shiftIn 0#8

/-- The address an address byte holds (R91). -/
def wireAddress (bits : List Bool) : BitVec 7 := (wireByte bits).extractLsb' 1 7

/-- After the acknowledgment bit of a frame (R69): a read goes on while the master acknowledges. -/
def Frame.next (f : Frame) (bits : List Bool) (ack : Bool) : Listening :=
  match f with
  | .address => if (wireByte bits).getLsbD 0 then .bit (.read (wireAddress bits)) [] else .bit (.written (wireAddress bits)) []
  | .written a => .bit (.written a) []
  | .read a => if ack then .ended else .bit (.read a) []

/-- CLOCK falls at the end of a cycle in which DATA was `d`. -/
def Listening.clockFalls (w : Listening) (d : Bool) : Listening :=
  match w with
  | .idle => .idle
  | .started => .bit .address []
  | .bit f bits => if bits.length = 8 then f.next bits d else .bit f (bits ++ [d])
  | .ended => .ended

/-- A change of the lines. -/
def Listening.follow (w : Listening) (before after : Levels) : Listening :=
  if isStartCondition before after then .started
  else if isStopCondition before after then .idle
  else if before.clock && !after.clock then w.clockFalls before.data
  else w

/-- Whose bit the present one is, where it is a slave's acknowledgment bit or read-data bit (R68, R69). -/
def Listening.slaveBit (w : Listening) : Option (BitVec 7) :=
  match w with
  | .idle => none
  | .started => none
  | .bit .address bits => if bits.length = 8 then some (wireAddress bits) else none
  | .bit (.written a) bits => if bits.length = 8 then some a else none
  | .bit (.read a) bits => if bits.length = 8 then none else some a
  | .ended => none

/-! ### The compliant bus (R64)

The lines are seen at two instants of each micro-operation: its samples and just after it. -/

/-- The levels of both lines under the master's drive in `b` and the environment's drive of each line. -/
def Block.levelsWith (b : Block) (clockLow dataLow : Bool) : Levels := ⟨b.level .clock clockLow, b.level .data dataLow⟩

/-- What the environment did last and where its slaves stand. -/
structure BusWatch where
  last : EnvAnswer
  listening : Listening
  deriving DecidableEq, Repr, Inhabited

/-- Where the slaves stand at the samples of the coming micro-operation. -/
def BusWatch.atSample (v : BusWatch) (b : Block) : Listening :=
  v.listening.follow (b.levelsWith v.last.clockLowAfter v.last.dataLowAfter) (b.levelsWith b.answer.clockLow b.answer.dataLow)

/-- The watch after the micro-operation from `b` to `c`. -/
def BusWatch.after (v : BusWatch) (b c : Block) : BusWatch where
  last := b.answer
  listening := (v.atSample b).follow (b.levelsWith b.answer.clockLow b.answer.dataLow)
    (c.levelsWith b.answer.clockLowAfter b.answer.dataLowAfter)

/-- Item (d) of R64: DATA is held low only in a bit that is the acknowledgment or read-data bit of one of the bus's slaves. -/
def OwnBit (slaves : List (BitVec 7)) (w : Listening) : Prop := ∃ a ∈ slaves, w.slaveBit = some a

/-- R64 at the instant of the coming micro-operation's samples. (b), (c): while CLOCK is high no device begins to hold it low or changes
its drive of DATA. (d): see `OwnBit`. Item (a) follows from (c): a condition is a change of DATA while CLOCK is high. -/
def SampleComplies (slaves : List (BitVec 7)) (v : BusWatch) (b : Block) : Prop :=
  (b.level .clock v.last.clockLowAfter = true → b.answer.clockLow = false ∧ b.answer.dataLow = v.last.dataLowAfter) ∧
  (b.answer.dataLow = true → OwnBit slaves (v.atSample b))

/-- R64 across a micro-operation from `b` to `c`: (b), (c), unless the master drives CLOCK low in it, and (d). -/
def AfterComplies (slaves : List (BitVec 7)) (v : BusWatch) (b c : Block) : Prop :=
  (b.sample .clock = true → c.drivesClockLow = false →
    b.answer.clockLowAfter = false ∧ b.answer.dataLowAfter = b.answer.dataLow) ∧
  (b.answer.dataLowAfter = true → OwnBit slaves (v.after b c).listening)

/-- The environment, with slaves at the addresses `slaves`, complies for the next `n` steps of the machine. A step that is no
micro-operation (a move of the host) uses no answer. -/
def CompliantFor (slaves : List (BitVec 7)) : Nat → BusWatch → State → Prop
  | 0, _, _ => True
  | n + 1, v, s =>
    SampleComplies slaves v s.blk ∧
    ∀ t, step s = .next t →
      (t.blk.ops = s.blk.ops → CompliantFor slaves n v t) ∧
      (t.blk.ops ≠ s.blk.ops → AfterComplies slaves v s.blk t.blk ∧ CompliantFor slaves n (v.after s.blk t.blk) t)

/-- `CompliantBus` (R64), from a state on, with the watch `v` so far (`⟨default, .idle⟩` on a bus that has been idle). -/
def CompliantBus (slaves : List (BitVec 7)) (v : BusWatch) (s : State) : Prop := ∀ n, CompliantFor slaves n v s

/-! ### The protocol state machine (R173) -/

/-- The transitions of `BusState` in listings: those of R173, and `Start → Stop` of a tier-2 `START; STOP` (R155). -/
def busTransition (a b : BusState) : Prop :=
  a = b ∨ (a = .idle ∧ b = .start) ∨ (a = .start ∧ b = .addressPhase) ∨ (a = .addressPhase ∧ b = .ackPhase) ∨
  (a = .dataPhase ∧ b = .ackPhase) ∨ (a = .ackPhase ∧ b = .dataPhase) ∨ (a = .ackPhase ∧ b = .stop) ∨
  (a = .start ∧ b = .stop) ∨ (a = .stop ∧ b = .idle)

/-! ### The invariant

What holds in every state a run from construction reaches: which pins, latches and counts go with which label. -/

/-- The master drives CLOCK low. -/
def ClockLow (b : Block) : Prop := b.dirClock = .output ∧ b.latchClock = false

/-- The master has released CLOCK, in output direction. -/
def ClockReleased (b : Block) : Prop := b.dirClock = .output ∧ b.latchClock = true

/-- Both directions are `output`. -/
def PinsOutput (b : Block) : Prop := b.dirClock = .output ∧ b.dirData = .output

/-- The status register as a completed transfer leaves it (R151, R94). -/
def TransferDone (b : Block) : Prop := b.cnt = 0#4 ∧ b.done = true

/-- `BusState` and `after_start` during a transfer (R29, R151 X0). -/
def TransferPhase (w : Width) (b : Block) : Prop :=
  match w with
  | .eight => b.bus = bytePhase b.afterStart
  | .one => b.bus = .ackPhase ∧ b.afterStart = false

/-- The counts with CLOCK low before a rising strobe. -/
def CountLow (w : Width) (cnt : BitVec 4) : Prop :=
  match w with
  | .eight => cnt.getLsbD 0 = false
  | .one => cnt = 14#4

/-- The counts between a rising and a falling strobe. -/
def CountHigh (w : Width) (cnt : BitVec 4) : Prop :=
  match w with
  | .eight => cnt.getLsbD 0 = true
  | .one => cnt = 15#4

/-- The counts at the loop test. -/
def CountTest (w : Width) (cnt : BitVec 4) : Prop :=
  match w with
  | .eight => cnt.getLsbD 0 = false
  | .one => cnt = 0#4

/-- A running transfer of width `w`. -/
def XferInv (w : Width) (x : XferPos) (b : Block) : Prop :=
  TransferPhase w b ∧
  match x with
  | .x1 w' => w' = w ∧ ClockLow b
  | .x2 c => c.width = w ∧ ClockLow b ∧ b.done = false ∧ CountLow w b.cnt
  | .x3 c => c.width = w ∧ ClockLow b ∧ b.done = false ∧ CountLow w b.cnt
  | .x4 c => c.width = w ∧ ClockReleased b ∧ b.done = false ∧ CountHigh w b.cnt
  | .x5 c => c.width = w ∧ ClockReleased b ∧ b.done = false ∧ CountHigh w b.cnt
  | .x6 c => c.width = w ∧ ClockReleased b ∧ b.done = false ∧ CountHigh w b.cnt
  | .x7 c => c.width = w ∧ ClockLow b ∧ (b.done = true ↔ b.cnt = 0#4) ∧ CountTest w b.cnt

/-- A running `generateStart`. Label S1 is never stored: it runs in the step that accepts the command. -/
def StartInv (p : StartPos) (b : Block) : Prop :=
  PinsOutput b ∧ b.bus = .start ∧ b.afterStart = false ∧
  match p with
  | .s1 => False
  | .s2 => b.latchClock = true
  | .s3 => b.latchClock = true
  | .s4 => b.latchClock = true
  | .s5 => b.latchClock = true ∧ b.latchData = false
  | .s6 => b.latchClock = true ∧ b.latchData = false
  | .s7 => b.latchClock = false ∧ b.latchData = false

/-- A running `generateStop`. -/
def StopInv (p : StopPos) (b : Block) : Prop :=
  PinsOutput b ∧
  match p with
  | .p1 => b.latchClock = false ∧ b.bus = .ackPhase
  | .p2 => b.latchClock = false ∧ b.latchData = false ∧ b.bus = .stop
  | .p3 => b.latchClock = true ∧ b.latchData = false ∧ b.bus = .stop
  | .p4 => b.latchClock = true ∧ b.latchData = false ∧ b.bus = .stop
  | .p5 => b.latchClock = true ∧ b.latchData = false ∧ b.bus = .stop
  | .p6 => b.latchClock = true ∧ b.latchData = true ∧ b.bus = .stop
  | .p7 => b.latchClock = true ∧ b.latchData = true ∧ b.bus = .stop

/-- A running `sendByte`. -/
def ByteInv (p : BytePos) (b : Block) : Prop :=
  match p with
  | .b1 _ => ClockLow b ∧ ((b.bus = .start ∧ b.afterStart = true) ∨ (b.bus = .ackPhase ∧ b.afterStart = false))
  | .b2 x => XferInv .eight x b
  | .b3 => ClockLow b ∧ b.bus = bytePhase b.afterStart ∧ TransferDone b
  | .b4 x => XferInv .one x b ∧ b.dirData = .input
  | .b5 _ => ClockLow b ∧ b.dirData = .input ∧ b.bus = .ackPhase ∧ b.afterStart = false ∧ TransferDone b
  | .b6 _ => ClockLow b ∧ b.dirData = .input ∧ b.bus = .ackPhase ∧ b.afterStart = false ∧ TransferDone b ∧ b.dr = 0xFF#8

/-- The direction of DATA while `sendByte` still sends (until B3). -/
def SendingPins (p : BytePos) (b : Block) : Prop :=
  b.latchData = true ∧
  match p with
  | .b1 _ => b.dirData = .output
  | .b2 _ => b.dirData = .output
  | .b3 => b.dirData = .output
  | .b4 _ => True
  | .b5 _ => True
  | .b6 _ => True

/-- The end of a transaction: its stop runs with the status register of a completed transfer and DATA released by `DR[7]` (R36). -/
def EndingTransaction (b : Block) : Prop := TransferDone b ∧ b.afterStart = false

/-- The bits of `DR` around the master's acknowledgment bit in `receive` (R95, R172 Q9): the pattern, then the pattern shifted. -/
def PatternInv (t : RecvLatches) (x : XferPos) (b : Block) : Prop :=
  match x with
  | .x1 _ => b.dr = ackOrNack t
  | .x2 _ => b.dr = ackOrNack t
  | .x3 _ => b.dr = ackOrNack t
  | .x4 _ => b.dr = ackOrNack t
  | .x5 _ => b.dr = ackOrNack t
  | .x6 _ => b.dr = ackOrNack t
  | .x7 _ => b.dr.extractLsb' 1 7 = (ackOrNack t).extractLsb' 0 7

/-- A running `send`. -/
def SendInv (t : SendLatches) (p : SendPos) (b : Block) : Prop :=
  match p with
  | .w1 q => StartInv q b ∧ t.i = 0
  | .w2 q => ByteInv q b ∧ SendingPins q b ∧ t.i = 0
  | .w4 q => ByteInv q b ∧ SendingPins q b ∧ t.ok = true ∧ t.i < t.bytes.length
  | .w6 q => StopInv q b ∧ EndingTransaction b ∧ b.dr = 0xFF#8 ∧ t.i ≤ t.bytes.length

/-- A running `receive`. -/
def RecvInv (t : RecvLatches) (p : RecvPos) (b : Block) : Prop :=
  0 < t.count ∧ t.out.length = t.i ∧
  match p with
  | .q1 q => StartInv q b ∧ t.i = 0
  | .q2 q => ByteInv q b ∧ SendingPins q b ∧ t.i = 0
  | .q3 q => StopInv q b ∧ EndingTransaction b ∧ b.dr = 0xFF#8 ∧ t.i = 0
  | .q5 => ClockLow b ∧ b.dirData = .output ∧ b.latchData = true ∧ b.bus = .ackPhase ∧ b.afterStart = false ∧ t.i < t.count
  | .q6 x => XferInv .eight x b ∧ b.dirData = .input ∧ b.latchData = true ∧ b.afterStart = false ∧ t.i < t.count
  | .q7 v => ClockLow b ∧ b.dirData = .input ∧ b.latchData = true ∧ b.bus = .dataPhase ∧ b.afterStart = false ∧ b.dr = v ∧ t.i < t.count
  | .q8 _ => ClockLow b ∧ b.dirData = .output ∧ b.latchData = true ∧ b.bus = .ackPhase ∧ b.afterStart = false ∧ t.i < t.count
  | .q9 _ x => XferInv .one x b ∧ b.dirData = .output ∧ b.latchData = true ∧ PatternInv t x b ∧ t.i < t.count
  | .q11 q => StopInv q b ∧ EndingTransaction b ∧ b.dr.extractLsb' 1 7 = 0x7F#7 ∧ t.i = t.count

/-- The recovery after BusTimeout (R213): what its steps so far have set. -/
def RecoverInv (p : RecoverPos) (b : Block) : Prop :=
  match p with
  | .r1 => True
  | .r2 => b.dirClock = .output
  | .r3 => PinsOutput b
  | .r4 => PinsOutput b ∧ b.dr = 0xFF#8
  | .r5 => PinsOutput b ∧ b.dr = 0xFF#8 ∧ b.latchClock = true

/-- Between commands (R155, R173): never in `Stop`, and `after_start` holds exactly from a start to the address byte. -/
def ReadyInv (b : Block) : Prop :=
  b.bus ≠ .stop ∧ (b.afterStart = true ↔ b.bus = .start ∨ b.bus = .addressPhase)

/-- The sequencer is at a step that may leave `poll_n` above 0. -/
def Seq.mayCount (q : Seq) : Bool :=
  match q with
  | .waitHigh _ => true
  | .recover _ _ => true
  | q => q.poll.isSome

/-- `poll_n` (R131): 0 except at a poll or in the recovery, and below a finite limit. Under an infinite limit it is 0 by log 7. -/
def PollInv (s : State) : Prop :=
  (s.seq.mayCount = false → s.blk.pollN = 0) ∧
  (s.blk.pollN = 0 ∨ ∃ limit, s.blk.cfg.pollLimit = some limit ∧ s.blk.pollN < limit)

/-- What the registers owe to the sequencer position. -/
def PositionInv (q : Seq) (b : Block) : Prop :=
  match q with
  | .ready => ReadyInv b
  | .waitHigh _ => ReadyInv b
  | .start p => StartInv p b
  | .stop p => StopInv p b ∧ p ≠ .p1
  | .sendByte p => ByteInv p b
  | .xfer x => ∃ w, XferInv w x b
  | .send t p => SendInv t p b
  | .receive t p => RecvInv t p b
  | .recover p _ => RecoverInv p b

/-- The invariant of the machine. -/
def Inv (s : State) : Prop := PositionInv s.seq s.blk ∧ PollInv s

end Sys2Proof.Machine
end

