-- ==== Sys2Proof/Certificates/Slice0/Obligations.lean ====
section
/-! DEFINITION. The statements for the provers, and the few words they are made with. -/

namespace Sys2Proof.Claims

open Sys2Proof Sys2Proof.Machine

/-- `n` steps of the machine. -/
def runs (n : Nat) (s : State) : Out := Host.Core.run Sys2Proof.core n s

/-- The host's side is as it was: a command takes nothing from the command stream and returns nothing to the client by itself. -/
def SameHost (s t : State) : Prop :=
  t.program = s.program ∧ t.client = s.client ∧ t.clientLog = s.clientLog ∧ t.inbox = s.inbox

/-- The command has ended with status 0 and a value, and the sequencer waits for the next. -/
def Completed (s t : State) (v : ResultValue) : Prop :=
  t.seq = .ready ∧ t.result = some ⟨.ok, v⟩ ∧ SameHost s t

/-- Directions and latches unchanged. -/
def SamePins (b c : Block) : Prop :=
  c.dirClock = b.dirClock ∧ c.dirData = b.dirData ∧ c.latchClock = b.latchClock ∧ c.latchData = b.latchData

/-- `DR` and `SR` unchanged. -/
def SameShift (b c : Block) : Prop := c.dr = b.dr ∧ c.cnt = b.cnt ∧ c.done = b.done

/-- `BusState`, `after_start` and `poll_n` unchanged. -/
def SamePhase (b c : Block) : Prop := c.bus = b.bus ∧ c.afterStart = b.afterStart ∧ c.pollN = b.pollN

/-- `n` micro-operations have used `n` answers of the environment, added `n` entries to the line history, taken at least `d` microseconds,
and changed no parameter. The answers as a list, the counter and the clock are the model's own (log 2, log 9). -/
def Elapsed (n d : Nat) (b c : Block) : Prop :=
  c.cfg = b.cfg ∧ c.env = b.env.drop n ∧ c.ops = b.ops + n ∧ b.time + d ≤ c.time ∧
  ∃ h : List Levels, h.length = n ∧ c.lineHist = b.lineHist ++ h

/-- One micro-operation: the new entry of the line history is the level of each line as the new registers and the environment's answer
give it (R12, R63); no parameter (R7) and no event of the primitive history changes. -/
def OneMicroOp (b c : Block) : Prop :=
  c.cfg = b.cfg ∧ c.primHist = b.primHist ∧
  c.lineHist = b.lineHist ++ [⟨c.level .clock b.answer.clockLowAfter, c.level .data b.answer.dataLowAfter⟩]

/-- Where nothing else holds DATA low, the micro-operation from `b` to `c` makes a START condition if both lines are high before it (R77). -/
def MakesStart (b c : Block) : Prop :=
  ∀ e, b.level .clock e = true → b.level .data false = true →
    isStartCondition ⟨b.level .clock e, b.level .data false⟩ ⟨c.level .clock e, c.level .data false⟩ = true

/-- Where nothing else holds DATA low, the micro-operation from `b` to `c` makes a STOP condition if CLOCK is high and DATA low before it
(R77). -/
def MakesStop (b c : Block) : Prop :=
  ∀ e, b.level .clock e = true → b.level .data false = false →
    isStopCondition ⟨b.level .clock e, b.level .data false⟩ ⟨c.level .clock e, c.level .data false⟩ = true

/-- The bit of a command word that names a line (R97, R98). -/
def lineBit : Line → Word
  | .clock => 0x00000000#32
  | .data => 0x00010000#32

/-- The level DATA shows to the sample of cycle `k` of an 8-bit transfer begun at `b` (R62, R63, R65): the master's bit `7 - k`, where it
drives DATA, and the environment's answer to micro-operation `j`. -/
def sampledBit (b : Block) (k j : Nat) : Bool :=
  !((b.dirData == .output && (!b.latchData || !b.dr.getLsbD (7 - k))) || (b.answerAt j).dataLow)

/-- `T` of R260: the shortest clock cycle. -/
def cycle (cfg : Config) : Nat := cfg.tLow + cfg.tHigh

/-- The shortest transaction of `n` frames (R260). -/
def frames (cfg : Config) (n : Nat) : Nat := cfg.tSetup + cfg.tHigh + 9 * n * cycle cfg + cfg.tHigh + cfg.tLow

/-- The commands of tier 1 (R98). -/
def isMicro : Instr → Bool
  | .setHigh _ => true
  | .setLow _ => true
  | .readLevel _ => true
  | .setDir _ _ => true
  | .loadDR _ => true
  | .readDR => true
  | .loadSR _ => true
  | .readSR => true
  | .strobe => true
  | .delay _ => true
  | .waitHigh _ => true
  | .start => false
  | .stop => false
  | .sendByte _ => false
  | .xfer _ _ => false
  | .send _ _ => false
  | .receive _ _ => false

/-- The frames of bytes that were sent and acknowledged, in the primitive history (R12). -/
def ackedFrames (l : List Byte) : List PrimEvent := l.flatMap fun v => [.byteOut v, .ackBit false]

/-- The state after a transaction that ran to its stop, but for `DR` (10_state.md R36). -/
def AfterTransaction (c : Block) : Prop :=
  c.dirClock = .output ∧ c.dirData = .output ∧ c.latchClock = true ∧ c.latchData = true ∧ c.cnt = 0#4 ∧ c.done = true ∧
  c.bus = .idle ∧ c.afterStart = false ∧ c.pollN = 0

/-- `n` micro-operations after `s`, the command has ended in BusTimeout on `l` (R213): status 2 and the line, both lines outputs and
released, `SR` as it was. -/
def TimedOut (n : Nat) (l : Line) (s t : State) : Prop :=
  t.seq = .ready ∧ t.result = some ⟨.busTimeout, .line l⟩ ∧ SameHost s t ∧
  t.blk.dirClock = .output ∧ t.blk.dirData = .output ∧ t.blk.latchClock = true ∧ t.blk.latchData = true ∧
  t.blk.dr = 0xFF#8 ∧ t.blk.cnt = s.blk.cnt ∧ t.blk.done = s.blk.done ∧
  t.blk.bus = .idle ∧ t.blk.afterStart = false ∧ t.blk.pollN = 0 ∧ t.blk.primHist = s.blk.primHist ∧ Elapsed n 0 s.blk t.blk

/-- `b` and `c` agree in every register but `DR[0]` and `poll_n`. -/
def SameButTheSample (b c : Block) : Prop :=
  SamePins b c ∧ c.cnt = b.cnt ∧ c.done = b.done ∧ c.bus = b.bus ∧ c.afterStart = b.afterStart ∧
  ∀ i, 0 < i → c.dr.getLsbD i = b.dr.getLsbD i

/-- A transaction can be issued: the sequencer waits, the bus state is `Idle`, both lines are outputs (R170, R152). -/
def CanTransact (s : State) : Prop :=
  s.seq = .ready ∧ s.blk.bus = .idle ∧ PinsOutput s.blk

end Sys2Proof.Claims

section

open Sys2Proof Sys2Proof.Machine Sys2Proof.Claims

/-! ### Tier 1 of the command set: the micro-operations (40_micro_ops.md) -/

/-- R121. -/
def Obligations.SetHighReleasesTheLatch : Prop :=
  ∀ (l : Line) (s : State), s.seq = .ready →
    encode (.setHigh l) = [0x10000000#32 + lineBit l] ∧
    ∃ t, exec (.setHigh l) s = .next t ∧ Completed s t .empty ∧ OneMicroOp s.blk t.blk ∧
      t.blk.latch l = true ∧ (∀ m, m ≠ l → t.blk.latch m = s.blk.latch m) ∧ (∀ m, t.blk.dir m = s.blk.dir m) ∧
      SameShift s.blk t.blk ∧ SamePhase s.blk t.blk ∧
      (l = .clock → t.blk.drivesLow .clock = false) ∧
      (l = .data → (t.blk.drivesLow .data = true ↔ s.blk.dirData = .output ∧ s.blk.dr.getLsbD 7 = false)) ∧
      (s.blk.dir l = .input → t.blk.drivesLow l = s.blk.drivesLow l) ∧
      (l = .data → s.blk.dr.getLsbD 7 = true → MakesStop s.blk t.blk)

/-- R122. -/
def Obligations.SetLowDrivesTheLatch : Prop :=
  ∀ (l : Line) (s : State), s.seq = .ready →
    encode (.setLow l) = [0x11000000#32 + lineBit l] ∧
    ∃ t, exec (.setLow l) s = .next t ∧ Completed s t .empty ∧ OneMicroOp s.blk t.blk ∧
      t.blk.latch l = false ∧ (∀ m, m ≠ l → t.blk.latch m = s.blk.latch m) ∧ (∀ m, t.blk.dir m = s.blk.dir m) ∧
      SameShift s.blk t.blk ∧ SamePhase s.blk t.blk ∧
      (s.blk.dir l = .output → t.blk.drivesLow l = true) ∧
      (s.blk.dir l = .input → t.blk.drivesLow l = false) ∧
      (l = .data → s.blk.dirData = .output → MakesStart s.blk t.blk)

/-- R123: one sample of the physical level, whatever the direction; 0 while the master drives the line low. -/
def Obligations.ReadLevelReturnsThePhysicalLevel : Prop :=
  ∀ (l : Line) (s : State), s.seq = .ready →
    encode (.readLevel l) = [0x12000000#32 + lineBit l] ∧
    ∃ t v, exec (.readLevel l) s = .next t ∧ Completed s t (.bit v) ∧ OneMicroOp s.blk t.blk ∧
      SamePins s.blk t.blk ∧ SameShift s.blk t.blk ∧ SamePhase s.blk t.blk ∧
      (v = true ↔ s.blk.drivesLow l = false ∧ envLow (s.blk.answerAt 0) l = false)

/-- R124. -/
def Obligations.SetDirWritesTheDirection : Prop :=
  ∀ (l : Line) (d : Dir) (s : State), s.seq = .ready →
    encode (.setDir l d) = [0x13000000#32 + lineBit l + (match d with | .input => 0#32 | .output => 1#32)] ∧
    ∃ t, exec (.setDir l d) s = .next t ∧ Completed s t .empty ∧ OneMicroOp s.blk t.blk ∧
      t.blk.dir l = d ∧ (∀ m, m ≠ l → t.blk.dir m = s.blk.dir m) ∧ (∀ m, t.blk.latch m = s.blk.latch m) ∧
      SameShift s.blk t.blk ∧ SamePhase s.blk t.blk ∧
      (d = .input → t.blk.drivesLow l = false) ∧
      (d = .output → (t.blk.drivesLow l = true ↔ s.blk.latch l = false ∨ (l = .data ∧ s.blk.dr.getLsbD 7 = false))) ∧
      (l = .data → d = .output → s.blk.latchData = false ∨ s.blk.dr.getLsbD 7 = false → MakesStart s.blk t.blk)

/-- R125. -/
def Obligations.LoadDRWritesTheDataRegister : Prop :=
  ∀ (v : Byte) (s : State), s.seq = .ready →
    encode (.loadDR v) = [0x14000000#32 + v.setWidth 32] ∧
    ∃ t, exec (.loadDR v) s = .next t ∧ Completed s t .empty ∧ OneMicroOp s.blk t.blk ∧
      t.blk.dr = v ∧ t.blk.cnt = s.blk.cnt ∧ t.blk.done = s.blk.done ∧ SamePins s.blk t.blk ∧ SamePhase s.blk t.blk ∧
      (s.blk.dirData = .output → s.blk.latchData = true → (t.blk.drivesLow .data = true ↔ v.getLsbD 7 = false)) ∧
      (s.blk.dirData = .input → t.blk.drivesLow .data = s.blk.drivesLow .data) ∧
      (s.blk.dirData = .output → v.getLsbD 7 = false → MakesStart s.blk t.blk)

/-- R126. -/
def Obligations.ReadDRReturnsTheDataRegister : Prop :=
  ∀ s : State, s.seq = .ready →
    encode .readDR = [0x15000000#32] ∧
    ∃ t, exec .readDR s = .next t ∧ Completed s t (.byte s.blk.dr) ∧ OneMicroOp s.blk t.blk ∧
      SamePins s.blk t.blk ∧ SameShift s.blk t.blk ∧ SamePhase s.blk t.blk

/-- R127: `CNT` takes the low nibble; bit 6 clears `DONE`; the other bits are ignored. -/
def Obligations.LoadSRPreloadsTheCount : Prop :=
  ∀ (cw : Byte) (s : State), s.seq = .ready →
    encode (.loadSR cw) = [0x16000000#32 + cw.setWidth 32] ∧
    ∃ t, exec (.loadSR cw) s = .next t ∧ Completed s t .empty ∧ OneMicroOp s.blk t.blk ∧
      t.blk.cnt.toNat = cw.toNat % 16 ∧
      (cw.getLsbD 6 = true → t.blk.done = false) ∧ (cw.getLsbD 6 = false → t.blk.done = s.blk.done) ∧
      t.blk.dr = s.blk.dr ∧ SamePins s.blk t.blk ∧ SamePhase s.blk t.blk

/-- R128, with the layout of R25: bit 6 is `DONE`, bits 3 to 0 `CNT`, bits 7, 5 and 4 read 0. -/
def Obligations.ReadSRReturnsTheStatusRegister : Prop :=
  ∀ s : State, s.seq = .ready →
    encode .readSR = [0x17000000#32] ∧
    ∃ t v, exec .readSR s = .next t ∧ Completed s t (.byte v) ∧ OneMicroOp s.blk t.blk ∧
      SamePins s.blk t.blk ∧ SameShift s.blk t.blk ∧ SamePhase s.blk t.blk ∧
      v.toNat = (if s.blk.done then 64 else 0) + s.blk.cnt.toNat

/-- R129, R26: which edge a strobe is, what it counts, when it samples and shifts, and when the model refuses it. -/
def Obligations.StrobeAdvancesOneEdge : Prop :=
  ∀ s : State, s.seq = .ready →
    (s.blk.latchClock = true → (s.blk.drivesLow .clock = true ∨ (s.blk.answerAt 0).clockLow = true) →
      exec .strobe s = .refused .fallingStrobeWhileClockLow) ∧
    ((s.blk.latchClock = false ∨ (s.blk.drivesLow .clock = false ∧ (s.blk.answerAt 0).clockLow = false)) →
      ∃ t, exec .strobe s = .next t ∧ Completed s t .empty ∧ OneMicroOp s.blk t.blk ∧ SamePhase s.blk t.blk ∧
        t.blk.dirClock = s.blk.dirClock ∧ t.blk.dirData = s.blk.dirData ∧ t.blk.latchData = s.blk.latchData ∧
        t.blk.latchClock = !s.blk.latchClock ∧
        t.blk.cnt.toNat = (s.blk.cnt.toNat + 1) % 16 ∧
        (t.blk.done = true ↔ s.blk.done = true ∨ s.blk.cnt = 15#4) ∧
        (s.blk.latchClock = false → t.blk.dr = s.blk.dr) ∧
        (s.blk.latchClock = true →
          t.blk.dr.toNat = (2 * s.blk.dr.toNat) % 256 +
            (if s.blk.drivesLow .data = true ∨ (s.blk.answerAt 0).dataLow = true then 0 else 1)))

/-- R130: nothing but time, and at least the named constant of it. -/
def Obligations.DelayOnlyPassesTime : Prop :=
  ∀ (k : DelaySel) (s : State), s.seq = .ready →
    encode (.delay k) = [0x19000000#32 + (match k with | .tLow => 0x00000#32 | .tHigh => 0x10000#32 | .tSetup => 0x20000#32)] ∧
    ∃ t, exec (.delay k) s = .next t ∧ Completed s t .empty ∧ OneMicroOp s.blk t.blk ∧
      SamePins s.blk t.blk ∧ SameShift s.blk t.blk ∧ SamePhase s.blk t.blk ∧
      s.blk.time + (match k with | .tLow => s.blk.cfg.tLow | .tHigh => s.blk.cfg.tHigh | .tSetup => s.blk.cfg.tSetup) ≤ t.blk.time

/-- R131, the poll a `WAITHIGH` command makes in its first step: it completes on 1, polls again on 0, and raises BusTimeout on the last 0
a finite limit allows (the recovery begins with the next step, log 22). Under an infinite limit `poll_n` is not counted: that is log 7's reading of R20 and U1
against the pseudocode of R131. -/
def Obligations.WaitHighPollsOncePerStep : Prop :=
  ∀ (l : Line) (s : State), s.seq = .ready →
    ∃ t, exec (.waitHigh l) s = .next t ∧ OneMicroOp s.blk t.blk ∧ SameHost s t ∧
      SamePins s.blk t.blk ∧ SameShift s.blk t.blk ∧ t.blk.bus = s.blk.bus ∧ t.blk.afterStart = s.blk.afterStart ∧
      (s.blk.drivesLow l = false ∧ envLow (s.blk.answerAt 0) l = false →
        Completed s t .empty ∧ t.blk.pollN = 0) ∧
      (¬ (s.blk.drivesLow l = false ∧ envLow (s.blk.answerAt 0) l = false) →
        t.result = s.result ∧
        (s.blk.cfg.pollLimit = none → t.seq = .waitHigh l ∧ t.blk.pollN = s.blk.pollN) ∧
        (∀ limit, s.blk.cfg.pollLimit = some limit → s.blk.pollN + 1 < limit →
          t.seq = .waitHigh l ∧ t.blk.pollN = s.blk.pollN + 1) ∧
        (∀ limit, s.blk.cfg.pollLimit = some limit → limit ≤ s.blk.pollN + 1 →
          t.seq = .recover .r1 l))

/-- R131 under the default limit: `WAITHIGH` completes at the first sample of 1, after any finite number `n` of samples of 0. -/
def Obligations.WaitHighOutwaitsAnyFiniteStretch : Prop :=
  ∀ (l : Line) (s : State) (n : Nat), s.seq = .ready → s.blk.cfg.pollLimit = none → s.blk.drivesLow l = false →
    (∀ k, k < n → envLow (s.blk.answerAt k) l = true) → envLow (s.blk.answerAt n) l = false →
    ∃ s1 t, exec (.waitHigh l) s = .next s1 ∧ runs n s1 = .next t ∧ Completed s t .empty ∧
      SamePins s.blk t.blk ∧ SameShift s.blk t.blk ∧ t.blk.bus = s.blk.bus ∧ t.blk.afterStart = s.blk.afterStart ∧
      t.blk.pollN = 0 ∧ t.blk.primHist = s.blk.primHist ∧ Elapsed (n + 1) 0 s.blk t.blk

/-- R131, R212: the infinite run. For as long as a line is held low, by the master itself or by the environment, a `WAITHIGH` under the
default limit polls and changes nothing else: after `n` steps more it still polls, for every `n`. (That `poll_n` is unchanged too is log 7's
reading of R20 and U1 against the pseudocode of R131; answers and clock are the model's, log 2, log 9.) -/
def Obligations.WaitHighHangsOnALineHeldLow : Prop :=
  ∀ (l : Line) (s : State) (n : Nat), s.seq = .ready → s.blk.cfg.pollLimit = none →
    (∀ k, k ≤ n → s.blk.drivesLow l = true ∨ envLow (s.blk.answerAt k) l = true) →
    ∃ s1 t, exec (.waitHigh l) s = .next s1 ∧ runs n s1 = .next t ∧ t.seq = .waitHigh l ∧ t.result = s.result ∧ SameHost s t ∧
      SamePins s.blk t.blk ∧ SameShift s.blk t.blk ∧ SamePhase s.blk t.blk ∧ t.blk.primHist = s.blk.primHist ∧
      Elapsed (n + 1) 0 s.blk t.blk

/-- R63, R130, R262, in the model's own terms (log 2, log 9): every micro-operation uses one answer of the environment and lets the model's
clock go on. -/
def Obligations.MicroOperationsUseOneAnswer : Prop :=
  ∀ (i : Instr) (s t : State), isMicro i = true → exec i s = .next t → Elapsed 1 0 s.blk t.blk

/-! ### Polls inside listings, and BusTimeout -/

/-- R157: at every poll of every listing, clock stretching (or a DATA line that rises late) changes the number of polls and nothing else
but the histories and time: after `n` samples of 0 and one of 1 the command goes on from the registers it had. -/
def Obligations.StretchingOnlyRepeatsPolls : Prop :=
  ∀ (s : State) (l : Line) (q : Seq) (n : Nat), s.seq.poll = some (l, q) → s.blk.cfg.pollLimit = none →
    s.blk.drivesLow l = false →
    (∀ k, k < n → envLow (s.blk.answerAt k) l = true) → envLow (s.blk.answerAt n) l = false →
    ∃ t, runs (n + 1) s = .next t ∧ t.seq = q ∧ t.result = s.result ∧ SameHost s t ∧
      SamePins s.blk t.blk ∧ SameShift s.blk t.blk ∧ t.blk.bus = s.blk.bus ∧ t.blk.afterStart = s.blk.afterStart ∧
      t.blk.pollN = 0 ∧ t.blk.primHist = s.blk.primHist ∧ Elapsed (n + 1) 0 s.blk t.blk

/-- R212: the places a hang can occur. At every poll (X4, S2, P3, P6 wherever their listing is nested, and the command `WAITHIGH`), under
the default limit, for as long as the line is held low, by the master or by the environment, the position stays and nothing else changes:
after `n` steps, for every `n`. (`poll_n` as in log 7; answers and clock as in log 2, log 9.) -/
def Obligations.EveryPollHangsOnALineHeldLow : Prop :=
  ∀ (s : State) (l : Line) (n : Nat), s.seq.awaited = some l → s.blk.cfg.pollLimit = none →
    (∀ k, k < n → s.blk.drivesLow l = true ∨ envLow (s.blk.answerAt k) l = true) →
    ∃ t, runs n s = .next t ∧ t.seq = s.seq ∧ t.result = s.result ∧ SameHost s t ∧
      SamePins s.blk t.blk ∧ SameShift s.blk t.blk ∧ SamePhase s.blk t.blk ∧ t.blk.primHist = s.blk.primHist ∧ Elapsed n 0 s.blk t.blk

/-- R213, R131, R215: exactly `POLL_LIMIT` samples of 0 in a row, at any poll of any listing or of a `WAITHIGH` command, raise BusTimeout
(`m` are left of them where `poll_n` have been made); five micro-operations later the block drives neither line, is in `Idle`, has left `SR`
alone, and the host has status 2 and the line. The second clause is a `WAITHIGH` from its first poll. -/
def Obligations.BusTimeoutAfterPollLimitSamples : Prop :=
  (∀ (s : State) (l : Line) (limit m : Nat), s.seq.awaited = some l → s.blk.cfg.pollLimit = some limit →
    0 < m → s.blk.pollN + m = limit →
    (∀ k, k < m → s.blk.drivesLow l = true ∨ envLow (s.blk.answerAt k) l = true) →
    (∀ k, k < m → ∃ t, runs k s = .next t ∧ t.seq = s.seq) ∧
    ∃ t, runs (m + 5) s = .next t ∧ TimedOut (m + 5) l s t) ∧
  (∀ (s : State) (l : Line) (limit : Nat), s.seq = .ready → s.blk.cfg.pollLimit = some limit → 0 < limit → s.blk.pollN = 0 →
    (∀ k, k < limit → s.blk.drivesLow l = true ∨ envLow (s.blk.answerAt k) l = true) →
    ∃ s1 t, exec (.waitHigh l) s = .next s1 ∧ runs (limit + 4) s1 = .next t ∧ TimedOut (limit + 5) l s t)

/-! ### Tier 2 of the command set: the primitives (41_primitives.md) -/

/-- R152, R260: `START` from `Idle` ends after 7 micro-operations when its poll does not repeat, in the state of R156; on an idle bus, with
DATA released at the start, the line history grows by R152's seven entries. -/
def Obligations.StartMakesAStartCondition : Prop :=
  ∀ s : State, CanTransact s → (s.blk.answerAt 1).clockLow = false →
    ∃ s1 t, exec .start s = .next s1 ∧ s1.seq = .start .s2 ∧ s1.blk.bus = .start ∧ s1.blk.latchClock = true ∧
      runs 6 s1 = .next t ∧ Completed s t .empty ∧ Elapsed 7 (s.blk.cfg.tSetup + s.blk.cfg.tHigh) s.blk t.blk ∧
      t.blk.dirClock = .output ∧ t.blk.dirData = .output ∧ t.blk.latchClock = false ∧ t.blk.latchData = true ∧
      SameShift s.blk t.blk ∧ t.blk.bus = .start ∧ t.blk.afterStart = true ∧ t.blk.pollN = 0 ∧
      t.blk.primHist = s.blk.primHist ++ [.start] ∧
      (s.blk.idleBus 7 → s.blk.latchData = true → s.blk.dr.getLsbD 7 = true →
        t.blk.lineHist = s.blk.lineHist ++
          [⟨true, true⟩, ⟨true, true⟩, ⟨true, true⟩, ⟨true, false⟩, ⟨true, false⟩, ⟨false, false⟩, ⟨false, true⟩])

/-- R153, R260: `STOP` after a start or an acknowledgment ends after 7 micro-operations when its polls do not repeat; on an idle bus the
line history grows by R153's seven entries. -/
def Obligations.StopMakesAStopCondition : Prop :=
  ∀ s : State, s.seq = .ready → (s.blk.bus = .start ∨ s.blk.bus = .ackPhase) → PinsOutput s.blk →
    s.blk.latchClock = false → s.blk.dr.getLsbD 7 = true →
    (s.blk.answerAt 2).clockLow = false → (s.blk.answerAt 5).dataLow = false →
    ∃ s1 t, exec .stop s = .next s1 ∧ s1.seq = .stop .p2 ∧ s1.blk.bus = .stop ∧ s1.blk.latchData = false ∧
      runs 6 s1 = .next t ∧ Completed s t .empty ∧ Elapsed 7 (s.blk.cfg.tHigh + s.blk.cfg.tLow) s.blk t.blk ∧
      t.blk.dirClock = .output ∧ t.blk.dirData = .output ∧ t.blk.latchClock = true ∧ t.blk.latchData = true ∧
      SameShift s.blk t.blk ∧ t.blk.bus = .idle ∧ t.blk.afterStart = false ∧ t.blk.pollN = 0 ∧
      t.blk.primHist = s.blk.primHist ++ [.stop] ∧
      (s.blk.idleBus 7 →
        t.blk.lineHist = s.blk.lineHist ++
          [⟨false, false⟩, ⟨true, false⟩, ⟨true, false⟩, ⟨true, false⟩, ⟨true, true⟩, ⟨true, true⟩, ⟨true, true⟩])

/-- R153, R246, R251: a `STOP` with `DR[7] = 0` makes no STOP condition and, under the default limit, hangs at its last poll by the
master's own doing. -/
def Obligations.StopHangsWhileTheDataRegisterHoldsDataLow : Prop :=
  ∀ s : State, s.seq = .ready → (s.blk.bus = .start ∨ s.blk.bus = .ackPhase) → PinsOutput s.blk →
    s.blk.latchClock = false → s.blk.dr.getLsbD 7 = false → s.blk.cfg.pollLimit = none → (s.blk.answerAt 2).clockLow = false →
    ∃ s1, exec .stop s = .next s1 ∧
      ∀ n, ∃ t, runs (4 + n) s1 = .next t ∧ t.seq = .stop .p6 ∧ t.result = s.result ∧ t.blk.bus = .stop ∧
        t.blk.latchClock = true ∧ t.blk.latchData = true ∧ t.blk.drivesLow .data = true ∧ SameShift s.blk t.blk ∧
        t.blk.primHist = s.blk.primHist

/-- R151, R65, R260: `XFER 8, 0xF0` ends after 42 micro-operations when no poll repeats and returns the eight levels its falling strobes
sampled, the first in bit 7. On an idle bus the data bits of R77 in its line history are those eight. -/
def Obligations.TransferEightBitsCapturesEightSamples : Prop :=
  ∀ s : State, s.seq = .ready → (s.blk.bus = .start ∨ s.blk.bus = .ackPhase) → ClockLow s.blk → s.blk.noStretch 42 →
    ∃ s1 t r, exec (.xfer 8 0xF0#8) s = .next s1 ∧ runs 41 s1 = .next t ∧ Completed s t (.byte r) ∧ Elapsed 42 (8 * cycle s.blk.cfg) s.blk t.blk ∧
      (∀ k, k < 8 → r.getLsbD (7 - k) = sampledBit s.blk k (5 * k + 5)) ∧
      t.blk.dr = r ∧ t.blk.cnt = 0#4 ∧ t.blk.done = true ∧
      t.blk.dirClock = s.blk.dirClock ∧ t.blk.dirData = s.blk.dirData ∧ t.blk.latchClock = false ∧
      t.blk.latchData = s.blk.latchData ∧
      t.blk.bus = (if s.blk.afterStart then .addressPhase else .dataPhase) ∧ t.blk.afterStart = s.blk.afterStart ∧
      t.blk.pollN = 0 ∧
      t.blk.primHist = s.blk.primHist ++ [match s.blk.dirData with | .output => .byteOut s.blk.dr | .input => .byteIn r] ∧
      (s.blk.idleBus 42 → ∃ h, t.blk.lineHist = s.blk.lineHist ++ h ∧
        ∀ d, dataBits ⟨false, d⟩ h = (List.range 8).map (fun k => r.getLsbD (7 - k)))

/-- R151, R260: `XFER 1, 0xFE` ends after 7 micro-operations when its poll does not repeat and returns `DR[6:0] ∥ s`. -/
def Obligations.TransferOneBitCapturesTheAcknowledgment : Prop :=
  ∀ s : State, s.seq = .ready → (s.blk.bus = .addressPhase ∨ s.blk.bus = .dataPhase) → ClockLow s.blk → s.blk.noStretch 7 →
    ∃ s1 t r, exec (.xfer 1 0xFE#8) s = .next s1 ∧ runs 6 s1 = .next t ∧ Completed s t (.byte r) ∧ Elapsed 7 (cycle s.blk.cfg) s.blk t.blk ∧
      r.getLsbD 0 = sampledBit s.blk 0 5 ∧ (∀ k, k < 7 → r.getLsbD (k + 1) = s.blk.dr.getLsbD k) ∧
      t.blk.dr = r ∧ t.blk.cnt = 0#4 ∧ t.blk.done = true ∧
      t.blk.dirClock = s.blk.dirClock ∧ t.blk.dirData = s.blk.dirData ∧ t.blk.latchClock = false ∧
      t.blk.latchData = s.blk.latchData ∧ t.blk.bus = .ackPhase ∧ t.blk.afterStart = false ∧ t.blk.pollN = 0 ∧
      t.blk.primHist = s.blk.primHist ++ [.ackBit (r.getLsbD 0)]

/-- R154, R156, R260: `SENDBYTE v` ends after 53 micro-operations when no poll repeats. Its value is the level the ninth cycle sampled with
DATA released by the master: 0 is ACK. The state after it does not depend on that bit. -/
def Obligations.SendByteReturnsTheAcknowledgmentBit : Prop :=
  ∀ (v : Byte) (s : State), s.seq = .ready → (s.blk.bus = .start ∨ s.blk.bus = .ackPhase) → ClockLow s.blk →
    s.blk.noStretch 53 →
    ∃ s1 t nack e, exec (.sendByte v) s = .next s1 ∧ s1.blk.dr = v ∧ runs 52 s1 = .next t ∧ Completed s t (.bit nack) ∧
      Elapsed 53 (9 * cycle s.blk.cfg) s.blk t.blk ∧ nack = !(s.blk.answerAt 49).dataLow ∧
      t.blk.dr = 0xFF#8 ∧ t.blk.cnt = 0#4 ∧ t.blk.done = true ∧ t.blk.dirClock = .output ∧ t.blk.dirData = .output ∧
      t.blk.latchClock = false ∧ t.blk.latchData = s.blk.latchData ∧ t.blk.bus = .ackPhase ∧ t.blk.afterStart = false ∧
      t.blk.pollN = 0 ∧ t.blk.primHist = s.blk.primHist ++ [e, .ackBit nack] ∧
      (s.blk.dirData = .output → e = .byteOut v) ∧ (s.blk.dirData = .input → ∃ r, e = .byteIn r)

/-- R155: each command of tiers 2 and 3 is refused for its place in the order exactly when `BusState` is not one the table names; a
command of tier 1 is accepted in every state (a `STROBE` can only be refused for the CLOCK line). -/
def Obligations.CommandsAreAcceptedByBusState : Prop :=
  ∀ s : State, s.seq = .ready →
    (exec .start s = .refused .startNotFromIdle ↔ s.blk.bus ≠ .idle) ∧
    (∀ v, exec (.sendByte v) s = .refused .byteNotAfterStartOrAck ↔ s.blk.bus ≠ .start ∧ s.blk.bus ≠ .ackPhase) ∧
    (exec (.xfer 8 0xF0#8) s = .refused .byteNotAfterStartOrAck ↔ s.blk.bus ≠ .start ∧ s.blk.bus ≠ .ackPhase) ∧
    (exec (.xfer 1 0xFE#8) s = .refused .ackNotAfterByte ↔ s.blk.bus ≠ .addressPhase ∧ s.blk.bus ≠ .dataPhase) ∧
    (exec .stop s = .refused .stopNotAfterStartOrAck ↔ s.blk.bus ≠ .start ∧ s.blk.bus ≠ .ackPhase) ∧
    (∀ a bytes, exec (.send a bytes) s = .refused .busy ↔ s.blk.bus ≠ .idle) ∧
    (∀ a c, exec (.receive a c) s = .refused .busy ↔ s.blk.bus ≠ .idle) ∧
    (∀ i, isMicro i = true → (∃ t, exec i s = .next t) ∨ (i = .strobe ∧ exec i s = .refused .fallingStrobeWhileClockLow))

/-- R151 to R154, R171, R172, R222: in the right `BusState`, operands and then pins are tested before the first micro-operation (the order is
log 14's). -/
def Obligations.EntryTestsRefuseBeforeAnyEffect : Prop :=
  ∀ s : State, s.seq = .ready →
    (∀ n cw, ¬ (n = 8 ∧ cw = 0xF0#8) → ¬ (n = 1 ∧ cw = 0xFE#8) → exec (.xfer n cw) s = .refused .transferOperands) ∧
    (s.blk.bus = .idle →
      (∀ a bytes, 127 < a → exec (.send a bytes) s = .refused .addressRange) ∧
      (∀ a c, 127 < a → exec (.receive a c) s = .refused .addressRange) ∧
      (∀ a, a < 128 → exec (.receive a 0) s = .refused .countZero) ∧
      (¬ PinsOutput s.blk → exec .start s = .refused .pinsNotOutput ∧
        (∀ a bytes, a < 128 → exec (.send a bytes) s = .refused .pinsNotOutput) ∧
        (∀ a c, a < 128 → 0 < c → exec (.receive a c) s = .refused .pinsNotOutput))) ∧
    ((s.blk.bus = .start ∨ s.blk.bus = .ackPhase) →
      (¬ ClockLow s.blk → (∀ v, exec (.sendByte v) s = .refused .transferEntryClockNotLow) ∧
        exec (.xfer 8 0xF0#8) s = .refused .transferEntryClockNotLow) ∧
      (¬ PinsOutput s.blk → exec .stop s = .refused .pinsNotOutput) ∧
      (PinsOutput s.blk → s.blk.latchClock = true → exec .stop s = .refused .stopEntryClockNotLow)) ∧
    ((s.blk.bus = .addressPhase ∨ s.blk.bus = .dataPhase) → ¬ ClockLow s.blk →
      exec (.xfer 1 0xFE#8) s = .refused .transferEntryClockNotLow)

/-! ### Tier 3 of the command set: the transactions (42_transactions.md) -/

/-- R32, R76, R170: a transaction is accepted from `Idle` with both lines in output direction, and its operands are copied into its latches;
its first micro-operation releases CLOCK. -/
def Obligations.TransactionsCopyTheirOperands : Prop :=
  ∀ (s : State) (a : Nat), CanTransact s → a < 128 →
    (∀ bytes : List Byte, ∃ t l, exec (.send a bytes) s = .next t ∧ t.seq = .send l (.w1 .s2) ∧
      l.addr.toNat = a ∧ l.bytes = bytes ∧ l.i = 0 ∧ t.result = s.result ∧ SameHost s t ∧ Elapsed 1 0 s.blk t.blk ∧
      t.blk.latchClock = true ∧ t.blk.latchData = s.blk.latchData ∧ PinsOutput t.blk ∧ SameShift s.blk t.blk ∧ t.blk.bus = .start ∧
      t.blk.afterStart = s.blk.afterStart ∧ t.blk.pollN = s.blk.pollN ∧ t.blk.primHist = s.blk.primHist) ∧
    (∀ c : Nat, 0 < c → ∃ t l, exec (.receive a c) s = .next t ∧ t.seq = .receive l (.q1 .s2) ∧
      l.addr.toNat = a ∧ l.count = c ∧ l.i = 0 ∧ l.out = [] ∧ t.result = s.result ∧ SameHost s t ∧ Elapsed 1 0 s.blk t.blk ∧
      t.blk.latchClock = true ∧ t.blk.latchData = s.blk.latchData ∧ PinsOutput t.blk ∧ SameShift s.blk t.blk ∧ t.blk.bus = .start ∧
      t.blk.afterStart = s.blk.afterStart ∧ t.blk.pollN = s.blk.pollN ∧ t.blk.primHist = s.blk.primHist)

/-- R171, R260: a `SEND` every frame of which is acknowledged, for every address and payload: its count of micro-operations, its result,
its primitive history (one start, n+1 bytes, n+1 acknowledgment bits, one stop) and the state of R36. -/
def Obligations.SendAllAcknowledgedSucceeds : Prop :=
  ∀ (a : Nat) (bytes : List Byte) (s : State), CanTransact s → a < 128 →
    s.blk.noStretch (14 + 53 * (bytes.length + 1)) →
    (∀ k, k ≤ bytes.length → (s.blk.answerAt (7 + 53 * k + 49)).dataLow = true) →
    (s.blk.answerAt (12 + 53 * (bytes.length + 1))).dataLow = false →
    ∃ s1 t, exec (.send a bytes) s = .next s1 ∧ runs (13 + 53 * (bytes.length + 1)) s1 = .next t ∧ Completed s t .empty ∧
      Elapsed (14 + 53 * (bytes.length + 1)) (frames s.blk.cfg (bytes.length + 1)) s.blk t.blk ∧ AfterTransaction t.blk ∧ t.blk.dr = 0xFF#8 ∧
      t.blk.primHist = s.blk.primHist ++ .start :: ackedFrames (BitVec.ofNat 8 (2 * a) :: bytes) ++ [.stop]

/-- R171, R211: a `SEND` whose frame `j` (the address frame is 0) is the first not acknowledged: the later bytes never appear, a stop is
still made, and the host gets AcknowledgmentFailure with `j`. The last frame is no exception. -/
def Obligations.SendStopsAtTheFirstNack : Prop :=
  ∀ (a : Nat) (bytes : List Byte) (j : Nat) (s : State), CanTransact s → a < 128 → j ≤ bytes.length →
    s.blk.noStretch (14 + 53 * (j + 1)) →
    (∀ k, k < j → (s.blk.answerAt (7 + 53 * k + 49)).dataLow = true) →
    (s.blk.answerAt (7 + 53 * j + 49)).dataLow = false →
    (s.blk.answerAt (12 + 53 * (j + 1))).dataLow = false →
    ∃ s1 t, exec (.send a bytes) s = .next s1 ∧ runs (13 + 53 * (j + 1)) s1 = .next t ∧
      t.seq = .ready ∧ t.result = some ⟨.acknowledgmentFailure, .frames j⟩ ∧ SameHost s t ∧
      Elapsed (14 + 53 * (j + 1)) (frames s.blk.cfg (j + 1)) s.blk t.blk ∧ AfterTransaction t.blk ∧ t.blk.dr = 0xFF#8 ∧
      t.blk.primHist = s.blk.primHist ++ .start :: ackedFrames ((BitVec.ofNat 8 (2 * a) :: bytes).take j) ++
        [.byteOut ((BitVec.ofNat 8 (2 * a) :: bytes).getD j 0#8), .ackBit true, .stop]

/-- R172, R260: a `RECEIVE` of `c` bytes, by default whatever the address byte's acknowledgment: status 0, exactly `c` bytes, each the eight
levels sampled, ACK after every byte but the last and the NACK pattern on the last, one stop, and the state of R36. -/
def Obligations.ReceiveReturnsTheSampledBytes : Prop :=
  ∀ (a c : Nat) (s : State), CanTransact s → a < 128 → 0 < c →
    (s.blk.cfg.rxCheckAddrAck = false ∨ (s.blk.answerAt 56).dataLow = true) →
    s.blk.noStretch (67 + 52 * c) → (s.blk.answerAt (65 + 52 * c)).dataLow = false →
    ∃ s1 t out, exec (.receive a c) s = .next s1 ∧ runs (66 + 52 * c) s1 = .next t ∧ Completed s t (.bytes out) ∧
      Elapsed (67 + 52 * c) (frames s.blk.cfg (c + 1)) s.blk t.blk ∧ AfterTransaction t.blk ∧
      out.length = c ∧
      (∀ k i, k < c → i < 8 → (out.getD k 0#8).getLsbD (7 - i) = !(s.blk.answerAt (66 + 52 * k + 5 * i)).dataLow) ∧
      (∀ i, 0 < i → i < 8 → t.blk.dr.getLsbD i = true) ∧
      t.blk.dr.getLsbD 0 = !(s.blk.answerAt (58 + 52 * c)).dataLow ∧
      t.blk.primHist = s.blk.primHist ++
        [.start, .byteOut (BitVec.ofNat 8 (2 * a + 1)), .ackBit (!(s.blk.answerAt 56).dataLow)] ++
        (out.take (c - 1)).flatMap (fun v => [.byteIn v, .ackBit false]) ++
        [.byteIn (out.getD (c - 1) 0#8), .ackBit (t.blk.dr.getLsbD 0), .stop]

/-- R214, R172 (Q3): with `RX_CHECK_ADDR_ACK`, an address byte that nobody acknowledges ends a `RECEIVE` with a stop and status 3, no byte
read. -/
def Obligations.ReceiveCheckedAddressNackIsMalformed : Prop :=
  ∀ (a c : Nat) (s : State), CanTransact s → a < 128 → 0 < c → s.blk.cfg.rxCheckAddrAck = true →
    s.blk.noStretch 67 → (s.blk.answerAt 56).dataLow = false → (s.blk.answerAt 65).dataLow = false →
    ∃ s1 t, exec (.receive a c) s = .next s1 ∧ runs 66 s1 = .next t ∧
      t.seq = .ready ∧ t.result = some ⟨.malformedReceive, .empty⟩ ∧ SameHost s t ∧
      Elapsed 67 (frames s.blk.cfg 1) s.blk t.blk ∧ AfterTransaction t.blk ∧ t.blk.dr = 0xFF#8 ∧
      t.blk.primHist = s.blk.primHist ++ [.start, .byteOut (BitVec.ofNat 8 (2 * a + 1)), .ackBit true, .stop]

/-- R36: whenever the last micro-operation of a transaction returns to the host (status 0, 1 or 3), the registers are those of R36: `DR` is
`0xFF` after a `SEND` and its bits 7 to 1 are ones after a `RECEIVE`. -/
def Obligations.TransactionsEndInTheRestState : Prop :=
  ∀ s t : State, Inv s → s.seq.inTransaction = true → step s = .next t → t.seq = .ready →
    AfterTransaction t.blk ∧ (∀ i, 0 < i → i < 8 → t.blk.dr.getLsbD i = true) ∧
    (∀ l p, s.seq = .send l p → t.blk.dr = 0xFF#8) ∧ t.blk.drivesLow .clock = false ∧ t.blk.drivesLow .data = false ∧
    ∃ r, t.result = some r ∧ (r.status = .ok ∨ r.status = .acknowledgmentFailure ∨ r.status = .malformedReceive)

/-! ### Encoding (30_encoding.md) -/

/-- R98 to R101: every well-formed command, with every operand its encoding admits, decodes from its own words, whatever follows. -/
def Obligations.DecodeOfEncodeIsTheCommand : Prop :=
  ∀ (i : Instr) (rest : List Word), i.WellFormed → decode (encode i ++ rest) = .ok (i, rest)

/-- R108, R104: what decodes is a well-formed command, and the words it was read from are that command's own: no two words mean one
command and no reserved word is taken for a neighbour. -/
def Obligations.EncodeOfDecodeIsTheWords : Prop :=
  ∀ (ws rest : List Word) (i : Instr), decode ws = .ok (i, rest) → i.WellFormed ∧ ws = encode i ++ rest

/-- R101: the length of a command follows from its first word alone. -/
def Obligations.CommandLengthFromTheFirstWord : Prop :=
  ∀ (w : Word) (ws rest : List Word) (i : Instr), decode (w :: ws) = .ok (i, rest) →
    rest.length + commandLength w = ws.length + 1 ∧ rest = ws.drop (commandLength w - 1)

/-- R108, R101, R104: the decoder is total. A first word and what follows it are one well-formed command's words, or reserved, or the
beginning of a `SEND` whose extension words are missing (log 6). -/
def Obligations.DecodingIsTotal : Prop :=
  ∀ (w : Word) (ws : List Word),
    (∃ i rest, decode (w :: ws) = .ok (i, rest) ∧ i.WellFormed ∧ w :: ws = encode i ++ rest) ∨
    decode (w :: ws) = .error .reservedEncoding ∨
    (decode (w :: ws) = .error .truncatedCommand ∧ w.tier = 3#4 ∧ w.op = 0#4 ∧ ws.length < w.fieldN.toNat)

/-- R104: the reserved words, each class refused by name. -/
def Obligations.ReservedWordsAreRefused : Prop :=
  ∀ (w : Word) (ws : List Word),
    (w.tier = 0#4 ∨ 4 ≤ w.tier.toNat ∨
     (w.tier = 1#4 ∧ 11 ≤ w.op.toNat) ∨ (w.tier = 2#4 ∧ 4 ≤ w.op.toNat) ∨ (w.tier = 3#4 ∧ 2 ≤ w.op.toNat) ∨
     (w.tier = 1#4 ∧ w.fieldA ≠ 0#8) ∨ (w.tier = 2#4 ∧ w.fieldA ≠ 0#8) ∨
     (w.tier = 1#4 ∧ w.fieldB ≠ 0#8 ∧ w.op ≠ 3#4 ∧ w.op ≠ 4#4 ∧ w.op ≠ 6#4) ∨
     (w.tier = 1#4 ∧ w.fieldN ≠ 0#8 ∧ (w.op = 4#4 ∨ w.op = 5#4 ∨ w.op = 6#4 ∨ w.op = 7#4 ∨ w.op = 8#4)) ∨
     (w.tier = 2#4 ∧ w.fieldB ≠ 0#8 ∧ (w.op = 0#4 ∨ w.op = 1#4)) ∨
     (w.tier = 2#4 ∧ w.fieldN ≠ 0#8 ∧ (w.op = 0#4 ∨ w.op = 1#4 ∨ w.op = 2#4)) ∨
     (w.tier = 3#4 ∧ w.fieldB ≠ 0#8) ∨
     (w.tier = 1#4 ∧ 1 < w.fieldN.toNat ∧ (w.op = 0#4 ∨ w.op = 1#4 ∨ w.op = 2#4 ∨ w.op = 3#4 ∨ w.op = 10#4)) ∨
     (w.tier = 1#4 ∧ w.op = 3#4 ∧ 1 < w.fieldB.toNat) ∨
     (w.tier = 1#4 ∧ w.op = 9#4 ∧ 3 ≤ w.fieldN.toNat) ∨
     (w.tier = 3#4 ∧ w.fieldA.getLsbD 7 = true) ∨
     (w.tier = 3#4 ∧ w.op = 1#4 ∧ w.fieldN = 0#8) ∨
     (w.tier = 2#4 ∧ w.op = 3#4 ∧ ¬ (w.fieldN = 8#8 ∧ w.fieldB = 0xF0#8) ∧ ¬ (w.fieldN = 1#8 ∧ w.fieldB = 0xFE#8))) →
    decode (w :: ws) = .error .reservedEncoding

/-- R98 to R101: some words written out from the encoding tables. -/
def Obligations.SampleWordsDecode : Prop :=
  decodeTableWord 32 0x13010001 = some (.setDir .data .output) ∧
  decodeTableWord 32 0x160000FE = some (.loadSR 0xFE#8) ∧
  decodeTableWord 32 0x19020000 = some (.delay .tSetup) ∧
  decodeTableWord 32 0x22000081 = some (.sendByte 0x81#8) ∧
  decodeTableWord 32 0x230800F0 = some (.xfer 8 0xF0#8) ∧
  decode [0x30034000#32, 0x02#32, 0x10#32, 0x00#32] = .ok (.send 0x40 [0x02#8, 0x10#8, 0x00#8], []) ∧
  decodeTableWord 32 0x31FF7F00 = some (.receive 127 255)

/-- R102, R215: the result word's four fields, and the data words. Lengths and counts above 255, which no command word asks for, are cut
to 8 bits (log 10). -/
def Obligations.ResultWordFields : Prop :=
  ∀ r : Result, ∃ w data, resultWords r = w :: data ∧
    w.extractLsb' 24 8 = (match r.status with | .ok => 0#8 | .acknowledgmentFailure => 1#8 | .busTimeout => 2#8 | .malformedReceive => 3#8) ∧
    w.extractLsb' 16 8 = BitVec.ofNat 8 data.length ∧ w.extractLsb' 8 8 = 0#8 ∧
    w.extractLsb' 0 8 = (match r.value with
      | .bit b => (if b then 1#8 else 0#8)
      | .byte v => v
      | .frames n => BitVec.ofNat 8 n
      | .line .clock => 0#8
      | .line .data => 1#8
      | .empty => 0#8
      | .bytes _ => 0#8) ∧
    data = (match r.value with
      | .bytes l => l.map (fun v => BitVec.ofNat 32 v.toNat)
      | _ => [])

/-- R91: the address byte, the address in bits 7 to 1 and the direction in bit 0. -/
def Obligations.AddressByteHoldsAddressAndDirection : Prop :=
  (∀ a : BitVec 7, (addressWrite a).toNat = 2 * a.toNat ∧ (addressRead a).toNat = 2 * a.toNat + 1) ∧
  addressWrite 0x40#7 = 0x80#8 ∧ addressRead 0x40#7 = 0x81#8

/-- R106, R107: the examples of the assembler syntax, and the pseudo-instructions. -/
def Obligations.AssemblerReadsTheSyntax : Prop :=
  assemble "SETDIR DATA, input" = some (.command (.setDir .data .input)) ∧
  assemble "XFER 8, 0xF0" = some (.command (.xfer 8 0xF0#8)) ∧
  assemble "SEND 0x40, [0x02, 0x10, 0x00]" = some (.command (.send 0x40 [0x02#8, 0x10#8, 0x00#8])) ∧
  assemble "RECEIVE 0x40, 4" = some (.command (.receive 0x40 4)) ∧
  assemble "RELEASE CLOCK" = some (.command (.setHigh .clock)) ∧
  assemble "DRIVELOW DATA" = some (.command (.setLow .data)) ∧
  assemble "ACKPAT" = some (.command (.loadDR 0x00#8)) ∧
  assemble "NACKPAT" = some (.command (.loadDR 0xFF#8)) ∧
  assemble "XFER8" = some (.command (.xfer 8 0xF0#8)) ∧
  assemble "XFER1" = some (.command (.xfer 1 0xFE#8)) ∧
  assemble "POLL DATA" = some (.hostMove (.poll .data)) ∧
  assemble "INITIALIZE" = some (.hostMove .initializeClient) ∧
  assemble "MEASURE" = some (.hostMove .measure)

/-! ### The machine's step -/

/-- R108, R101, R76: when the words at the head of the command stream are a command's, the step is that command's meaning on the state with
those words taken, whatever stands after them. The command stream as state is the model's choice (log 5). -/
def Obligations.StepRunsTheDecodedCommand : Prop :=
  ∀ (s : State) (w : Word) (ws : List Word) (i : Instr) (ops : List HostOp),
    s.seq = .ready → s.client = .idle → decode (w :: ws) = .ok (i, []) → s.program = (w :: ws).map .word ++ ops →
    step s = exec i { s with program := ops }

/-- R104, R222: a reserved word at the head of the command stream is refused, in any state of the block. -/
def Obligations.StepRefusesReservedWords : Prop :=
  ∀ (s : State) (w : Word) (ops : List HostOp), s.seq = .ready → s.client = .idle → s.program = .word w :: ops →
    (∀ ws, decode (w :: ws) = .error .reservedEncoding) → step s = .refused .reservedEncoding

/-- R241: with no command running and nothing left for the host to do, the block executes nothing (log 5). -/
def Obligations.WithoutACommandNothingRuns : Prop :=
  ∀ s : State, s.seq = .ready → s.client = .idle → s.program = [] → step s = .next s

/-- R6, R71, R73, R227: while a command runs the host has no move: the command stream, the client and what the host has read are untouched,
one micro-operation runs, and `RESULT` changes only when the command ends. -/
def Obligations.TheHostIsBlockedWhileACommandRuns : Prop :=
  ∀ s t : State, s.seq ≠ .ready → step s = .next t →
    SameHost s t ∧ t.blk.ops = s.blk.ops + 1 ∧ t.blk.env = s.blk.env.tail ∧
    (t.seq ≠ .ready → t.result = s.result) ∧ (t.seq = .ready → t.result ≠ none)

/-- R35, U10: the host's reading of `RESULT` is refused before the first command completes, and gives the result's words after (to the
model's inbox, log 11). -/
def Obligations.ReadingTheResult : Prop :=
  ∀ (s : State) (ops : List HostOp), s.seq = .ready → s.client = .idle → s.program = .readResult :: ops →
    (s.result = none → step s = .refused .resultBeforeFirstCommand) ∧
    (∀ r, s.result = some r → step s = .next { s with program := ops, inbox := s.inbox ++ resultWords r })

/-- R35, R240: the state construction leaves, for every choice of parameters; and the machine after reset is the one constructed with R7's
defaults (`T_SETUP = T_LOW`, no poll limit, `RX_CHECK_ADDR_ACK` false, 20 ms, `DRIVER_SURFACES_ERRORS` false). -/
def Obligations.ConstructionLeavesTheResetState : Prop :=
  (∀ cfg : Config, ∃ s, State.construct cfg = s ∧
    s.blk.cfg = cfg ∧ s.blk.dir .clock = .output ∧ s.blk.dir .data = .output ∧ s.blk.latch .clock = true ∧ s.blk.latch .data = true ∧
    s.blk.dr = 0xFF#8 ∧ s.blk.cnt = 0#4 ∧ s.blk.done = false ∧ s.blk.bus = .idle ∧ s.blk.afterStart = false ∧
    s.seq = .ready ∧ s.result = none ∧ s.blk.pollN = 0 ∧
    (∀ l, s.blk.level l false = true ∧ s.blk.level l true = false) ∧
    (∀ ops, step { s with program := .readResult :: ops } = .refused .resultBeforeFirstCommand)) ∧
  (∃ cfg, State.reset = State.construct cfg ∧ cfg.tSetup = cfg.tLow ∧ cfg.pollLimit = none ∧ cfg.rxCheckAddrAck = false ∧
    cfg.conversionDelay = 20000 ∧ cfg.driverSurfacesErrors = false)

/-! ### Invariants and whole-machine rules -/

/-- The invariant holds after construction, whatever the parameters. -/
def Obligations.InvariantHoldsAfterConstruction : Prop :=
  (∀ cfg, Inv (State.construct cfg)) ∧ Inv State.reset

/-- Every step keeps the invariant: the pins, latches, counts and phases that go with each label of each listing (R151 to R156, R171 to
R173). That `poll_n` stays 0 under an infinite limit is log 7's reading. -/
def Obligations.EveryStepKeepsTheInvariant : Prop :=
  ∀ s t : State, Inv s → step s = .next t → Inv t

/-- R7: no step changes a parameter. -/
def Obligations.NoStepChangesAParameter : Prop :=
  ∀ s t : State, step s = .next t → t.blk.cfg = s.blk.cfg

/-- R173, R29: the transitions of `BusState`. The one step outside them is the last of BusTimeout's recovery, which leaves `Idle` (R213). -/
def Obligations.BusStateFollowsTheProtocol : Prop :=
  ∀ s t : State, Inv s → step s = .next t →
    busTransition s.blk.bus t.blk.bus ∨ (t.blk.bus = .idle ∧ ∃ l, s.seq = .recover .r5 l)

/-- R78, R244: inside every listing of tiers 2 and 3, but for the START and the STOP themselves, the master changes its drive of DATA only
while it drives CLOCK low; so too in the step that accepts a command of these tiers. -/
def Obligations.DataChangesOnlyWhileClockIsLow : Prop :=
  (∀ s t : State, Inv s → s.seq.inListing = true → s.seq.makesCondition = false → step s = .next t →
    t.blk.drivesDataLow ≠ s.blk.drivesDataLow → t.blk.drivesClockLow = true) ∧
  (∀ (i : Instr) (s t : State), isMicro i = false → exec i s = .next t →
    t.blk.drivesDataLow ≠ s.blk.drivesDataLow → t.blk.drivesClockLow = true)

/-- R222: in a state of the invariant, a running command is refused for one reason only. -/
def Obligations.RunningCommandsAreRefusedForOneReasonOnly : Prop :=
  ∀ (s : State) (r : Refusal), Inv s → s.seq ≠ .ready → step s = .refused r → r = .fallingStrobeWhileClockLow

/-- R129, R64: on a compliant bus that reason cannot arise either: a command runs on for as long as the bus complies and it has not
ended. What complies is said as log 16 reads R64. -/
def Obligations.CompliantBusNeverRefusesAStrobe : Prop :=
  ∀ (slaves : List (BitVec 7)) (n : Nat) (v : BusWatch) (s : State), Inv s →
    (s.seq.awaitsFall = true → s.blk.level .clock v.last.clockLowAfter = true) →
    CompliantFor slaves n v s →
    (∀ k t, k < n → runs k s = .next t → t.seq ≠ .ready) →
    ∃ t, runs n s = .next t

/-- U11 of 93_implementation_defined.md: what the environment answers to one micro-operation can change nothing of the block's registers but
`DR[0]` and `poll_n`, whatever command runs and whatever command is issued. -/
def Obligations.TheEnvironmentReachesOnlyTheSampledBit : Prop :=
  (∀ (s t u : State) (e : List EnvAnswer), s.seq ≠ .ready → step s = .next t →
    step { s with blk := { s.blk with env := e } } = .next u → SameButTheSample t.blk u.blk) ∧
  (∀ (i : Instr) (s t u : State) (e : List EnvAnswer), exec i s = .next t →
    exec i { s with blk := { s.blk with env := e } } = .next u → SameButTheSample t.blk u.blk)

/-- R12, R21: the two histories and the model's clock (log 9) are read by nothing: changing them changes nothing else. -/
def Obligations.HistoriesAndTimeAreReadByNothing : Prop :=
  ∀ (s : State) (h : List Levels) (p : List PrimEvent) (m : Nat),
    match step s, step { s with blk := { s.blk with lineHist := h, primHist := p, time := m } } with
    | .next t, .next u => { u with blk := { u.blk with lineHist := t.blk.lineHist, primHist := t.blk.primHist, time := t.blk.time } } = t
    | .refused r, .refused r' => r = r'
    | .fault _, .fault _ => True
    | _, _ => False

/-! ### The client (43_host_client.md) -/

/-- R107: `POLL L` is `READLEVEL L` issued until it returns 1. The host's moves as state are the model's choice (log 12). -/
def Obligations.PollRepeatsReadLevel : Prop :=
  ∀ (l : Line) (s : State) (ops : List HostOp), s.seq = .ready →
    (s.client = .idle → s.program = .poll l :: ops →
      step s = exec (.readLevel l) { s with program := ops, client := .polling l }) ∧
    (∀ st, s.client = .polling l → s.result = some ⟨st, .bit false⟩ → step s = exec (.readLevel l) s) ∧
    (∀ st, s.client = .polling l → s.result = some ⟨st, .bit true⟩ → step s = .next { s with client := .idle })

/-- R192: `initialize()` issues one `SEND` of exactly three bytes to the sensor, and on its end returns, by default, nothing
(log 12). -/
def Obligations.InitializeIsOneSendOfThreeBytes : Prop :=
  ∀ (s : State) (ops : List HostOp), s.seq = .ready →
    (s.client = .idle → s.program = .initializeClient :: ops →
      step s = exec (.send s.blk.cfg.sensorAddr.toNat [s.blk.cfg.ptrConfig, s.blk.cfg.cfgHi, s.blk.cfg.cfgLo])
        { s with program := ops, client := .initializing }) ∧
    (∀ r, s.client = .initializing → s.result = some r →
      ∃ t, step s = .next t ∧ t.client = .idle ∧ t.blk = s.blk ∧ t.seq = .ready ∧ t.result = s.result ∧
        t.clientLog = s.clientLog ++ [if s.blk.cfg.driverSurfacesErrors then .initStatus r.status else .initialized])

/-- R193: `measure()` issues the trigger write, then waits at least `CONVERSION_DELAY`, then issues the read of four bytes, whatever the
trigger's status was (clock and client as state: log 9, log 12). That the read is still made after a failed trigger when
`DRIVER_SURFACES_ERRORS` is true is the model's own choice (log 12); R196 says it for `false`. -/
def Obligations.MeasureTriggersWaitsAndReads : Prop :=
  ∀ (s : State) (ops : List HostOp), s.seq = .ready →
    (s.client = .idle → s.program = .measure :: ops →
      step s = exec (.send s.blk.cfg.sensorAddr.toNat [s.blk.cfg.ptrTrigger]) { s with program := ops, client := .triggering }) ∧
    (∀ r, s.client = .triggering → s.result = some r →
      ∃ t, step s = .next t ∧ t.client = .waited r.status ∧ s.blk.time + s.blk.cfg.conversionDelay ≤ t.blk.time ∧
        SamePins s.blk t.blk ∧ SameShift s.blk t.blk ∧ SamePhase s.blk t.blk ∧ t.blk.ops = s.blk.ops ∧
        step t = exec (.receive s.blk.cfg.sensorAddr.toNat 4) { t with client := .reading r.status })

/-- R193 to R196: what `measure()` returns. By default a reading whatever the statuses, computed from the four bytes where there are four;
with `DRIVER_SURFACES_ERRORS` the first non-zero status of the two transactions in its place. `FloatEval` is the parameter of R7
(log 13). -/
def Obligations.MeasureReturnsAReading : Prop :=
  ∀ (s : State) (s1 : Status) (r : Result), s.seq = .ready → s.client = .reading s1 → s.result = some r →
    ∃ t x, step s = .next t ∧ t.client = .idle ∧ t.blk = s.blk ∧ t.seq = .ready ∧ t.result = s.result ∧ t.clientLog = s.clientLog ++ [x] ∧
      (s.blk.cfg.driverSurfacesErrors = true → s1 ≠ .ok → x = .measureStatus s1) ∧
      (s.blk.cfg.driverSurfacesErrors = true → s1 = .ok → r.status ≠ .ok → x = .measureStatus r.status) ∧
      (s.blk.cfg.driverSurfacesErrors = false ∨ (s1 = .ok ∧ r.status = .ok) →
        ∃ y, x = .reading y ∧ ∀ b0 b1 b2 b3, r.value = .bytes [b0, b1, b2, b3] →
          ∃ rawT rawH : BitVec 16, rawT.toNat = b0.toNat * 256 + b1.toNat ∧ rawH.toNat = b2.toNat * 256 + b3.toNat ∧
            y.temperature = convT s.blk.cfg.floatEval rawT ∧ y.humidity = convH s.blk.cfg.floatEval rawH)

/-- R195: the exact conversions lie in the ranges the rule gives, R195's suggested evaluation, the float32 nearest to the exact value (with
the IEEE layout of log 13), is the exact value itself, finite, and as a choice of the parameter `FloatEval` has the property a claim may
assume. -/
def Obligations.NearestFloatEvaluationIsAdmitted : Prop :=
  (∀ raw : BitVec 16,
    f32Finite (nearestT raw) = true ∧ f32Value (nearestT raw) = exactT raw ∧
    f32Finite (nearestH raw) = true ∧ f32Value (nearestH raw) = exactH raw ∧
    -40 ≤ exactT raw ∧ exactT raw ≤ 65535 * 165 / 65536 - 40 ∧ 0 ≤ exactH raw ∧ exactH raw ≤ 65535 * 100 / 65536) ∧
  FloatEvalOk (floatEvalOf nearestT nearestH)

end
end

