-- ==== Sys2Proof/Laws/Bus.lean ====
section
/-! SUPPORT. Item (a) of the compliant bus (20_memory.md R64): what complies makes no START and no STOP condition by itself. -/

namespace Sys2Proof.Laws.Bus

open Sys2Proof Sys2Proof.Machine

/-- A change of the lines that keeps DATA, or leaves CLOCK low at one end, is neither condition (R77). -/
theorem no_condition {x y : Levels} (h : x.clock = true → y.clock = true → y.data = x.data) :
    isStartCondition x y = false ∧ isStopCondition x y = false := by
  obtain ⟨xc, xd⟩ := x
  obtain ⟨yc, yd⟩ := y
  revert h
  cases xc <;> cases xd <;> cases yc <;> cases yd <;> decide

/-- Between micro-operations, where the master changes nothing, neither condition arises. -/
theorem sample_makes_no_condition {slaves : List (BitVec 7)} {v : BusWatch} {b : Block} (h : SampleComplies slaves v b) :
    isStartCondition (b.levelsWith v.last.clockLowAfter v.last.dataLowAfter) (b.levelsWith b.answer.clockLow b.answer.dataLow) = false ∧
    isStopCondition (b.levelsWith v.last.clockLowAfter v.last.dataLowAfter) (b.levelsWith b.answer.clockLow b.answer.dataLow) = false :=
  no_condition fun hc _ => by rw [Block.levelsWith, Block.levelsWith, (h.1 hc).2]

/-- Across a micro-operation that keeps the master's drive of DATA, neither condition arises. -/
theorem after_makes_no_condition {slaves : List (BitVec 7)} {v : BusWatch} {b c : Block} (h : AfterComplies slaves v b c)
    (hd : c.drivesDataLow = b.drivesDataLow) :
    isStartCondition (b.levelsWith b.answer.clockLow b.answer.dataLow) (c.levelsWith b.answer.clockLowAfter b.answer.dataLowAfter) = false ∧
    isStopCondition (b.levelsWith b.answer.clockLow b.answer.dataLow) (c.levelsWith b.answer.clockLowAfter b.answer.dataLowAfter) = false := by
  refine no_condition fun hb hc => ?_
  have hl : c.drivesClockLow = false := by
    simp only [Block.levelsWith, Block.level, Block.drivesLow, Bool.not_eq_true', Bool.or_eq_false_iff] at hc
    exact hc.1
  simp [Block.levelsWith, Block.level, Block.drivesLow, hd, (h.1 hb hl).2]

end Sys2Proof.Laws.Bus
end

