-- ==== Sys2Proof/Laws/Conversion.lean ====
section
/-! SUPPORT. A `FloatEval` made of two functions evaluates to them (43_host_client.md R195). -/

namespace Sys2Proof.Laws.Conversion

open Sys2Proof Sys2Proof.Machine

/-- `tabulate` has an entry for every raw value. -/
theorem lookup_tabulate (f : BitVec 16 → BitVec 32) (raw : BitVec 16) : (tabulate f).lookup raw = some (f raw) := by
  have key : ∀ l : List Nat, raw.toNat ∈ l →
      (∀ n ∈ l, n < 65536) → (l.map fun n => (BitVec.ofNat 16 n, f (BitVec.ofNat 16 n))).lookup raw = some (f raw) := by
    intro l
    induction l with
    | nil => intro h; cases h
    | cons n l ih =>
      intro h hl
      rw [List.map_cons, List.lookup_cons]
      by_cases e : raw = BitVec.ofNat 16 n
      · simp [e]
      · rw [beq_eq_false_iff_ne.mpr e]
        refine ih ((List.mem_cons.1 h).resolve_left fun h => e (by simp [← h])) fun m hm => hl m (List.mem_cons_of_mem _ hm)
  exact key _ (by simpa using raw.isLt) (by simp)

@[simp] theorem convT_floatEvalOf (f g : BitVec 16 → BitVec 32) (raw : BitVec 16) : convT (floatEvalOf f g) raw = f raw := by
  simp [convT, floatEvalOf, lookup_tabulate]

@[simp] theorem convH_floatEvalOf (f g : BitVec 16 → BitVec 32) (raw : BitVec 16) : convH (floatEvalOf f g) raw = g raw := by
  simp [convH, floatEvalOf, lookup_tabulate]

end Sys2Proof.Laws.Conversion
end

