-- ==== Sys2Proof/Laws/Decode.lean ====
section
/-! SUPPORT. The fields of a packed command word (30_encoding.md R96) and the payload of a `SEND` (R101): everything the shared parts of
the decoder can do. -/

namespace Sys2Proof.Laws.Decode

open Sys2Proof

section

variable (t o : BitVec 4) (n a b : Byte)

/-! ### The fields of a packed word -/

@[simp] theorem packWord_tier : (packWord t o n a b).tier = t := by
  apply BitVec.eq_of_getLsbD_eq
  intro i hi
  simp only [Word.tier, packWord, BitVec.getLsbD_extractLsb', BitVec.getLsbD_append]
  have h : ¬ 28 + i < 8 ∧ ¬ 28 + i - 8 < 8 ∧ ¬ 28 + i - 8 - 8 < 8 ∧ ¬ 28 + i - 8 - 8 - 8 < 4 ∧ 28 + i - 8 - 8 - 8 - 4 = i := by omega
  simp [h, hi]

@[simp] theorem packWord_op : (packWord t o n a b).op = o := by
  apply BitVec.eq_of_getLsbD_eq
  intro i hi
  simp only [Word.op, packWord, BitVec.getLsbD_extractLsb', BitVec.getLsbD_append]
  have h : ¬ 24 + i < 8 ∧ ¬ 24 + i - 8 < 8 ∧ ¬ 24 + i - 8 - 8 < 8 ∧ 24 + i - 8 - 8 - 8 < 4 ∧ 24 + i - 8 - 8 - 8 = i := by omega
  simp [h, hi]

@[simp] theorem packWord_fieldN : (packWord t o n a b).fieldN = n := by
  apply BitVec.eq_of_getLsbD_eq
  intro i hi
  simp only [Word.fieldN, packWord, BitVec.getLsbD_extractLsb', BitVec.getLsbD_append]
  have h : ¬ 16 + i < 8 ∧ ¬ 16 + i - 8 < 8 ∧ 16 + i - 8 - 8 < 8 ∧ 16 + i - 8 - 8 = i := by omega
  simp [h, hi]

@[simp] theorem packWord_fieldA : (packWord t o n a b).fieldA = a := by
  apply BitVec.eq_of_getLsbD_eq
  intro i hi
  simp only [Word.fieldA, packWord, BitVec.getLsbD_extractLsb', BitVec.getLsbD_append]
  have h : ¬ 8 + i < 8 ∧ 8 + i - 8 < 8 ∧ 8 + i - 8 = i := by omega
  simp [h, hi]

@[simp] theorem packWord_fieldB : (packWord t o n a b).fieldB = b := by
  apply BitVec.eq_of_getLsbD_eq
  intro i hi
  simp only [Word.fieldB, packWord, BitVec.getLsbD_extractLsb', BitVec.getLsbD_append]
  simp [hi]

/-- A word is its five fields. -/
theorem packWord_fields (w : Word) : packWord w.tier w.op w.fieldN w.fieldA w.fieldB = w := by
  apply BitVec.eq_of_getLsbD_eq
  intro i hi
  simp only [packWord, Word.tier, Word.op, Word.fieldN, Word.fieldA, Word.fieldB, BitVec.getLsbD_append, BitVec.getLsbD_extractLsb']
  repeat' split
  all_goals first
    | (simp only [*, decide_true, Bool.true_and]; congr 1; omega)
    | (have : i - 8 - 8 - 8 - 4 < 4 := by omega
       simp only [*, decide_true, Bool.true_and]; congr 1; omega)

end

/-! ### The payload -/

/-- An extension word carries its byte (R101). -/
theorem extension_word (v : Byte) :
    (BitVec.setWidth 32 v).extractLsb' 8 24 = 0#24 ∧ (BitVec.setWidth 32 v).extractLsb' 0 8 = v := by
  constructor
  · apply BitVec.eq_of_getLsbD_eq
    intro i hi
    simp only [BitVec.getLsbD_extractLsb', BitVec.getLsbD_setWidth, BitVec.getLsbD_zero]
    simp
  · apply BitVec.eq_of_getLsbD_eq
    intro i hi
    simp only [BitVec.getLsbD_extractLsb', BitVec.getLsbD_setWidth]
    have h : i < 32 := by omega
    simp [h, hi]

/-- A word whose high 24 bits are zero is the extension word of its low byte. -/
theorem word_of_low (w : Word) (h : w.extractLsb' 8 24 = 0#24) : BitVec.setWidth 32 (w.extractLsb' 0 8) = w := by
  apply BitVec.eq_of_getLsbD_eq
  intro i hi
  simp only [BitVec.getLsbD_setWidth, BitVec.getLsbD_extractLsb']
  by_cases h8 : i < 8
  · simp [hi, h8]
  · have : w.getLsbD i = false := by
      have e := congrArg (fun x : BitVec 24 => x.getLsbD (i - 8)) h
      simp only [BitVec.getLsbD_extractLsb', BitVec.getLsbD_zero] at e
      have h2 : i - 8 < 24 ∧ 8 + (i - 8) = i := by omega
      simpa [h2] using e
    rw [this]
    simp [h8]

/-- The payload's own extension words give the payload, whatever follows. -/
theorem takePayload_append (bytes : List Byte) (rest : List Word) :
    takePayload bytes.length (extensionWords bytes ++ rest) = .ok (bytes, rest) := by
  induction bytes with
  | nil => rfl
  | cons v bytes ih =>
    obtain ⟨h1, h2⟩ := extension_word v
    simp only [extensionWords, List.map_cons, List.cons_append, List.length_cons, takePayload] at ih ⊢
    rw [if_pos h1, ih, Word.fieldB, h2]

/-- Everything `takePayload` can answer with. -/
theorem takePayload_ok {n : Nat} {ws rest : List Word} {bytes : List Byte} (h : takePayload n ws = .ok (bytes, rest)) :
    bytes.length = n ∧ ws = extensionWords bytes ++ rest := by
  induction n generalizing ws bytes with
  | zero => simp only [takePayload, Except.ok.injEq, Prod.mk.injEq] at h; obtain ⟨rfl, rfl⟩ := h; exact ⟨rfl, rfl⟩
  | succ n ih =>
    cases ws with
    | nil => simp [takePayload] at h
    | cons w ws =>
      simp only [takePayload] at h
      split at h
      · rename_i h0
        split at h
        · rename_i e
          simp only [Except.ok.injEq, Prod.mk.injEq] at h
          obtain ⟨rfl, rfl⟩ := h
          obtain ⟨h1, h2⟩ := ih e
          refine ⟨by simp [h1], ?_⟩
          rw [h2]
          show w :: (extensionWords _ ++ _) = BitVec.setWidth 32 (w.extractLsb' 0 8) :: (extensionWords _ ++ _)
          rw [word_of_low w h0]
        · simp at h
      · simp at h

/-- `takePayload` runs out of words only where there are fewer than it was asked for. -/
theorem takePayload_truncated {n : Nat} {ws : List Word} (h : takePayload n ws = .error .truncatedCommand) : ws.length < n := by
  induction n generalizing ws with
  | zero => simp [takePayload] at h
  | succ n ih =>
    cases ws with
    | nil => simp
    | cons w ws =>
      simp only [takePayload] at h
      split at h
      · split at h
        · simp at h
        · rename_i e
          simp only [Except.error.injEq] at h
          subst h
          have := ih e
          simp only [List.length_cons]
          omega
      · simp at h

end Sys2Proof.Laws.Decode
end

