-- ==== Sys2Proof/Laws/HostSide.lean ====
section
/-! SUPPORT. What the host's taking of a command from the command stream gives (30_encoding.md R101, R108). -/

namespace Sys2Proof.Laws.HostSide

open Sys2Proof Sys2Proof.Machine

/-- The words handed over, up to the host's first move of another kind. -/
@[simp] theorem leadingWords_words (ws : List Word) (ops : List HostOp) :
    leadingWords (ws.map .word ++ ops) = ws ++ leadingWords ops := by
  induction ws with
  | nil => rfl
  | cons w ws ih => simp [leadingWords, ih]

/-- When the decoder takes exactly `ws` off the coming words, the fetch answers its command and leaves the moves after them. -/
theorem fetch_words {ws : List Word} {i : Instr} {ops : List HostOp}
    (h : decode (ws ++ leadingWords ops) = .ok (i, leadingWords ops)) : fetch (ws.map .word ++ ops) = .ok (i, ops) := by
  unfold fetch
  rw [leadingWords_words, h]
  simp only [List.length_append, Nat.add_sub_cancel]
  rw [List.drop_left' (by simp)]

/-- With no call open, the step on a word is the next command of the stream. -/
theorem step_word {s : State} {w : Word} {ops : List HostOp} (hr : s.seq = .ready) (hc : s.client = .idle)
    (hp : s.program = .word w :: ops) : step s = issueFetched s := by
  simp [step, hr, hostStep, hc, nextMove, hp]

end Sys2Proof.Laws.HostSide
end

