-- ==== Sys2Proof/Laws/State.lean ====
section
/-! SUPPORT. One lemma per field per update of the block and of the state, each by `rfl` or by cases on a line: later proofs rewrite with
these and unfold no update. -/

namespace Sys2Proof.Laws.StateFields

open Sys2Proof Sys2Proof.Machine

variable (b : Block) (s : State)


/-! ### tick -/

@[simp] theorem tick_cfg (k : Nat) : (b.tick k).cfg = b.cfg := rfl
@[simp] theorem tick_dirClock (k : Nat) : (b.tick k).dirClock = b.dirClock := rfl
@[simp] theorem tick_dirData (k : Nat) : (b.tick k).dirData = b.dirData := rfl
@[simp] theorem tick_latchClock (k : Nat) : (b.tick k).latchClock = b.latchClock := rfl
@[simp] theorem tick_latchData (k : Nat) : (b.tick k).latchData = b.latchData := rfl
@[simp] theorem tick_dr (k : Nat) : (b.tick k).dr = b.dr := rfl
@[simp] theorem tick_cnt (k : Nat) : (b.tick k).cnt = b.cnt := rfl
@[simp] theorem tick_done (k : Nat) : (b.tick k).done = b.done := rfl
@[simp] theorem tick_bus (k : Nat) : (b.tick k).bus = b.bus := rfl
@[simp] theorem tick_afterStart (k : Nat) : (b.tick k).afterStart = b.afterStart := rfl
@[simp] theorem tick_pollN (k : Nat) : (b.tick k).pollN = b.pollN := rfl
@[simp] theorem tick_lineHist (k : Nat) : (b.tick k).lineHist = b.lineHist ++ [b.levelsAfter] := rfl
@[simp] theorem tick_primHist (k : Nat) : (b.tick k).primHist = b.primHist := rfl
@[simp] theorem tick_env (k : Nat) : (b.tick k).env = b.env.tail := rfl
@[simp] theorem tick_ops (k : Nat) : (b.tick k).ops = b.ops + 1 := rfl
@[simp] theorem tick_time (k : Nat) : (b.tick k).time = b.time + k + Config.freeElapsed b.ops := rfl

/-! ### record -/

@[simp] theorem record_cfg (e : PrimEvent) : (b.record e).cfg = b.cfg := rfl
@[simp] theorem record_dirClock (e : PrimEvent) : (b.record e).dirClock = b.dirClock := rfl
@[simp] theorem record_dirData (e : PrimEvent) : (b.record e).dirData = b.dirData := rfl
@[simp] theorem record_latchClock (e : PrimEvent) : (b.record e).latchClock = b.latchClock := rfl
@[simp] theorem record_latchData (e : PrimEvent) : (b.record e).latchData = b.latchData := rfl
@[simp] theorem record_dr (e : PrimEvent) : (b.record e).dr = b.dr := rfl
@[simp] theorem record_cnt (e : PrimEvent) : (b.record e).cnt = b.cnt := rfl
@[simp] theorem record_done (e : PrimEvent) : (b.record e).done = b.done := rfl
@[simp] theorem record_bus (e : PrimEvent) : (b.record e).bus = b.bus := rfl
@[simp] theorem record_afterStart (e : PrimEvent) : (b.record e).afterStart = b.afterStart := rfl
@[simp] theorem record_pollN (e : PrimEvent) : (b.record e).pollN = b.pollN := rfl
@[simp] theorem record_lineHist (e : PrimEvent) : (b.record e).lineHist = b.lineHist := rfl
@[simp] theorem record_primHist (e : PrimEvent) : (b.record e).primHist = b.primHist ++ [e] := rfl
@[simp] theorem record_env (e : PrimEvent) : (b.record e).env = b.env := rfl
@[simp] theorem record_ops (e : PrimEvent) : (b.record e).ops = b.ops := rfl
@[simp] theorem record_time (e : PrimEvent) : (b.record e).time = b.time := rfl

/-! ### withLatch and withDir -/

@[simp] theorem withLatch_cfg (l : Line) (v : Bool) : (b.withLatch l v).cfg = b.cfg := by cases l <;> rfl
@[simp] theorem withLatch_dirClock (l : Line) (v : Bool) : (b.withLatch l v).dirClock = b.dirClock := by cases l <;> rfl
@[simp] theorem withLatch_dirData (l : Line) (v : Bool) : (b.withLatch l v).dirData = b.dirData := by cases l <;> rfl
@[simp] theorem withLatch_dr (l : Line) (v : Bool) : (b.withLatch l v).dr = b.dr := by cases l <;> rfl
@[simp] theorem withLatch_cnt (l : Line) (v : Bool) : (b.withLatch l v).cnt = b.cnt := by cases l <;> rfl
@[simp] theorem withLatch_done (l : Line) (v : Bool) : (b.withLatch l v).done = b.done := by cases l <;> rfl
@[simp] theorem withLatch_bus (l : Line) (v : Bool) : (b.withLatch l v).bus = b.bus := by cases l <;> rfl
@[simp] theorem withLatch_afterStart (l : Line) (v : Bool) : (b.withLatch l v).afterStart = b.afterStart := by cases l <;> rfl
@[simp] theorem withLatch_pollN (l : Line) (v : Bool) : (b.withLatch l v).pollN = b.pollN := by cases l <;> rfl
@[simp] theorem withLatch_lineHist (l : Line) (v : Bool) : (b.withLatch l v).lineHist = b.lineHist := by cases l <;> rfl
@[simp] theorem withLatch_primHist (l : Line) (v : Bool) : (b.withLatch l v).primHist = b.primHist := by cases l <;> rfl
@[simp] theorem withLatch_env (l : Line) (v : Bool) : (b.withLatch l v).env = b.env := by cases l <;> rfl
@[simp] theorem withLatch_ops (l : Line) (v : Bool) : (b.withLatch l v).ops = b.ops := by cases l <;> rfl
@[simp] theorem withLatch_time (l : Line) (v : Bool) : (b.withLatch l v).time = b.time := by cases l <;> rfl
@[simp] theorem withLatch_clock_latchClock (v : Bool) : (b.withLatch .clock v).latchClock = v := rfl
@[simp] theorem withLatch_clock_latchData (v : Bool) : (b.withLatch .clock v).latchData = b.latchData := rfl
@[simp] theorem withLatch_data_latchData (v : Bool) : (b.withLatch .data v).latchData = v := rfl
@[simp] theorem withLatch_data_latchClock (v : Bool) : (b.withLatch .data v).latchClock = b.latchClock := rfl
@[simp] theorem withDir_cfg (l : Line) (d : Dir) : (b.withDir l d).cfg = b.cfg := by cases l <;> rfl
@[simp] theorem withDir_latchClock (l : Line) (d : Dir) : (b.withDir l d).latchClock = b.latchClock := by cases l <;> rfl
@[simp] theorem withDir_latchData (l : Line) (d : Dir) : (b.withDir l d).latchData = b.latchData := by cases l <;> rfl
@[simp] theorem withDir_dr (l : Line) (d : Dir) : (b.withDir l d).dr = b.dr := by cases l <;> rfl
@[simp] theorem withDir_cnt (l : Line) (d : Dir) : (b.withDir l d).cnt = b.cnt := by cases l <;> rfl
@[simp] theorem withDir_done (l : Line) (d : Dir) : (b.withDir l d).done = b.done := by cases l <;> rfl
@[simp] theorem withDir_bus (l : Line) (d : Dir) : (b.withDir l d).bus = b.bus := by cases l <;> rfl
@[simp] theorem withDir_afterStart (l : Line) (d : Dir) : (b.withDir l d).afterStart = b.afterStart := by cases l <;> rfl
@[simp] theorem withDir_pollN (l : Line) (d : Dir) : (b.withDir l d).pollN = b.pollN := by cases l <;> rfl
@[simp] theorem withDir_lineHist (l : Line) (d : Dir) : (b.withDir l d).lineHist = b.lineHist := by cases l <;> rfl
@[simp] theorem withDir_primHist (l : Line) (d : Dir) : (b.withDir l d).primHist = b.primHist := by cases l <;> rfl
@[simp] theorem withDir_env (l : Line) (d : Dir) : (b.withDir l d).env = b.env := by cases l <;> rfl
@[simp] theorem withDir_ops (l : Line) (d : Dir) : (b.withDir l d).ops = b.ops := by cases l <;> rfl
@[simp] theorem withDir_time (l : Line) (d : Dir) : (b.withDir l d).time = b.time := by cases l <;> rfl
@[simp] theorem withDir_clock_dirClock (d : Dir) : (b.withDir .clock d).dirClock = d := rfl
@[simp] theorem withDir_clock_dirData (d : Dir) : (b.withDir .clock d).dirData = b.dirData := rfl
@[simp] theorem withDir_data_dirData (d : Dir) : (b.withDir .data d).dirData = d := rfl
@[simp] theorem withDir_data_dirClock (d : Dir) : (b.withDir .data d).dirClock = b.dirClock := rfl

/-! ### the micro-operations on a line -/

@[simp] theorem setHigh_cfg (l : Line) : (b.setHigh l).cfg = b.cfg := by cases l <;> rfl
@[simp] theorem setHigh_dirClock (l : Line) : (b.setHigh l).dirClock = b.dirClock := by cases l <;> rfl
@[simp] theorem setHigh_dirData (l : Line) : (b.setHigh l).dirData = b.dirData := by cases l <;> rfl
@[simp] theorem setHigh_dr (l : Line) : (b.setHigh l).dr = b.dr := by cases l <;> rfl
@[simp] theorem setHigh_cnt (l : Line) : (b.setHigh l).cnt = b.cnt := by cases l <;> rfl
@[simp] theorem setHigh_done (l : Line) : (b.setHigh l).done = b.done := by cases l <;> rfl
@[simp] theorem setHigh_bus (l : Line) : (b.setHigh l).bus = b.bus := by cases l <;> rfl
@[simp] theorem setHigh_afterStart (l : Line) : (b.setHigh l).afterStart = b.afterStart := by cases l <;> rfl
@[simp] theorem setHigh_pollN (l : Line) : (b.setHigh l).pollN = b.pollN := by cases l <;> rfl
@[simp] theorem setHigh_primHist (l : Line) : (b.setHigh l).primHist = b.primHist := by cases l <;> rfl
@[simp] theorem setHigh_env (l : Line) : (b.setHigh l).env = b.env.tail := by cases l <;> rfl
@[simp] theorem setHigh_ops (l : Line) : (b.setHigh l).ops = b.ops + 1 := by cases l <;> rfl
@[simp] theorem setHigh_clock_latchClock : (b.setHigh .clock).latchClock = true := rfl
@[simp] theorem setHigh_clock_latchData : (b.setHigh .clock).latchData = b.latchData := rfl
@[simp] theorem setHigh_data_latchData : (b.setHigh .data).latchData = true := rfl
@[simp] theorem setHigh_data_latchClock : (b.setHigh .data).latchClock = b.latchClock := rfl
@[simp] theorem setLow_cfg (l : Line) : (b.setLow l).cfg = b.cfg := by cases l <;> rfl
@[simp] theorem setLow_dirClock (l : Line) : (b.setLow l).dirClock = b.dirClock := by cases l <;> rfl
@[simp] theorem setLow_dirData (l : Line) : (b.setLow l).dirData = b.dirData := by cases l <;> rfl
@[simp] theorem setLow_dr (l : Line) : (b.setLow l).dr = b.dr := by cases l <;> rfl
@[simp] theorem setLow_cnt (l : Line) : (b.setLow l).cnt = b.cnt := by cases l <;> rfl
@[simp] theorem setLow_done (l : Line) : (b.setLow l).done = b.done := by cases l <;> rfl
@[simp] theorem setLow_bus (l : Line) : (b.setLow l).bus = b.bus := by cases l <;> rfl
@[simp] theorem setLow_afterStart (l : Line) : (b.setLow l).afterStart = b.afterStart := by cases l <;> rfl
@[simp] theorem setLow_pollN (l : Line) : (b.setLow l).pollN = b.pollN := by cases l <;> rfl
@[simp] theorem setLow_primHist (l : Line) : (b.setLow l).primHist = b.primHist := by cases l <;> rfl
@[simp] theorem setLow_env (l : Line) : (b.setLow l).env = b.env.tail := by cases l <;> rfl
@[simp] theorem setLow_ops (l : Line) : (b.setLow l).ops = b.ops + 1 := by cases l <;> rfl
@[simp] theorem setLow_clock_latchClock : (b.setLow .clock).latchClock = false := rfl
@[simp] theorem setLow_clock_latchData : (b.setLow .clock).latchData = b.latchData := rfl
@[simp] theorem setLow_data_latchData : (b.setLow .data).latchData = false := rfl
@[simp] theorem setLow_data_latchClock : (b.setLow .data).latchClock = b.latchClock := rfl
@[simp] theorem setDir_cfg (l : Line) (d : Dir) : (b.setDir l d).cfg = b.cfg := by cases l <;> rfl
@[simp] theorem setDir_latchClock (l : Line) (d : Dir) : (b.setDir l d).latchClock = b.latchClock := by cases l <;> rfl
@[simp] theorem setDir_latchData (l : Line) (d : Dir) : (b.setDir l d).latchData = b.latchData := by cases l <;> rfl
@[simp] theorem setDir_dr (l : Line) (d : Dir) : (b.setDir l d).dr = b.dr := by cases l <;> rfl
@[simp] theorem setDir_cnt (l : Line) (d : Dir) : (b.setDir l d).cnt = b.cnt := by cases l <;> rfl
@[simp] theorem setDir_done (l : Line) (d : Dir) : (b.setDir l d).done = b.done := by cases l <;> rfl
@[simp] theorem setDir_bus (l : Line) (d : Dir) : (b.setDir l d).bus = b.bus := by cases l <;> rfl
@[simp] theorem setDir_afterStart (l : Line) (d : Dir) : (b.setDir l d).afterStart = b.afterStart := by cases l <;> rfl
@[simp] theorem setDir_pollN (l : Line) (d : Dir) : (b.setDir l d).pollN = b.pollN := by cases l <;> rfl
@[simp] theorem setDir_primHist (l : Line) (d : Dir) : (b.setDir l d).primHist = b.primHist := by cases l <;> rfl
@[simp] theorem setDir_env (l : Line) (d : Dir) : (b.setDir l d).env = b.env.tail := by cases l <;> rfl
@[simp] theorem setDir_ops (l : Line) (d : Dir) : (b.setDir l d).ops = b.ops + 1 := by cases l <;> rfl
@[simp] theorem setDir_clock_dirClock (d : Dir) : (b.setDir .clock d).dirClock = d := rfl
@[simp] theorem setDir_clock_dirData (d : Dir) : (b.setDir .clock d).dirData = b.dirData := rfl
@[simp] theorem setDir_data_dirData (d : Dir) : (b.setDir .data d).dirData = d := rfl
@[simp] theorem setDir_data_dirClock (d : Dir) : (b.setDir .data d).dirClock = b.dirClock := rfl

/-! ### the other micro-operations -/

@[simp] theorem loadDR_cfg (v : Byte) : (b.loadDR v).cfg = b.cfg := rfl
@[simp] theorem loadDR_dirClock (v : Byte) : (b.loadDR v).dirClock = b.dirClock := rfl
@[simp] theorem loadDR_dirData (v : Byte) : (b.loadDR v).dirData = b.dirData := rfl
@[simp] theorem loadDR_latchClock (v : Byte) : (b.loadDR v).latchClock = b.latchClock := rfl
@[simp] theorem loadDR_latchData (v : Byte) : (b.loadDR v).latchData = b.latchData := rfl
@[simp] theorem loadDR_dr (v : Byte) : (b.loadDR v).dr = v := rfl
@[simp] theorem loadDR_cnt (v : Byte) : (b.loadDR v).cnt = b.cnt := rfl
@[simp] theorem loadDR_done (v : Byte) : (b.loadDR v).done = b.done := rfl
@[simp] theorem loadDR_bus (v : Byte) : (b.loadDR v).bus = b.bus := rfl
@[simp] theorem loadDR_afterStart (v : Byte) : (b.loadDR v).afterStart = b.afterStart := rfl
@[simp] theorem loadDR_pollN (v : Byte) : (b.loadDR v).pollN = b.pollN := rfl
@[simp] theorem loadDR_primHist (v : Byte) : (b.loadDR v).primHist = b.primHist := rfl
@[simp] theorem loadDR_env (v : Byte) : (b.loadDR v).env = b.env.tail := rfl
@[simp] theorem loadDR_ops (v : Byte) : (b.loadDR v).ops = b.ops + 1 := rfl
@[simp] theorem loadSR_cfg (cw : Byte) : (b.loadSR cw).cfg = b.cfg := rfl
@[simp] theorem loadSR_dirClock (cw : Byte) : (b.loadSR cw).dirClock = b.dirClock := rfl
@[simp] theorem loadSR_dirData (cw : Byte) : (b.loadSR cw).dirData = b.dirData := rfl
@[simp] theorem loadSR_latchClock (cw : Byte) : (b.loadSR cw).latchClock = b.latchClock := rfl
@[simp] theorem loadSR_latchData (cw : Byte) : (b.loadSR cw).latchData = b.latchData := rfl
@[simp] theorem loadSR_dr (cw : Byte) : (b.loadSR cw).dr = b.dr := rfl
@[simp] theorem loadSR_cnt (cw : Byte) : (b.loadSR cw).cnt = loadCnt cw := rfl
@[simp] theorem loadSR_done (cw : Byte) : (b.loadSR cw).done = loadDone cw b.done := rfl
@[simp] theorem loadSR_bus (cw : Byte) : (b.loadSR cw).bus = b.bus := rfl
@[simp] theorem loadSR_afterStart (cw : Byte) : (b.loadSR cw).afterStart = b.afterStart := rfl
@[simp] theorem loadSR_pollN (cw : Byte) : (b.loadSR cw).pollN = b.pollN := rfl
@[simp] theorem loadSR_primHist (cw : Byte) : (b.loadSR cw).primHist = b.primHist := rfl
@[simp] theorem loadSR_env (cw : Byte) : (b.loadSR cw).env = b.env.tail := rfl
@[simp] theorem loadSR_ops (cw : Byte) : (b.loadSR cw).ops = b.ops + 1 := rfl
@[simp] theorem readOnly_cfg : (b.readOnly).cfg = b.cfg := rfl
@[simp] theorem readOnly_dirClock : (b.readOnly).dirClock = b.dirClock := rfl
@[simp] theorem readOnly_dirData : (b.readOnly).dirData = b.dirData := rfl
@[simp] theorem readOnly_latchClock : (b.readOnly).latchClock = b.latchClock := rfl
@[simp] theorem readOnly_latchData : (b.readOnly).latchData = b.latchData := rfl
@[simp] theorem readOnly_dr : (b.readOnly).dr = b.dr := rfl
@[simp] theorem readOnly_cnt : (b.readOnly).cnt = b.cnt := rfl
@[simp] theorem readOnly_done : (b.readOnly).done = b.done := rfl
@[simp] theorem readOnly_bus : (b.readOnly).bus = b.bus := rfl
@[simp] theorem readOnly_afterStart : (b.readOnly).afterStart = b.afterStart := rfl
@[simp] theorem readOnly_pollN : (b.readOnly).pollN = b.pollN := rfl
@[simp] theorem readOnly_primHist : (b.readOnly).primHist = b.primHist := rfl
@[simp] theorem readOnly_env : (b.readOnly).env = b.env.tail := rfl
@[simp] theorem readOnly_ops : (b.readOnly).ops = b.ops + 1 := rfl
@[simp] theorem delay_cfg (k : DelaySel) : (b.delay k).cfg = b.cfg := rfl
@[simp] theorem delay_dirClock (k : DelaySel) : (b.delay k).dirClock = b.dirClock := rfl
@[simp] theorem delay_dirData (k : DelaySel) : (b.delay k).dirData = b.dirData := rfl
@[simp] theorem delay_latchClock (k : DelaySel) : (b.delay k).latchClock = b.latchClock := rfl
@[simp] theorem delay_latchData (k : DelaySel) : (b.delay k).latchData = b.latchData := rfl
@[simp] theorem delay_dr (k : DelaySel) : (b.delay k).dr = b.dr := rfl
@[simp] theorem delay_cnt (k : DelaySel) : (b.delay k).cnt = b.cnt := rfl
@[simp] theorem delay_done (k : DelaySel) : (b.delay k).done = b.done := rfl
@[simp] theorem delay_bus (k : DelaySel) : (b.delay k).bus = b.bus := rfl
@[simp] theorem delay_afterStart (k : DelaySel) : (b.delay k).afterStart = b.afterStart := rfl
@[simp] theorem delay_pollN (k : DelaySel) : (b.delay k).pollN = b.pollN := rfl
@[simp] theorem delay_primHist (k : DelaySel) : (b.delay k).primHist = b.primHist := rfl
@[simp] theorem delay_env (k : DelaySel) : (b.delay k).env = b.env.tail := rfl
@[simp] theorem delay_ops (k : DelaySel) : (b.delay k).ops = b.ops + 1 := rfl
@[simp] theorem risingStrobe_cfg : (b.risingStrobe).cfg = b.cfg := rfl
@[simp] theorem risingStrobe_dirClock : (b.risingStrobe).dirClock = b.dirClock := rfl
@[simp] theorem risingStrobe_dirData : (b.risingStrobe).dirData = b.dirData := rfl
@[simp] theorem risingStrobe_latchClock : (b.risingStrobe).latchClock = true := rfl
@[simp] theorem risingStrobe_latchData : (b.risingStrobe).latchData = b.latchData := rfl
@[simp] theorem risingStrobe_dr : (b.risingStrobe).dr = b.dr := rfl
@[simp] theorem risingStrobe_cnt : (b.risingStrobe).cnt = countUp b.cnt := rfl
@[simp] theorem risingStrobe_done : (b.risingStrobe).done = doneAfter (countUp b.cnt) b.done := rfl
@[simp] theorem risingStrobe_bus : (b.risingStrobe).bus = b.bus := rfl
@[simp] theorem risingStrobe_afterStart : (b.risingStrobe).afterStart = b.afterStart := rfl
@[simp] theorem risingStrobe_pollN : (b.risingStrobe).pollN = b.pollN := rfl
@[simp] theorem risingStrobe_primHist : (b.risingStrobe).primHist = b.primHist := rfl
@[simp] theorem risingStrobe_env : (b.risingStrobe).env = b.env.tail := rfl
@[simp] theorem risingStrobe_ops : (b.risingStrobe).ops = b.ops + 1 := rfl
@[simp] theorem fallingStrobe_cfg : (b.fallingStrobe).cfg = b.cfg := rfl
@[simp] theorem fallingStrobe_dirClock : (b.fallingStrobe).dirClock = b.dirClock := rfl
@[simp] theorem fallingStrobe_dirData : (b.fallingStrobe).dirData = b.dirData := rfl
@[simp] theorem fallingStrobe_latchClock : (b.fallingStrobe).latchClock = false := rfl
@[simp] theorem fallingStrobe_latchData : (b.fallingStrobe).latchData = b.latchData := rfl
@[simp] theorem fallingStrobe_dr : (b.fallingStrobe).dr = shiftIn b.dr (b.sample .data) := rfl
@[simp] theorem fallingStrobe_cnt : (b.fallingStrobe).cnt = countUp b.cnt := rfl
@[simp] theorem fallingStrobe_done : (b.fallingStrobe).done = doneAfter (countUp b.cnt) b.done := rfl
@[simp] theorem fallingStrobe_bus : (b.fallingStrobe).bus = b.bus := rfl
@[simp] theorem fallingStrobe_afterStart : (b.fallingStrobe).afterStart = b.afterStart := rfl
@[simp] theorem fallingStrobe_pollN : (b.fallingStrobe).pollN = b.pollN := rfl
@[simp] theorem fallingStrobe_primHist : (b.fallingStrobe).primHist = b.primHist := rfl
@[simp] theorem fallingStrobe_env : (b.fallingStrobe).env = b.env.tail := rfl
@[simp] theorem fallingStrobe_ops : (b.fallingStrobe).ops = b.ops + 1 := rfl

/-! ### entering a transfer -/

@[simp] theorem enterTransfer_cfg (w : Width) : (b.enterTransfer w).cfg = b.cfg := by cases w <;> rfl
@[simp] theorem enterTransfer_dirClock (w : Width) : (b.enterTransfer w).dirClock = b.dirClock := by cases w <;> rfl
@[simp] theorem enterTransfer_dirData (w : Width) : (b.enterTransfer w).dirData = b.dirData := by cases w <;> rfl
@[simp] theorem enterTransfer_latchClock (w : Width) : (b.enterTransfer w).latchClock = b.latchClock := by cases w <;> rfl
@[simp] theorem enterTransfer_latchData (w : Width) : (b.enterTransfer w).latchData = b.latchData := by cases w <;> rfl
@[simp] theorem enterTransfer_dr (w : Width) : (b.enterTransfer w).dr = b.dr := by cases w <;> rfl
@[simp] theorem enterTransfer_cnt (w : Width) : (b.enterTransfer w).cnt = b.cnt := by cases w <;> rfl
@[simp] theorem enterTransfer_done (w : Width) : (b.enterTransfer w).done = b.done := by cases w <;> rfl
@[simp] theorem enterTransfer_pollN (w : Width) : (b.enterTransfer w).pollN = b.pollN := by cases w <;> rfl
@[simp] theorem enterTransfer_lineHist (w : Width) : (b.enterTransfer w).lineHist = b.lineHist := by cases w <;> rfl
@[simp] theorem enterTransfer_primHist (w : Width) : (b.enterTransfer w).primHist = b.primHist := by cases w <;> rfl
@[simp] theorem enterTransfer_env (w : Width) : (b.enterTransfer w).env = b.env := by cases w <;> rfl
@[simp] theorem enterTransfer_ops (w : Width) : (b.enterTransfer w).ops = b.ops := by cases w <;> rfl
@[simp] theorem enterTransfer_time (w : Width) : (b.enterTransfer w).time = b.time := by cases w <;> rfl

/-! ### the state -/

@[simp] theorem finish_blk (c : Block) (r : Result) : (s.finish c r).blk = c := rfl
@[simp] theorem finish_seq (c : Block) (r : Result) : (s.finish c r).seq = .ready := rfl
@[simp] theorem finish_result (c : Block) (r : Result) : (s.finish c r).result = some r := rfl
@[simp] theorem finish_program (c : Block) (r : Result) : (s.finish c r).program = s.program := rfl
@[simp] theorem finish_client (c : Block) (r : Result) : (s.finish c r).client = s.client := rfl
@[simp] theorem finish_clientLog (c : Block) (r : Result) : (s.finish c r).clientLog = s.clientLog := rfl
@[simp] theorem finish_inbox (c : Block) (r : Result) : (s.finish c r).inbox = s.inbox := rfl
@[simp] theorem complete_blk (c : Block) (v : ResultValue) : (s.complete c v).blk = c := rfl
@[simp] theorem complete_seq (c : Block) (v : ResultValue) : (s.complete c v).seq = .ready := rfl
@[simp] theorem complete_result (c : Block) (v : ResultValue) : (s.complete c v).result = some ⟨.ok, v⟩ := rfl
@[simp] theorem complete_program (c : Block) (v : ResultValue) : (s.complete c v).program = s.program := rfl
@[simp] theorem complete_client (c : Block) (v : ResultValue) : (s.complete c v).client = s.client := rfl
@[simp] theorem complete_clientLog (c : Block) (v : ResultValue) : (s.complete c v).clientLog = s.clientLog := rfl
@[simp] theorem complete_inbox (c : Block) (v : ResultValue) : (s.complete c v).inbox = s.inbox := rfl
@[simp] theorem goto_blk (c : Block) (q : Seq) : (s.goto c q).blk = c := rfl
@[simp] theorem goto_seq (c : Block) (q : Seq) : (s.goto c q).seq = q := rfl
@[simp] theorem goto_result (c : Block) (q : Seq) : (s.goto c q).result = s.result := rfl
@[simp] theorem goto_program (c : Block) (q : Seq) : (s.goto c q).program = s.program := rfl
@[simp] theorem goto_client (c : Block) (q : Seq) : (s.goto c q).client = s.client := rfl
@[simp] theorem goto_clientLog (c : Block) (q : Seq) : (s.goto c q).clientLog = s.clientLog := rfl
@[simp] theorem goto_inbox (c : Block) (q : Seq) : (s.goto c q).inbox = s.inbox := rfl
@[simp] theorem raiseBusTimeout_blk (c : Block) (l : Line) : (s.raiseBusTimeout c l).blk = c := rfl
@[simp] theorem raiseBusTimeout_seq (c : Block) (l : Line) : (s.raiseBusTimeout c l).seq = .recover .r1 l := rfl
@[simp] theorem raiseBusTimeout_result (c : Block) (l : Line) : (s.raiseBusTimeout c l).result = s.result := rfl
@[simp] theorem raiseBusTimeout_program (c : Block) (l : Line) : (s.raiseBusTimeout c l).program = s.program := rfl
@[simp] theorem raiseBusTimeout_client (c : Block) (l : Line) : (s.raiseBusTimeout c l).client = s.client := rfl
@[simp] theorem raiseBusTimeout_clientLog (c : Block) (l : Line) : (s.raiseBusTimeout c l).clientLog = s.clientLog := rfl
@[simp] theorem raiseBusTimeout_inbox (c : Block) (l : Line) : (s.raiseBusTimeout c l).inbox = s.inbox := rfl
@[simp] theorem returnBusTimeout_blk (c : Block) (l : Line) : (s.returnBusTimeout c l).blk = { c with bus := .idle, afterStart := false, pollN := 0 } := rfl
@[simp] theorem returnBusTimeout_seq (c : Block) (l : Line) : (s.returnBusTimeout c l).seq = .ready := rfl
@[simp] theorem returnBusTimeout_result (c : Block) (l : Line) : (s.returnBusTimeout c l).result = some ⟨.busTimeout, .line l⟩ := rfl
@[simp] theorem returnBusTimeout_program (c : Block) (l : Line) : (s.returnBusTimeout c l).program = s.program := rfl
@[simp] theorem returnBusTimeout_client (c : Block) (l : Line) : (s.returnBusTimeout c l).client = s.client := rfl
@[simp] theorem returnBusTimeout_clientLog (c : Block) (l : Line) : (s.returnBusTimeout c l).clientLog = s.clientLog := rfl
@[simp] theorem returnBusTimeout_inbox (c : Block) (l : Line) : (s.returnBusTimeout c l).inbox = s.inbox := rfl
@[simp] theorem clientReturns_blk (c : ClientReturn) : (s.clientReturns c).blk = s.blk := rfl
@[simp] theorem clientReturns_seq (c : ClientReturn) : (s.clientReturns c).seq = s.seq := rfl
@[simp] theorem clientReturns_result (c : ClientReturn) : (s.clientReturns c).result = s.result := rfl
@[simp] theorem clientReturns_program (c : ClientReturn) : (s.clientReturns c).program = s.program := rfl
@[simp] theorem clientReturns_client (c : ClientReturn) : (s.clientReturns c).client = .idle := rfl
@[simp] theorem clientReturns_clientLog (c : ClientReturn) : (s.clientReturns c).clientLog = s.clientLog ++ [c] := rfl
@[simp] theorem clientReturns_inbox (c : ClientReturn) : (s.clientReturns c).inbox = s.inbox := rfl
@[simp] theorem conversionWait_seq (s1 : Status) : (s.conversionWait s1).seq = s.seq := rfl
@[simp] theorem conversionWait_result (s1 : Status) : (s.conversionWait s1).result = s.result := rfl
@[simp] theorem conversionWait_program (s1 : Status) : (s.conversionWait s1).program = s.program := rfl
@[simp] theorem conversionWait_client (s1 : Status) : (s.conversionWait s1).client = .waited s1 := rfl
@[simp] theorem conversionWait_clientLog (s1 : Status) : (s.conversionWait s1).clientLog = s.clientLog := rfl
@[simp] theorem conversionWait_inbox (s1 : Status) : (s.conversionWait s1).inbox = s.inbox := rfl

end Sys2Proof.Laws.StateFields
end

