-- ==== Sys2Proof/Laws/Ops.lean ====
section
/-! SUPPORT. One lemma per shared operation: everything it can do. -/

namespace Sys2Proof.Laws.Ops

open Sys2Proof Sys2Proof.Machine

variable {b c : Block} {l : Line}

/-! ### The wires -/

/-- A sample of 1: the master does not drive the line low and nothing else does (R63). -/
theorem sample_eq_true : b.sample l = true ↔ b.drivesLow l = false ∧ envLow b.answer l = false := by
  simp [Block.sample, Block.level]

/-- CLOCK samples 1 when the master has released it and nothing else holds it low. -/
theorem sample_clock (h : b.latchClock = true) : b.sample .clock = !b.answer.clockLow := by
  simp [Block.sample, Block.level, Block.drivesLow, Block.drivesClockLow, envLow, h]

/-- DATA in input direction samples the environment's drive alone (R62). -/
theorem sample_data_input (h : b.dirData = .input) : b.sample .data = !b.answer.dataLow := by
  simp [Block.sample, Block.level, Block.drivesLow, Block.drivesDataLow, envLow, h]

/-- DATA in output direction with the latch released samples the wired AND of `DR[7]` and the environment (R129). -/
theorem sample_data_output (h : b.dirData = .output) (hl : b.latchData = true) :
    b.sample .data = (b.dr.getLsbD 7 && !b.answer.dataLow) := by
  simp [Block.sample, Block.level, Block.drivesLow, Block.drivesDataLow, envLow, h, hl]

/-! ### The environment's answers -/

theorem answer_eq : b.answer = b.answerAt 0 := by
  unfold Block.answer Block.answerAt
  cases b.env <;> simp

theorem answerAt_of_env (h : c.env = b.env) (ho : c.ops = b.ops) (k : Nat) : c.answerAt k = b.answerAt k := by
  simp [Block.answerAt, h, ho]

/-- One micro-operation later, the answers ahead are one nearer. -/
theorem answerAt_next (h : c.env = b.env.tail) (ho : c.ops = b.ops + 1) (k : Nat) : c.answerAt k = b.answerAt (k + 1) := by
  unfold Block.answerAt
  rw [h, ho]
  cases b.env with
  | nil => simp [Nat.add_comm, Nat.add_left_comm]
  | cons a env => simp [Nat.add_assoc, Nat.add_comm 1 k]

/-- `n` micro-operations later. -/
theorem answerAt_drop {n : Nat} (h : c.env = b.env.drop n) (ho : c.ops = b.ops + n) (k : Nat) :
    c.answerAt k = b.answerAt (n + k) := by
  unfold Block.answerAt
  rw [h, ho, List.getElem?_drop, Nat.add_assoc]

/-! ### STROBE -/

theorem strobe_rising (h : b.latchClock = false) : b.strobe = some b.risingStrobe := by
  simp [Block.strobe, h]

theorem strobe_falling (h : b.latchClock = true) (hc : b.sample .clock = true) : b.strobe = some b.fallingStrobe := by
  simp [Block.strobe, h, hc]

theorem strobe_refused (h : b.latchClock = true) (hc : b.sample .clock = false) : b.strobe = none := by
  simp [Block.strobe, h, hc]

/-- Everything a strobe can do (R129). -/
theorem strobe_cases (h : b.strobe = some c) :
    (b.latchClock = false ∧ c = b.risingStrobe) ∨
    (b.latchClock = true ∧ b.sample .clock = true ∧ c = b.fallingStrobe) := by
  unfold Block.strobe at h
  split at h
  · split at h
    · exact .inr ⟨‹_›, ‹_›, by simpa using h.symm⟩
    · cases h
  · exact .inl ⟨by simpa using ‹¬ b.latchClock = true›, by simpa using h.symm⟩

/-! ### WAITHIGH -/

theorem poll_high (h : b.sample l = true) : b.poll l = .high ({ b with pollN := 0 }.tick 0) := by
  simp [Block.poll, h]

theorem poll_again_unbounded (h : b.sample l = false) (hl : b.cfg.pollLimit = none) : b.poll l = .again (b.tick 0) := by
  simp [Block.poll, h, hl]

theorem poll_again_bounded {n : Nat} (h : b.sample l = false) (hl : b.cfg.pollLimit = some n) (hn : b.pollN + 1 < n) :
    b.poll l = .again ({ b with pollN := b.pollN + 1 }.tick 0) := by
  simp [Block.poll, h, hl, Nat.not_le.mpr hn]

theorem poll_timeout {n : Nat} (h : b.sample l = false) (hl : b.cfg.pollLimit = some n) (hn : n ≤ b.pollN + 1) :
    b.poll l = .timeout (b.tick 0) := by
  simp [Block.poll, h, hl, hn]

/-- Everything one poll can do (R131): `poll_n` is all it writes. -/
theorem poll_cases (b : Block) (l : Line) :
    (b.sample l = true ∧ b.poll l = .high ({ b with pollN := 0 }.tick 0)) ∨
    (b.sample l = false ∧ b.cfg.pollLimit = none ∧ b.poll l = .again (b.tick 0)) ∨
    (∃ n, b.sample l = false ∧ b.cfg.pollLimit = some n ∧ b.pollN + 1 < n ∧
      b.poll l = .again ({ b with pollN := b.pollN + 1 }.tick 0)) ∨
    (∃ n, b.sample l = false ∧ b.cfg.pollLimit = some n ∧ n ≤ b.pollN + 1 ∧ b.poll l = .timeout (b.tick 0)) := by
  by_cases h : b.sample l = true
  · exact .inl ⟨h, poll_high h⟩
  · have h : b.sample l = false := by simpa using h
    cases hl : b.cfg.pollLimit with
    | none => exact .inr (.inl ⟨h, rfl, poll_again_unbounded h hl⟩)
    | some n =>
      by_cases hn : n ≤ b.pollN + 1
      · exact .inr (.inr (.inr ⟨n, h, rfl, hn, poll_timeout h hl hn⟩))
      · exact .inr (.inr (.inl ⟨n, h, rfl, by omega, poll_again_bounded h hl (by omega)⟩))

/-! ### A poll and a strobe inside a listing -/

section

variable {π ρ : Type} {here next : π} {r : Adv π ρ}

/-- Everything a `WAITHIGH` inside a listing can do: go on after a sample of 1, stay with `poll_n` kept or counted below the limit, time
out. -/
theorem pollAdv_cases (h : pollAdv b l here next = r) :
    (r = .goto next ({ b with pollN := 0 }.tick 0) ∧ b.sample l = true) ∨
    (∃ k, r = .goto here ({ b with pollN := k }.tick 0) ∧ (k = b.pollN ∨ ∃ n, b.cfg.pollLimit = some n ∧ k < n)) ∨
    r = .timeout l (b.tick 0) := by
  subst h
  rcases poll_cases b l with ⟨h, e⟩ | ⟨-, -, e⟩ | ⟨n, -, hl, hn, e⟩ | ⟨n, -, -, -, e⟩ <;> simp only [pollAdv, e]
  · exact .inl ⟨trivial, h⟩
  · exact .inr (.inl ⟨b.pollN, rfl, .inl rfl⟩)
  · exact .inr (.inl ⟨b.pollN + 1, rfl, .inr ⟨n, hl, hn⟩⟩)
  · exact .inr (.inr trivial)

/-- Everything a `STROBE` inside a listing can do. -/
theorem strobeAdv_cases (h : strobeAdv b next = r) :
    (r = .goto next b.risingStrobe ∧ b.latchClock = false) ∨
    (r = .goto next b.fallingStrobe ∧ b.latchClock = true ∧ b.sample .clock = true) ∨
    (r = .refuse .fallingStrobeWhileClockLow ∧ b.latchClock = true ∧ b.sample .clock = false) := by
  subst h
  unfold strobeAdv
  by_cases hl : b.latchClock = true
  · by_cases hs : b.sample .clock = true
    · rw [strobe_falling hl hs]
      exact .inr (.inl ⟨rfl, hl, hs⟩)
    · have hs : b.sample .clock = false := by simpa using hs
      rw [strobe_refused hl hs]
      exact .inr (.inr ⟨rfl, hl, hs⟩)
  · have hl : b.latchClock = false := by simpa using hl
    rw [strobe_rising hl]
    exact .inl ⟨rfl, hl⟩

end

/-! ### Commands and listings seen from the state -/

theorem issue_ready {s : State} (h : s.seq = .ready) (o : Out) : s.issue o = o := by
  simp [State.issue, h]

theorem issue_running {s : State} (h : s.seq ≠ .ready) (o : Out) : s.issue o = .refused .commandRunning := by
  unfold State.issue
  split
  · exact absurd ‹_› h
  · rfl

theorem require_true {p : Bool} (h : p = true) (r : Refusal) (o : Out) : require p r o = o := by simp [require, h]

theorem require_false {p : Bool} (h : p = false) (r : Refusal) (o : Out) : require p r o = .refused r := by simp [require, h]

/-- A command's next state comes from one of three ends of its listing's step: a new label, a return, a poll run out. -/
theorem runListing_next {π ρ : Type} {s t : State} {r : Adv π ρ} {position : π → Seq} {done : ρ → Block → State}
    (h : s.runListing r position done = .next t) :
    (∃ p c, r = .goto p c ∧ t = s.goto c (position p)) ∨
    (∃ v c, r = .ret v c ∧ t = done v c) ∨
    (∃ l c, r = .timeout l c ∧ t = s.raiseBusTimeout c l) := by
  cases r with
  | goto p c => exact .inl ⟨p, c, rfl, by simpa [State.runListing] using h.symm⟩
  | ret v c => exact .inr (.inl ⟨v, c, rfl, by simpa [State.runListing] using h.symm⟩)
  | timeout l c => exact .inr (.inr ⟨l, c, rfl, by simpa [State.runListing] using h.symm⟩)
  | refuse e => simp [State.runListing] at h

/-- A step that runs a command runs one micro-operation of it. -/
theorem step_running {s : State} (h : s.seq ≠ .ready) : step s = seqStep s := by
  unfold step
  split
  · exact absurd ‹_› h
  · rfl

/-- A step with no command running is a move of the host. -/
theorem step_ready {s : State} (h : s.seq = .ready) : step s = hostStep s := by
  simp [step, h]

end Sys2Proof.Laws.Ops
end

