-- ==== Sys2Proof/Laws/Invariant.lean ====
section
/-! SUPPORT. What one micro-operation of each listing keeps of the invariant of Sys2Proof/Safety.lean, and how the listing returns. -/

namespace Sys2Proof.Laws.Invariant

open Sys2Proof Sys2Proof.Machine

/-- `poll_n` is 0 or below a finite limit (R131). -/
def PollBound (b : Block) : Prop := b.pollN = 0 ∨ ∃ limit, b.cfg.pollLimit = some limit ∧ b.pollN < limit

/-- The registers of R36, but for `DR`. -/
def RestState (c : Block) : Prop :=
  c.dirClock = .output ∧ c.dirData = .output ∧ c.latchClock = true ∧ c.latchData = true ∧ c.cnt = 0#4 ∧ c.done = true ∧
  c.bus = .idle ∧ c.afterStart = false ∧ c.pollN = 0

/-- `transfer` (R151): a running transfer of width `w` stays one, and returns with CLOCK low, the count wrapped and `DONE` set. It leaves
DATA's direction and latch alone. -/
theorem xferAdv_keeps {w : Width} {x : XferPos} {b : Block} (hi : XferInv w x b) (hp : PollBound b) (hz : x.poll = none → b.pollN = 0) :
    match xferAdv x b with
    | .goto y c => XferInv w y c ∧ PollBound c ∧ (y.poll = none → c.pollN = 0) ∧ c.dirData = b.dirData ∧ c.latchData = b.latchData ∧
        (w = .one → (∀ p, PatternInv p x b → PatternInv p y c)) ∧ (∀ w, y ≠ .x1 w) ∧ (b.afterStart = false → c.afterStart = false)
    | .ret v c => TransferPhase w c ∧ ClockLow c ∧ TransferDone c ∧ c.pollN = 0 ∧ c.dirData = b.dirData ∧ c.latchData = b.latchData ∧
        c.dr = v ∧
        (w = .one → ∀ p, PatternInv p x b → c.dr.extractLsb' 1 7 = (ackOrNack p).extractLsb' 0 7) ∧
        (b.afterStart = false → c.afterStart = false)
    | .timeout _ c => PollBound c
    | .refuse e => e = .fallingStrobeWhileClockLow := by
  obtain ⟨hph, hi⟩ := hi
  cases x with
  | x1 w' =>
    obtain ⟨rfl, hc1, hc2⟩ := hi
    have : b.clockDrivenLow = true := by simp [Block.clockDrivenLow, hc1, hc2]
    have hz := hz rfl
    cases w' <;> simp_all [xferAdv, XferInv, TransferPhase, PollBound, XferPos.poll, ClockLow, PatternInv, Block.enterTransfer,
        CountLow, loadDone, loadCnt, controlWord]
  | x2 c =>
    have hz := hz rfl
    cases w <;> simp_all [xferAdv, XferInv, TransferPhase, PollBound, XferPos.poll, ClockLow, PatternInv, CountLow]
  | x3 c =>
    have hz := hz rfl
    obtain ⟨hw, hc, hd, hn⟩ := hi
    have e : strobeAdv (ρ := Byte) b (XferPos.x4 c) = .goto (.x4 c) b.risingStrobe := by
      rw [strobeAdv, Ops.strobe_rising hc.2]
    have hcount : CountHigh w (countUp b.cnt) ∧ doneAfter (countUp b.cnt) b.done = false := by
      rw [hd]; revert hn; generalize b.cnt = n; cases w <;> simp only [CountLow, CountHigh] <;> revert n <;> decide
    cases w <;> simp_all [xferAdv, XferInv, TransferPhase, PollBound, XferPos.poll, ClockLow, PatternInv, ClockReleased]
  | x4 c =>
    simp only [xferAdv]
    generalize e : pollAdv b .clock (XferPos.x4 c) (XferPos.x5 c) = r
    rcases Ops.pollAdv_cases (ρ := Byte) e with ⟨rfl, _⟩ | ⟨k, rfl, hk⟩ | rfl
    · cases w <;> simp_all [XferInv, TransferPhase, PollBound, XferPos.poll, ClockReleased, PatternInv, CountHigh]
    · have : k = 0 ∨ ∃ n, b.cfg.pollLimit = some n ∧ k < n := by
        rcases hk with rfl | h
        · exact hp
        · exact .inr h
      cases w <;> simp_all [XferInv, TransferPhase, PollBound, XferPos.poll, ClockReleased, PatternInv, CountHigh]
    · exact hp
  | x5 c =>
    have hz := hz rfl
    cases w <;> simp_all [xferAdv, XferInv, TransferPhase, PollBound, XferPos.poll, ClockReleased, PatternInv, CountHigh]
  | x6 c =>
    have hz := hz rfl
    obtain ⟨hw, hc, hd, hn⟩ := hi
    simp only [xferAdv]
    generalize e : strobeAdv (ρ := Byte) b (XferPos.x7 c) = r
    rcases Ops.strobeAdv_cases e with ⟨rfl, h⟩ | ⟨rfl, h⟩ | ⟨rfl, h⟩
    · simp [ClockReleased] at hc; simp_all
    · have hcount : CountTest w (countUp b.cnt) ∧ (doneAfter (countUp b.cnt) b.done = true ↔ countUp b.cnt = 0#4) := by
        rw [hd]; revert hn; generalize b.cnt = n; cases w <;> simp only [CountHigh, CountTest] <;> revert n <;> decide
      have hpat : ∀ p, PatternInv p (.x6 c) b → PatternInv p (.x7 c) b.fallingStrobe := by
        intro p hp
        simp only [PatternInv] at *
        rw [← hp]
        simp only [StateFields.fallingStrobe_dr, shiftIn]
        generalize b.dr = d
        generalize BitVec.ofBool (b.sample .data) = e
        revert d e; decide
      cases w <;> simp_all [XferInv, TransferPhase, PollBound, XferPos.poll, ClockLow, ClockReleased]
    · rfl
  | x7 c =>
    have hz := hz rfl
    obtain ⟨hw, hc, hd, hn⟩ := hi
    simp only [xferAdv]
    by_cases hdone : b.done = true
    · rw [if_pos hdone]
      simp_all [TransferPhase, Block.record, ClockLow, TransferDone, PatternInv]
    · rw [if_neg hdone]
      have hw' : w = .eight := by cases w <;> simp_all [CountTest]
      subst hw'
      simp_all [XferInv, TransferPhase, PollBound, XferPos.poll, ClockLow, PatternInv, CountLow, CountTest]

/-- `generateStart` (R152): it cannot be refused once it runs, and returns in the state of R156. -/
theorem startAdv_keeps {p : StartPos} {b : Block} (hi : StartInv p b) (hp : PollBound b) (hz : p.poll = none → b.pollN = 0) :
    match startAdv p b with
    | .goto y c => StartInv y c ∧ PollBound c ∧ (y.poll = none → c.pollN = 0)
    | .ret _ c => PinsOutput c ∧ c.latchClock = false ∧ c.latchData = true ∧ c.bus = .start ∧ c.afterStart = true ∧ c.pollN = 0
    | .timeout _ c => PollBound c
    | .refuse _ => False := by
  obtain ⟨h1, h2, h3, hi⟩ := hi
  cases p with
  | s1 => exact hi.elim
  | s2 =>
    simp only [startAdv]
    generalize e : pollAdv b .clock StartPos.s2 StartPos.s3 = r
    rcases Ops.pollAdv_cases (ρ := Unit) e with ⟨rfl, _⟩ | ⟨k, rfl, hk⟩ | rfl
    · simp_all [StartInv, PollBound, PinsOutput, StartPos.poll]
    · have : k = 0 ∨ ∃ n, b.cfg.pollLimit = some n ∧ k < n := by
        rcases hk with rfl | h
        · exact hp
        · exact .inr h
      simp_all [StartInv, PollBound, PinsOutput, StartPos.poll]
    · exact hp
  | s3 => have hz := hz rfl; simp_all [startAdv, StartInv, PollBound, PinsOutput, StartPos.poll]
  | s4 => have hz := hz rfl; simp_all [startAdv, StartInv, PollBound, PinsOutput, StartPos.poll]
  | s5 => have hz := hz rfl; simp_all [startAdv, StartInv, PollBound, PinsOutput, StartPos.poll]
  | s6 => have hz := hz rfl; simp_all [startAdv, StartInv, PollBound, PinsOutput, StartPos.poll]
  | s7 => have hz := hz rfl; simp_all [startAdv, PollBound, PinsOutput, StartPos.poll, Block.record]

/-- `generateStop` (R153): it cannot be refused once it runs, leaves `DR` and `SR` alone, and returns in the state of R156. -/
theorem stopAdv_keeps {p : StopPos} {b : Block} (hi : StopInv p b) (hp : PollBound b) (hz : p.poll = none → b.pollN = 0) :
    match stopAdv p b with
    | .goto y c => StopInv y c ∧ PollBound c ∧ (y.poll = none → c.pollN = 0) ∧ c.dr = b.dr ∧ c.cnt = b.cnt ∧ c.done = b.done ∧
        c.afterStart = b.afterStart ∧ y ≠ .p1
    | .ret _ c => PinsOutput c ∧ c.latchClock = true ∧ c.latchData = true ∧ c.bus = .idle ∧ c.afterStart = false ∧ c.pollN = 0 ∧
        c.dr = b.dr ∧ c.cnt = b.cnt ∧ c.done = b.done
    | .timeout _ c => PollBound c
    | .refuse _ => False := by
  obtain ⟨h1, hi⟩ := hi
  have poll : ∀ k, (k = b.pollN ∨ ∃ n, b.cfg.pollLimit = some n ∧ k < n) → k = 0 ∨ ∃ n, b.cfg.pollLimit = some n ∧ k < n := by
    rintro k (rfl | h)
    · exact hp
    · exact .inr h
  cases p with
  | p1 =>
    have hz := hz rfl
    have h2 : b.pinsOutput = true := by simp [Block.pinsOutput, h1.1, h1.2]
    simp_all [stopAdv, StopInv, PollBound, PinsOutput, StopPos.poll]
  | p2 => have hz := hz rfl; simp_all [stopAdv, StopInv, PollBound, PinsOutput, StopPos.poll]
  | p3 =>
    simp only [stopAdv]
    generalize e : pollAdv b .clock StopPos.p3 StopPos.p4 = r
    rcases Ops.pollAdv_cases (ρ := Unit) e with ⟨rfl, _⟩ | ⟨k, rfl, hk⟩ | rfl
    · simp_all [StopInv, PollBound, PinsOutput, StopPos.poll]
    · have := poll k hk
      simp_all [StopInv, PollBound, PinsOutput, StopPos.poll]
    · exact hp
  | p6 =>
    simp only [stopAdv]
    generalize e : pollAdv b .data StopPos.p6 StopPos.p7 = r
    rcases Ops.pollAdv_cases (ρ := Unit) e with ⟨rfl, _⟩ | ⟨k, rfl, hk⟩ | rfl
    · simp_all [StopInv, PollBound, PinsOutput, StopPos.poll]
    · have := poll k hk
      simp_all [StopInv, PollBound, PinsOutput, StopPos.poll]
    · exact hp
  | p4 => have hz := hz rfl; simp_all [stopAdv, StopInv, PollBound, PinsOutput, StopPos.poll]
  | p5 => have hz := hz rfl; simp_all [stopAdv, StopInv, PollBound, PinsOutput, StopPos.poll]
  | p7 => have hz := hz rfl; simp_all [stopAdv, PollBound, PinsOutput, StopPos.poll, Block.record]

/-- `sendByte` (R154): it returns in the state of R156, whatever the acknowledgment bit. -/
theorem byteAdv_keeps {p : BytePos} {b : Block} (hi : ByteInv p b) (hp : PollBound b) (hz : p.poll = none → b.pollN = 0) :
    match byteAdv p b with
    | .goto y c => ByteInv y c ∧ PollBound c ∧ (y.poll = none → c.pollN = 0) ∧ (SendingPins p b → SendingPins y c) ∧ (∀ v, y ≠ .b1 v)
    | .ret _ c => ClockLow c ∧ c.dirData = .output ∧ c.dr = 0xFF#8 ∧ c.bus = .ackPhase ∧ c.afterStart = false ∧ TransferDone c ∧
        c.pollN = 0 ∧ (SendingPins p b → c.latchData = true)
    | .timeout _ c => PollBound c
    | .refuse e => e = .fallingStrobeWhileClockLow := by
  cases p with
  | b1 v =>
    have hz := hz rfl
    obtain ⟨⟨h1, h2⟩, hi⟩ := hi
    have : b.clockDrivenLow = true := by simp [Block.clockDrivenLow, h1, h2]
    simp_all [byteAdv, ByteInv, XferInv, PollBound, BytePos.poll, XferPos.poll, SendingPins, TransferPhase, ClockLow]
  | b2 x =>
    have := xferAdv_keeps hi hp (fun h => hz (by simp [BytePos.poll, h]))
    simp only [byteAdv]
    generalize xferAdv x b = r at this
    cases r with
    | goto y c =>
      simp only [Adv.call] at *
      obtain ⟨a1, a2, a3, a4, a5, a6, a7, a8⟩ := this
      simp_all [ByteInv, BytePos.poll, SendingPins]
    | ret v c =>
      simp only [Adv.call] at *
      obtain ⟨a1, a2, a3, a4, a5, a6, a7, a8⟩ := this
      simp_all [ByteInv, BytePos.poll, SendingPins, TransferPhase, PollBound]
    | timeout l c => exact this
    | refuse e => exact this
  | b3 =>
    have hz := hz rfl
    obtain ⟨⟨h1, h2⟩, hi⟩ := hi
    simp_all [byteAdv, ByteInv, XferInv, PollBound, BytePos.poll, XferPos.poll, SendingPins, TransferPhase, ClockLow]
  | b4 x =>
    have := xferAdv_keeps hi.1 hp (fun h => hz (by simp [BytePos.poll, h]))
    have hdd := hi.2
    simp only [byteAdv]
    generalize xferAdv x b = r at this
    cases r with
    | goto y c =>
      simp only [Adv.call] at *
      obtain ⟨a1, a2, a3, a4, a5, a6, a7, a8⟩ := this
      simp_all [ByteInv, BytePos.poll, SendingPins]
    | ret v c =>
      simp only [Adv.call] at *
      obtain ⟨a1, a2, a3, a4, a5, a6, a7, a8⟩ := this
      simp_all [ByteInv, BytePos.poll, SendingPins, TransferPhase, PollBound]
    | timeout l c => exact this
    | refuse e => exact this
  | b5 r =>
    have hz := hz rfl
    obtain ⟨⟨h1, h2⟩, hi⟩ := hi
    simp_all [byteAdv, ByteInv, PollBound, BytePos.poll, SendingPins, ClockLow, nackPattern, TransferDone]
  | b6 r =>
    have hz := hz rfl
    obtain ⟨⟨h1, h2⟩, hi⟩ := hi
    simp_all [byteAdv, PollBound, BytePos.poll, SendingPins, ClockLow, TransferDone]

/-- `send` (R171): it returns in the rest state of R36. -/
theorem sendAdv_keeps {t : SendLatches} {p : SendPos} {b : Block} (hi : SendInv t p b) (hp : PollBound b) (hz :
    (Seq.send t p).poll = none → b.pollN = 0) :
    match sendAdv t p b with
    | .goto y c => SendInv y.latches y.pos c ∧ PollBound c ∧ ((Seq.send y.latches y.pos).poll = none → c.pollN = 0)
    | .ret r c => RestState c ∧ c.dr = 0xFF#8 ∧ (r.status = .ok ∨ r.status = .acknowledgmentFailure)
    | .timeout _ c => PollBound c
    | .refuse e => e = .fallingStrobeWhileClockLow := by
  cases p with
  | w1 q =>
    have := startAdv_keeps hi.1 hp (fun h => hz (by simp [Seq.poll, h]))
    have h0 := hi.2
    simp only [sendAdv]
    generalize startAdv q b = r at this
    cases r with
    | goto y c =>
      simp only [Adv.call] at *
      obtain ⟨a1, a2, a3⟩ := this
      exact ⟨⟨a1, h0⟩, a2, fun h => a3 (by simpa [Seq.poll] using h)⟩
    | ret v c =>
      simp only [Adv.call] at *
      obtain ⟨a1, a2, a3, a4, a5, a6⟩ := this
      simp_all [SendInv, ByteInv, SendingPins, ClockLow, PinsOutput, PollBound]
    | timeout l c => exact this
    | refuse e => exact this.elim
  | w2 q =>
    have := byteAdv_keeps hi.1 hp (fun h => hz (by simp [Seq.poll, h]))
    have hsp := hi.2.1
    have h0 := hi.2.2
    simp only [sendAdv]
    generalize byteAdv q b = r at this
    cases r with
    | goto y c =>
      simp only [Adv.call] at *
      obtain ⟨a1, a2, a3, a4, a5⟩ := this
      exact ⟨⟨a1, a4 hsp, h0⟩, a2, fun h => a3 (by simpa [Seq.poll] using h)⟩
    | ret v c =>
      simp only [Adv.call] at *; obtain ⟨a1, a2, a3, a4, a5, a6, a7, a8⟩ := this
      have a8 := a8 hsp
      simp only [sendNext]
      split
      · rename_i h; simp [afterAddress] at h
        simp_all [SendInv, ByteInv, SendingPins, ClockLow, PollBound, afterAddress]
      · simp_all [SendInv, StopInv, ClockLow, PinsOutput, PollBound, EndingTransaction, afterAddress]
    | timeout l c => exact this
    | refuse e => exact this
  | w4 q =>
    have := byteAdv_keeps hi.1 hp (fun h => hz (by simp [Seq.poll, h]))
    have hsp := hi.2.1
    have h0 := hi.2.2
    simp only [sendAdv]
    generalize byteAdv q b = r at this
    cases r with
    | goto y c =>
      simp only [Adv.call] at *
      obtain ⟨a1, a2, a3, a4, a5⟩ := this
      exact ⟨⟨a1, a4 hsp, h0⟩, a2, fun h => a3 (by simpa [Seq.poll] using h)⟩
    | ret v c =>
      simp only [Adv.call] at *; obtain ⟨a1, a2, a3, a4, a5, a6, a7, a8⟩ := this
      have a8 := a8 hsp
      simp only [sendNext]
      split
      · rename_i h; simp [afterPayload] at h
        clear hi hsp
        simp_all [SendInv, ByteInv, SendingPins, ClockLow, PollBound, afterPayload]
        exact of_decide_eq_true h.2
      · clear hi hsp
        simp_all [SendInv, StopInv, ClockLow, PinsOutput, PollBound, EndingTransaction, afterPayload]
    | timeout l c => exact this
    | refuse e => exact this
  | w6 q =>
    have := stopAdv_keeps hi.1 hp (fun h => hz (by simp [Seq.poll, h]))
    have h0 := hi.2
    simp only [sendAdv]
    generalize stopAdv q b = r at this
    cases r with
    | goto y c =>
      simp only [Adv.call] at *
      obtain ⟨a1, a2, a3, a4, a5, a6, a7, a8⟩ := this
      simp_all [SendInv, EndingTransaction, TransferDone, Seq.poll]
    | ret v c =>
      simp only [Adv.call] at *
      obtain ⟨a1, a2, a3, a4, a5, a6, a7, a8, a9⟩ := this
      simp_all [RestState, PinsOutput, EndingTransaction, TransferDone, sendResult]
      split <;> simp
    | timeout l c => exact this
    | refuse e => exact this.elim

/-- `receive` (R172): it returns in the rest state of R36, but for `DR[0]`. -/
theorem recvAdv_keeps {t : RecvLatches} {p : RecvPos} {b : Block} (hi : RecvInv t p b) (hp : PollBound b) (hz :
    (Seq.receive t p).poll = none → b.pollN = 0) :
    match recvAdv t p b with
    | .goto y c => RecvInv y.latches y.pos c ∧ PollBound c ∧ ((Seq.receive y.latches y.pos).poll = none → c.pollN = 0)
    | .ret r c => RestState c ∧ c.dr.extractLsb' 1 7 = 0x7F#7 ∧ (r.status = .ok ∨ r.status = .malformedReceive)
    | .timeout _ c => PollBound c
    | .refuse e => e = .fallingStrobeWhileClockLow := by
  obtain ⟨hc, ho, hi⟩ := hi
  cases p with
  | q1 q =>
    have := startAdv_keeps hi.1 hp (fun h => hz (by simp [Seq.poll, h]))
    have h0 := hi.2
    simp only [recvAdv]
    generalize startAdv q b = r at this
    cases r with
    | goto y c =>
      simp only [Adv.call] at *
      obtain ⟨a1, a2, a3⟩ := this
      exact ⟨⟨hc, ho, a1, h0⟩, a2, fun h => a3 (by simpa [Seq.poll] using h)⟩
    | ret v c =>
      simp only [Adv.call] at *
      obtain ⟨a1, a2, a3, a4, a5, a6⟩ := this
      simp_all [RecvInv, ByteInv, SendingPins, ClockLow, PinsOutput, PollBound]
    | timeout l c => exact this
    | refuse e => exact this.elim
  | q2 q =>
    have := byteAdv_keeps hi.1 hp (fun h => hz (by simp [Seq.poll, h]))
    have hsp := hi.2.1
    have h0 := hi.2.2
    simp only [recvAdv]
    generalize byteAdv q b = r at this
    cases r with
    | goto y c =>
      simp only [Adv.call] at *
      obtain ⟨a1, a2, a3, a4, a5⟩ := this
      exact ⟨⟨hc, ho, a1, a4 hsp, h0⟩, a2, fun h => a3 (by simpa [Seq.poll] using h)⟩
    | ret v c =>
      simp only [Adv.call] at *; obtain ⟨a1, a2, a3, a4, a5, a6, a7, a8⟩ := this
      have a8 := a8 hsp
      simp only [recvAfterAddress, recvNext]
      split
      · simp_all [RecvInv, StopInv, ClockLow, PinsOutput, PollBound, EndingTransaction]
      · rw [if_pos (by omega)]
        simp_all [RecvInv, ClockLow, PollBound]
    | timeout l c => exact this
    | refuse e => exact this
  | q3 q =>
    have := stopAdv_keeps hi.1 hp (fun h => hz (by simp [Seq.poll, h]))
    have h0 := hi.2
    simp only [recvAdv]
    generalize stopAdv q b = r at this
    cases r with
    | goto y c =>
      simp only [Adv.call] at *
      obtain ⟨a1, a2, a3, a4, a5, a6, a7, a8⟩ := this
      simp_all [RecvInv, EndingTransaction, TransferDone, Seq.poll]
    | ret v c =>
      simp only [Adv.call] at *
      obtain ⟨a1, a2, a3, a4, a5, a6, a7, a8, a9⟩ := this
      simp_all [RestState, PinsOutput, EndingTransaction, TransferDone]
    | timeout l c => exact this
    | refuse e => exact this.elim
  | q5 =>
    have hz := hz rfl
    simp_all [recvAdv, RecvInv, XferInv, ClockLow, PollBound, TransferPhase, bytePhase]
  | q6 x =>
    have := xferAdv_keeps hi.1 hp (fun h => hz (by simp [Seq.poll, h]))
    obtain ⟨_, h2⟩ := hi
    simp only [recvAdv]
    generalize xferAdv x b = r at this
    cases r with
    | goto y c => simp only [Adv.call] at *; obtain ⟨a1, a2, a3, a4, a5, a6, a7, a8⟩ := this; simp_all [RecvInv, Seq.poll]
    | ret v c =>
      simp only [Adv.call] at *
      obtain ⟨a1, a2, a3, a4, a5, a6, a7, a8⟩ := this
      simp_all [RecvInv, PollBound, TransferPhase, bytePhase]
    | timeout l c => exact this
    | refuse e => exact this
  | q7 v =>
    have hz := hz rfl
    simp_all [recvAdv, RecvInv, ClockLow, PollBound]
  | q8 v =>
    have hz := hz rfl
    simp_all [recvAdv, RecvInv, XferInv, ClockLow, PollBound, TransferPhase, PatternInv]
  | q9 v x =>
    have := xferAdv_keeps hi.1 hp (fun h => hz (by simp [Seq.poll, h]))
    obtain ⟨_, h2, h3, h4, h5⟩ := hi
    simp only [recvAdv]
    generalize xferAdv x b = r at this
    cases r with
    | goto y c => simp only [Adv.call] at *; obtain ⟨a1, a2, a3, a4, a5, a6, a7, a8⟩ := this; simp_all [RecvInv, Seq.poll]
    | ret v c =>
      simp only [Adv.call] at *; obtain ⟨a1, a2, a3, a4, a5, a6, a7, a8, a9⟩ := this
      simp only [recvNext]
      split
      · simp_all [RecvInv, PollBound, TransferPhase, afterRead]
      · rename_i h
        simp [afterRead] at h
        have h6 : t.i + 1 = t.count := by omega
        have a8 := a8 trivial t h4
        rw [ackOrNack, if_pos h6] at a8
        simp_all [RecvInv, PollBound, TransferPhase, afterRead, StopInv, PinsOutput, EndingTransaction, ClockLow, nackPattern]
    | timeout l c => exact this
    | refuse e => exact this
  | q11 q =>
    have := stopAdv_keeps hi.1 hp (fun h => hz (by simp [Seq.poll, h]))
    have h0 := hi.2
    simp only [recvAdv]
    generalize stopAdv q b = r at this
    cases r with
    | goto y c =>
      simp only [Adv.call] at *
      obtain ⟨a1, a2, a3, a4, a5, a6, a7, a8⟩ := this
      simp_all [RecvInv, EndingTransaction, TransferDone, Seq.poll]
    | ret v c =>
      simp only [Adv.call] at *
      obtain ⟨a1, a2, a3, a4, a5, a6, a7, a8, a9⟩ := this
      simp_all [RestState, PinsOutput, EndingTransaction, TransferDone]
    | timeout l c => exact this
    | refuse e => exact this.elim

/-- The recovery after BusTimeout (R213): it can neither time out nor be refused. -/
theorem recoverAdv_keeps {p : RecoverPos} {b : Block} (hi : RecoverInv p b) (hp : PollBound b) :
    match recoverAdv p b with
    | .goto y c => RecoverInv y c ∧ PollBound c
    | .ret _ _ => True
    | .timeout _ _ => False
    | .refuse _ => False := by
  cases p <;> simp_all [recoverAdv, RecoverInv, PollBound, PinsOutput, nackPattern]

end Sys2Proof.Laws.Invariant
end

