-- ==== Sys2Proof/Laws/Runs.lean ====
section
/-! SUPPORT. Runs of listings: what the passing of micro-operations does to a block, how many micro-operations take a listing from one
label to another or to its return, and how such a run inside a listing or a command becomes a run of the machine. -/

namespace Sys2Proof.Laws.Runs

open Sys2Proof Sys2Proof.Machine

/-! ### Micro-operations that have passed -/

/-- `b` after `n` micro-operations that changed none of its registers: `n` answers used, the line history longer by `h`, the clock later
by `m`. -/
def passed (b : Block) (n : Nat) (h : List Levels) (m : Nat) : Block :=
  { b with env := b.env.drop n, ops := b.ops + n, lineHist := b.lineHist ++ h, time := b.time + m }

section

variable (b : Block) (n k : Nat) (h : List Levels) (m : Nat)

@[simp] theorem passed_cfg : (passed b n h m).cfg = b.cfg := rfl
@[simp] theorem passed_dirClock : (passed b n h m).dirClock = b.dirClock := rfl
@[simp] theorem passed_dirData : (passed b n h m).dirData = b.dirData := rfl
@[simp] theorem passed_latchClock : (passed b n h m).latchClock = b.latchClock := rfl
@[simp] theorem passed_latchData : (passed b n h m).latchData = b.latchData := rfl
@[simp] theorem passed_dr : (passed b n h m).dr = b.dr := rfl
@[simp] theorem passed_cnt : (passed b n h m).cnt = b.cnt := rfl
@[simp] theorem passed_done : (passed b n h m).done = b.done := rfl
@[simp] theorem passed_bus : (passed b n h m).bus = b.bus := rfl
@[simp] theorem passed_afterStart : (passed b n h m).afterStart = b.afterStart := rfl
@[simp] theorem passed_pollN : (passed b n h m).pollN = b.pollN := rfl
@[simp] theorem passed_primHist : (passed b n h m).primHist = b.primHist := rfl
@[simp] theorem passed_env : (passed b n h m).env = b.env.drop n := rfl
@[simp] theorem passed_ops : (passed b n h m).ops = b.ops + n := rfl
@[simp] theorem passed_lineHist : (passed b n h m).lineHist = b.lineHist ++ h := rfl
@[simp] theorem passed_time : (passed b n h m).time = b.time + m := rfl

/-- The answers ahead are `n` nearer. -/
theorem passed_answerAt : (passed b n h m).answerAt k = b.answerAt (n + k) := Ops.answerAt_drop rfl rfl k

theorem passed_answer : (passed b n h m).answer = b.answerAt n := by
  rw [Ops.answer_eq, passed_answerAt, Nat.add_zero]

theorem passed_passed (n' : Nat) (h' : List Levels) (m' : Nat) :
    passed (passed b n h m) n' h' m' = passed b (n + n') (h ++ h') (m + m') := by
  simp [passed, Nat.add_assoc, List.append_assoc]

/-- One micro-operation is one that has passed. -/
theorem tick_eq : b.tick k = passed b 1 [b.levelsAfter] (k + Config.freeElapsed b.ops) := by
  simp [passed, Block.tick, Nat.add_assoc]

end

/-! ### Runs of a listing -/

/-- `n` micro-operations of the listing `f` lead from label `p` and block `b` to label `q` and block `c`. -/
def Goes {π ρ : Type} (f : π → Block → Adv π ρ) : Nat → π → Block → π → Block → Prop
  | 0, p, b, q, c => p = q ∧ b = c
  | n + 1, p, b, q, c => ∃ p' b', f p b = .goto p' b' ∧ Goes f n p' b' q c

/-- The `n`-th micro-operation of the listing `f` from label `p` and block `b` is its last: it returns `v` and leaves block `c`. -/
def Returns {π ρ : Type} (f : π → Block → Adv π ρ) (n : Nat) (p : π) (b : Block) (v : ρ) (c : Block) : Prop :=
  ∃ m q d, n = m + 1 ∧ Goes f m p b q d ∧ f q d = .ret v c

section

variable {π ρ π' ρ' : Type} {f : π → Block → Adv π ρ} {g : π' → Block → Adv π' ρ'}

theorem Goes.refl (f : π → Block → Adv π ρ) (p : π) (b : Block) : Goes f 0 p b p b := ⟨rfl, rfl⟩

theorem Goes.one {p q : π} {b c : Block} (h : f p b = .goto q c) : Goes f 1 p b q c := ⟨q, c, h, rfl, rfl⟩

theorem Goes.step {n : Nat} {p p' q : π} {b b' c : Block} (h : f p b = .goto p' b') (hn : Goes f n p' b' q c) :
    Goes f (n + 1) p b q c := ⟨p', b', h, hn⟩

theorem Goes.trans {n m : Nat} {p q r : π} {b c d : Block} (h : Goes f n p b q c) (h' : Goes f m q c r d) :
    Goes f (n + m) p b r d := by
  induction n generalizing p b with
  | zero => obtain ⟨rfl, rfl⟩ := h; simpa using h'
  | succ n ih =>
    obtain ⟨p', b', hf, hn⟩ := h
    rw [Nat.succ_add]
    exact ⟨p', b', hf, ih hn⟩

theorem Goes.returns {n m : Nat} {p q : π} {b c d : Block} {v : ρ} (h : Goes f n p b q c) (h' : Returns f m q c v d) :
    Returns f (n + m) p b v d := by
  obtain ⟨k, r, e, rfl, hk, hr⟩ := h'
  exact ⟨n + k, r, e, by omega, h.trans hk, hr⟩

theorem Returns.one {p : π} {b c : Block} {v : ρ} (h : f p b = .ret v c) : Returns f 1 p b v c :=
  ⟨0, p, b, rfl, Goes.refl f p b, h⟩

/-- A run of a listing inside its caller. -/
theorem Goes.call {inside : π → π'} {after : ρ → Block → Adv π' ρ'}
    (hg : ∀ p b, g (inside p) b = (f p b).call inside after) {n : Nat} {p q : π} {b c : Block} (h : Goes f n p b q c) :
    Goes g n (inside p) b (inside q) c := by
  induction n generalizing p b with
  | zero => obtain ⟨rfl, rfl⟩ := h; exact ⟨rfl, rfl⟩
  | succ n ih =>
    obtain ⟨p', b', hf, hn⟩ := h
    exact ⟨inside p', b', by rw [hg, hf]; rfl, ih hn⟩

/-- A listing that returns to a caller that goes on. -/
theorem Returns.call {inside : π → π'} {after : ρ → Block → Adv π' ρ'}
    (hg : ∀ p b, g (inside p) b = (f p b).call inside after) {n : Nat} {p : π} {q : π'} {b c d : Block} {v : ρ}
    (h : Returns f n p b v c) (ha : after v c = .goto q d) : Goes g n (inside p) b q d := by
  obtain ⟨m, r, e, rfl, hm, hr⟩ := h
  exact (Goes.call hg hm).trans (Goes.one (by rw [hg, hr]; exact ha))

/-- A listing that returns to a caller that returns. -/
theorem Returns.callReturn {inside : π → π'} {after : ρ → Block → Adv π' ρ'}
    (hg : ∀ p b, g (inside p) b = (f p b).call inside after) {n : Nat} {p : π} {b c d : Block} {v : ρ} {w : ρ'}
    (h : Returns f n p b v c) (ha : after v c = .ret w d) : Returns g n (inside p) b w d := by
  obtain ⟨m, r, e, rfl, hm, hr⟩ := h
  exact ⟨m, inside r, e, rfl, Goes.call hg hm, by rw [hg, hr]; exact ha⟩

end

/-! ### Runs that leave known registers

`r` gives the registers at the end of the run; it keeps the environment's answers, the clock and the line history of the block the run began
with, and `passed` advances them by the run's micro-operations. -/

/-- `n` micro-operations of `f` lead from `p`, `b` to `q` with the registers of `r`, in at least `t` microseconds. -/
def Reaches {π ρ : Type} (f : π → Block → Adv π ρ) (n : Nat) (p : π) (b : Block) (q : π) (r : Block) (t : Nat) : Prop :=
  ∃ h m, h.length = n ∧ t ≤ m ∧ Goes f n p b q (passed r n h m)

/-- The `n`-th micro-operation of `f` from `p`, `b` returns `v` with the registers of `r`, after at least `t` microseconds. -/
def Ends {π ρ : Type} (f : π → Block → Adv π ρ) (n : Nat) (p : π) (b : Block) (v : ρ) (r : Block) (t : Nat) : Prop :=
  ∃ h m, h.length = n ∧ t ≤ m ∧ Returns f n p b v (passed r n h m)

section

variable {π ρ π' ρ' : Type} {f : π → Block → Adv π ρ} {g : π' → Block → Adv π' ρ'}
  {n k t u : Nat} {p q q' : π} {b r r' : Block} {v : ρ}

theorem Reaches.refl (f : π → Block → Adv π ρ) (p : π) (b : Block) : Reaches f 0 p b p b 0 :=
  ⟨[], 0, rfl, Nat.le_refl 0, rfl, by simp [passed]⟩

/-- One more micro-operation that goes to another label. -/
theorem Reaches.step (hr : Reaches f n p b q r t)
    (hs : ∀ h m, f q (passed r n h m) = .goto q' ((passed r' n h m).tick k)) : Reaches f (n + 1) p b q' r' (t + k) := by
  obtain ⟨h, m, hl, ht, hg⟩ := hr
  refine ⟨h ++ [(passed r' n h m).levelsAfter], m + (k + Config.freeElapsed (passed r' n h m).ops), by simp [hl], by omega, ?_⟩
  rw [← passed_passed, ← tick_eq]
  exact hg.trans (Goes.one (hs h m))

/-- One more micro-operation, which returns. -/
theorem Reaches.ret (hr : Reaches f n p b q r t)
    (hs : ∀ h m, f q (passed r n h m) = .ret v ((passed r' n h m).tick k)) : Ends f (n + 1) p b v r' (t + k) := by
  obtain ⟨h, m, hl, ht, hg⟩ := hr
  refine ⟨h ++ [(passed r' n h m).levelsAfter], m + (k + Config.freeElapsed (passed r' n h m).ops), by simp [hl], by omega, ?_⟩
  rw [← passed_passed, ← tick_eq]
  exact hg.returns (Returns.one (hs h m))

theorem Reaches.trans (hr : Reaches f n p b q r t)
    (hs : ∀ h m, Reaches f k q (passed r n h m) q' (passed r' n h m) u) : Reaches f (n + k) p b q' r' (t + u) := by
  obtain ⟨h, m, hl, ht, hg⟩ := hr
  obtain ⟨h', m', hl', ht', hg'⟩ := hs h m
  refine ⟨h ++ h', m + m', by simp [hl, hl'], by omega, ?_⟩
  rw [← passed_passed]
  exact hg.trans hg'

theorem Reaches.ends (hr : Reaches f n p b q r t)
    (hs : ∀ h m, Ends f k q (passed r n h m) v (passed r' n h m) u) : Ends f (n + k) p b v r' (t + u) := by
  obtain ⟨h, m, hl, ht, hg⟩ := hr
  obtain ⟨h', m', hl', ht', hg'⟩ := hs h m
  refine ⟨h ++ h', m + m', by simp [hl, hl'], by omega, ?_⟩
  rw [← passed_passed]
  exact hg.returns hg'

/-- A listing that returns to a caller that goes on, with the registers `r'`. -/
theorem Ends.call {inside : π → π'} {after : ρ → Block → Adv π' ρ'} {q : π'}
    (hg : ∀ p b, g (inside p) b = (f p b).call inside after) (he : Ends f n p b v r t)
    (ha : ∀ h m, after v (passed r n h m) = .goto q (passed r' n h m)) : Reaches g n (inside p) b q r' t := by
  obtain ⟨h, m, hl, ht, hr⟩ := he
  exact ⟨h, m, hl, ht, hr.call hg (ha h m)⟩

/-- A listing that returns to a caller that returns, with the registers `r'`. -/
theorem Ends.callReturn {inside : π → π'} {after : ρ → Block → Adv π' ρ'} {w : ρ'}
    (hg : ∀ p b, g (inside p) b = (f p b).call inside after) (he : Ends f n p b v r t)
    (ha : ∀ h m, after v (passed r n h m) = .ret w (passed r' n h m)) : Ends g n (inside p) b w r' t := by
  obtain ⟨h, m, hl, ht, hr⟩ := he
  exact ⟨h, m, hl, ht, hr.callReturn hg (ha h m)⟩

end

/-! ### Runs of the machine -/

section

variable {π ρ : Type}

/-- The machine's steps at the positions of a command are its listing's. -/
def Drives (f : π → Block → Adv π ρ) (position : π → Seq) (done : State → ρ → Block → State) : Prop :=
  (∀ p, position p ≠ .ready) ∧
  (∀ s p, s.seq = position p → seqStep s = s.runListing (f p s.blk) position (done s)) ∧
  (∀ s b q v c, done (s.goto b q) v c = done s v c)

theorem drives_start : Drives startAdv .start (fun s _ b => s.complete b .empty) :=
  ⟨fun _ => by simp, fun s p h => by simp [seqStep, h, startStep], fun _ _ _ _ _ => rfl⟩

theorem drives_stop : Drives stopAdv .stop (fun s _ b => s.complete b .empty) :=
  ⟨fun _ => by simp, fun s p h => by simp [seqStep, h, stopStep], fun _ _ _ _ _ => rfl⟩

theorem drives_sendByte : Drives byteAdv .sendByte (fun s ack b => s.complete b (.bit ack)) :=
  ⟨fun _ => by simp, fun s p h => by simp [seqStep, h, sendByteStep], fun _ _ _ _ _ => rfl⟩

theorem drives_xfer : Drives xferAdv .xfer (fun s r b => s.complete b (.byte r)) :=
  ⟨fun _ => by simp, fun s p h => by simp [seqStep, h, xferStep], fun _ _ _ _ _ => rfl⟩

theorem drives_send : Drives (fun r => sendAdv r.latches r.pos) (fun r => .send r.latches r.pos) (fun s r b => s.finish b r) :=
  ⟨fun _ => by simp, fun s p h => by simp [seqStep, h, sendStep], fun _ _ _ _ _ => rfl⟩

theorem drives_receive :
    Drives (fun r => recvAdv r.latches r.pos) (fun r => .receive r.latches r.pos) (fun s r b => s.finish b r) :=
  ⟨fun _ => by simp, fun s p h => by simp [seqStep, h, recvStep], fun _ _ _ _ _ => rfl⟩

theorem drives_recover (l : Line) : Drives recoverAdv (fun q => .recover q l) (fun s _ b => s.returnBusTimeout b l) :=
  ⟨fun _ => by simp, fun s p h => by simp [seqStep, h, recoverStep], fun _ _ _ _ _ => rfl⟩

theorem run_zero (s : State) : Host.Core.run Sys2Proof.core 0 s = .next s := rfl

theorem run_succ {s t : State} (n : Nat) (h : Machine.step s = .next t) :
    Host.Core.run Sys2Proof.core (n + 1) s = Host.Core.run Sys2Proof.core n t := by
  have h' : Sys2Proof.core.step s = .next t := h
  simp [Host.Core.run, h']

theorem run_refused {s : State} {r : Refusal} (n : Nat) (h : Machine.step s = .refused r) :
    Host.Core.run Sys2Proof.core (n + 1) s = .refused r := by
  have h' : Sys2Proof.core.step s = .refused r := h
  simp [Host.Core.run, h']

/-- Two runs, one after the other. -/
theorem run_add {s t : State} {n : Nat} (m : Nat) (h : Host.Core.run Sys2Proof.core n s = .next t) :
    Host.Core.run Sys2Proof.core (n + m) s = Host.Core.run Sys2Proof.core m t := by
  induction n generalizing s with
  | zero =>
    rw [run_zero] at h
    cases h
    rw [Nat.zero_add]
  | succ n ih =>
    rw [Nat.succ_add]
    cases hs : Machine.step s with
    | next s' =>
      rw [run_succ _ hs] at h ⊢
      exact ih h
    | fault r => exact nomatch r
    | refused r =>
      rw [run_refused _ hs] at h
      cases h

variable {f : π → Block → Adv π ρ} {position : π → Seq} {done : State → ρ → Block → State}

/-- A run of a command's listing is a run of the machine. -/
theorem Goes.run (hd : Drives f position done) {n : Nat} {p q : π} {s : State} {c : Block} (hs : s.seq = position p)
    (h : Goes f n p s.blk q c) : Host.Core.run Sys2Proof.core n s = .next (s.goto c (position q)) := by
  induction n generalizing p s with
  | zero =>
    obtain ⟨rfl, rfl⟩ := h
    rw [run_zero, ← hs]
    rfl
  | succ n ih =>
    obtain ⟨p', b', hf, hn⟩ := h
    have hstep : Machine.step s = .next (s.goto b' (position p')) := by
      rw [Ops.step_running (by rw [hs]; exact hd.1 p), hd.2.1 s p hs, hf]
      rfl
    rw [run_succ n hstep]
    exact ih rfl hn

/-- A command's listing that returns ends the command. -/
theorem Returns.run (hd : Drives f position done) {n : Nat} {p : π} {s : State} {v : ρ} {c : Block} (hs : s.seq = position p)
    (h : Returns f n p s.blk v c) : Host.Core.run Sys2Proof.core n s = .next (done s v c) := by
  obtain ⟨m, q, d, rfl, hm, hr⟩ := h
  rw [run_add 1 (Goes.run hd hs hm)]
  have hstep : Machine.step (s.goto d (position q)) = .next (done s v c) := by
    rw [Ops.step_running (by exact hd.1 q), hd.2.1 _ q rfl]
    show State.runListing _ (f q d) _ _ = _
    rw [hr]
    show Host.Outcome.next (done (s.goto d (position q)) v c) = _
    rw [hd.2.2]
  rw [run_succ 0 hstep, run_zero]

/-- A command whose acceptance runs the first micro-operation of its listing: the whole run. -/
theorem Returns.exec (hd : Drives f position done) {n : Nat} {p : π} {s : State} {v : ρ} {c : Block}
    (h : Returns f (n + 2) p s.blk v c) :
    ∃ p' b', f p s.blk = .goto p' b' ∧ s.runListing (f p s.blk) position (done s) = .next (s.goto b' (position p')) ∧
      Host.Core.run Sys2Proof.core (n + 1) (s.goto b' (position p')) = .next (done s v c) := by
  obtain ⟨m, q, d, hm, hg, hr⟩ := h
  obtain rfl : m = n + 1 := by omega
  obtain ⟨p', b', hf, hn⟩ := hg
  refine ⟨p', b', hf, by rw [hf]; rfl, ?_⟩
  have := Returns.run hd (s := s.goto b' (position p')) rfl ⟨n, q, d, rfl, hn, hr⟩
  rwa [hd.2.2] at this

end

end Sys2Proof.Laws.Runs
end

