-- ==== Sys2Proof/Laws/Listings.lean ====
section
/-! SUPPORT. The listings of 41_primitives.md run as a whole when no poll repeats: how many micro-operations, what they return, and every
register after them (R156, R260). -/

namespace Sys2Proof.Laws.Listings

open Sys2Proof Sys2Proof.Machine Sys2Proof.Laws.Runs

/-! ### Single micro-operations of a listing, on a block that has passed some -/

section

variable {π ρ : Type} (p q : π) (r : Block) (n : Nat) (h : List Levels) (m : Nat)

theorem strobe_rises (hl : r.latchClock = false) :
    (strobeAdv (passed r n h m) q : Adv π ρ) =
      .goto q ((passed { r with latchClock := true, cnt := countUp r.cnt, done := doneAfter (countUp r.cnt) r.done } n h m).tick 0) := by
  rw [strobeAdv, Ops.strobe_rising (by exact hl)]; rfl

theorem strobe_falls (hl : r.latchClock = true) (hd : (r.answerAt n).clockLow = false) :
    (strobeAdv (passed r n h m) q : Adv π ρ) =
      .goto q ((passed { r with
        latchClock := false
        dr := shiftIn r.dr (!(r.drivesDataLow || (r.answerAt n).dataLow))
        cnt := countUp r.cnt
        done := doneAfter (countUp r.cnt) r.done } n h m).tick 0) := by
  have hs : (passed r n h m).sample .clock = true := by
    rw [Ops.sample_clock (by exact hl), passed_answer, hd]; rfl
  have hv : (passed r n h m).sample .data = !(r.drivesDataLow || (r.answerAt n).dataLow) := by
    rw [← passed_answer (h := h) (m := m)]; rfl
  rw [strobeAdv, Ops.strobe_falling (by exact hl) hs, Block.fallingStrobe, hv]; rfl

theorem poll_passes (l : Line) (hs : r.drivesLow l = false) (he : envLow (r.answerAt n) l = false) :
    (pollAdv (passed r n h m) l p q : Adv π ρ) = .goto q ((passed { r with pollN := 0 } n h m).tick 0) := by
  have hs : (passed r n h m).sample l = true := by
    rw [Ops.sample_eq_true, passed_answer]; exact ⟨hs, he⟩
  rw [pollAdv, Ops.poll_high hs]; rfl

end

/-! ### transfer -/

/-- Labels X3 to X6: one clock cycle, its poll not repeated. -/
theorem cycle (c : XferCtx) (b : Block) (hl : b.latchClock = false) (h1 : (b.answerAt 1).clockLow = false)
    (h3 : (b.answerAt 3).clockLow = false) :
    Reaches xferAdv 4 (.x3 c) b (.x7 c)
      { b with
        latchClock := false
        dr := shiftIn b.dr (!(b.drivesDataLow || (b.answerAt 3).dataLow))
        cnt := countUp (countUp b.cnt)
        done := doneAfter (countUp (countUp b.cnt)) (doneAfter (countUp b.cnt) b.done)
        pollN := 0 } b.cfg.tHigh := by
  have g := (Reaches.refl xferAdv (.x3 c) b).step (fun h m => strobe_rises (XferPos.x4 c) b 0 h m hl)
  have g := g.step (fun h m => poll_passes (XferPos.x4 c) (XferPos.x5 c) _ 1 h m .clock (by simp [Block.drivesLow, Block.drivesClockLow]) h1)
  have g := g.step (k := b.cfg.tHigh) (q' := .x6 c) (r' := _) (fun h m => rfl)
  have g := g.step (fun h m => strobe_falls (XferPos.x7 c) _ 3 h m rfl h3)
  simp only [Nat.zero_add, Nat.add_zero] at g
  exact g

/-- `cycle` on a block that has passed `n` micro-operations. -/
theorem cycle_passed (c : XferCtx) (b : Block) (n : Nat) (h : List Levels) (m : Nat) (hl : b.latchClock = false)
    (h1 : (b.answerAt (n + 1)).clockLow = false) (h3 : (b.answerAt (n + 3)).clockLow = false) :
    Reaches xferAdv 4 (.x3 c) (passed b n h m) (.x7 c)
      (passed { b with
        latchClock := false
        dr := shiftIn b.dr (!(b.drivesDataLow || (b.answerAt (n + 3)).dataLow))
        cnt := countUp (countUp b.cnt)
        done := doneAfter (countUp (countUp b.cnt)) (doneAfter (countUp b.cnt) b.done)
        pollN := 0 } n h m) b.cfg.tHigh := by
  have g := cycle c (passed b n h m) hl (by rwa [passed_answerAt]) (by rwa [passed_answerAt])
  rw [passed_answerAt] at g
  exact g

/-- The level of DATA at the sample of clock cycle `k` of a transfer of the byte in `b.dr` (R62, R63), where `off` is how many
micro-operations after `b` the first cycle samples. -/
def bitAt (b : Block) (off k : Nat) : Bool :=
  !((b.dirData == .output && (!b.latchData || !b.dr.getLsbD (7 - k))) || (b.answerAt (5 * k + off)).dataLow)

/-- `DR` after `k` clock cycles. -/
def captured (b : Block) (off : Nat) : Nat → Byte
  | 0 => b.dr
  | k + 1 => shiftIn (captured b off k) (bitAt b off k)

theorem shiftIn_getLsbD (d : Byte) (s : Bool) (i : Nat) (hi : i < 8) :
    (shiftIn d s).getLsbD i = if i = 0 then s else d.getLsbD (i - 1) := by
  unfold shiftIn
  rw [BitVec.getLsbD_append]
  rcases Nat.eq_zero_or_pos i with rfl | hp
  · simp
  · have h1 : ¬ i < 1 := by omega
    have h2 : i - 1 < 7 := by omega
    simp [h1, h2, Nat.pos_iff_ne_zero.mp hp]

/-- The bits of `DR` after `k` clock cycles (R65): the samples so far, the first highest, below the rest of the byte. -/
theorem captured_getLsbD (b : Block) (off k i : Nat) (hk : k ≤ 8) (hi : i < 8) :
    (captured b off k).getLsbD i = if i < k then bitAt b off (k - 1 - i) else b.dr.getLsbD (i - k) := by
  induction k generalizing i with
  | zero => simp [captured]
  | succ k ih =>
    rw [captured, shiftIn_getLsbD _ _ _ hi]
    rcases Nat.eq_zero_or_pos i with rfl | hp
    · simp
    · rw [if_neg (by omega), ih (i - 1) (by omega) (by omega)]
      by_cases hik : i - 1 < k
      · rw [if_pos hik, if_pos (by omega)]; congr 1; omega
      · rw [if_neg hik, if_neg (by omega)]; congr 1; omega

/-- Two edges of the count (R26). -/
theorem count_two (c : BitVec 4) (d : Bool) (h : c.toNat + 2 ≤ 16) (hd : d = false) :
    countUp (countUp c) = c + 2#4 ∧
      doneAfter (countUp (countUp c)) (doneAfter (countUp c) d) = decide (c.toNat + 2 = 16) := by
  subst hd
  revert c
  decide

/-- Labels X3 of the first cycle to X7 of the `k`-th, with `DONE` set only if the count has reached 16. -/
theorem cycles (c : XferCtx) (b : Block) (k : Nat) (hk : k < 8) (hl : b.latchClock = false) (hd : b.done = false)
    (hc : b.cnt.toNat + 2 * (k + 1) ≤ 16) (ha : ∀ j, j < 5 * k + 4 → (b.answerAt j).clockLow = false) :
    Reaches xferAdv (5 * k + 4) (.x3 c) b (.x7 c)
      { b with
        latchClock := false
        dr := captured b 3 (k + 1)
        cnt := b.cnt + BitVec.ofNat 4 (2 * (k + 1))
        done := decide (b.cnt.toNat + 2 * (k + 1) = 16)
        pollN := 0 } (k * (b.cfg.tLow + b.cfg.tHigh) + b.cfg.tHigh) := by
  induction k with
  | zero =>
    have g := cycle c b hl (ha 1 (by omega)) (ha 3 (by omega))
    have hz : 0 * (b.cfg.tLow + b.cfg.tHigh) + b.cfg.tHigh = b.cfg.tHigh := by omega
    obtain ⟨e1, e2⟩ := count_two b.cnt b.done (by omega) hd
    rw [e2, e1] at g
    rw [hz]
    exact g
  | succ k ih =>
    have g := ih (by omega) (by omega) (fun j hj => ha j (by omega))
    have hn : decide (b.cnt.toNat + 2 * (k + 1) = 16) = false := by
      rw [decide_eq_false_iff_not]; omega
    rw [hn] at g
    have g := g.step (k := b.cfg.tLow) (q' := .x3 c) (r' := _) (fun h m => rfl)
    have g := g.trans (fun h m => cycle_passed c _ _ h m rfl (ha _ (by omega)) (ha _ (by omega)))
    obtain ⟨e1, e2⟩ := count_two (b.cnt + BitVec.ofNat 4 (2 * (k + 1))) false (by rw [BitVec.toNat_add, BitVec.toNat_ofNat]; omega) rfl
    rw [e2, e1] at g
    have ec : b.cnt + BitVec.ofNat 4 (2 * (k + 1)) + 2#4 = b.cnt + BitVec.ofNat 4 (2 * (k + 1 + 1)) := by
      apply BitVec.eq_of_toNat_eq
      simp only [BitVec.toNat_add, BitVec.toNat_ofNat]
      omega
    have ed : ((b.cnt + BitVec.ofNat 4 (2 * (k + 1))).toNat + 2 = 16) = (b.cnt.toNat + 2 * (k + 1 + 1) = 16) := by
      rw [BitVec.toNat_add, BitVec.toNat_ofNat]
      apply propext
      omega
    have eb : (captured b 3 (k + 1)).getLsbD 7 = b.dr.getLsbD (7 - (k + 1)) := by
      rw [captured_getLsbD _ _ _ _ (by omega) (by omega), if_neg (by omega)]
    have es : shiftIn (captured b 3 (k + 1)) (!((b.dirData == .output && (!b.latchData || !(captured b 3 (k + 1)).getLsbD 7)) ||
        (b.answerAt (5 * k + 4 + 1 + 3)).dataLow)) = captured b 3 (k + 1 + 1) := by
      rw [eb]; rfl
    have et : k * (b.cfg.tLow + b.cfg.tHigh) + b.cfg.tHigh + b.cfg.tLow + b.cfg.tHigh =
        (k + 1) * (b.cfg.tLow + b.cfg.tHigh) + b.cfg.tHigh := by
      rw [Nat.succ_mul]; omega
    simp only [ec, ed, Block.drivesDataLow, et] at g
    rw [← es]
    exact g

/-- What a transfer captures depends on the drive of DATA, on `DR` and on the answers alone. -/
theorem captured_congr {b c : Block} {off off' : Nat} (h1 : c.dirData = b.dirData) (h2 : c.latchData = b.latchData)
    (h3 : c.dr = b.dr) (h4 : ∀ j, c.answerAt (j + off') = b.answerAt (j + off)) (k : Nat) :
    captured c off' k = captured b off k := by
  induction k with
  | zero => exact h3
  | succ k ih => rw [captured, captured, ih, bitAt, bitAt, h1, h2, h3, h4]

/-- `cycles` on a block that has passed `n` micro-operations. -/
theorem cycles_passed (c : XferCtx) (b : Block) (n : Nat) (h : List Levels) (m k : Nat) (hk : k < 8) (hl : b.latchClock = false)
    (hd : b.done = false) (hc : b.cnt.toNat + 2 * (k + 1) ≤ 16)
    (ha : ∀ j, j < 5 * k + 4 → (b.answerAt (n + j)).clockLow = false) :
    Reaches xferAdv (5 * k + 4) (.x3 c) (passed b n h m) (.x7 c)
      (passed { b with
        latchClock := false
        dr := captured b (3 + n) (k + 1)
        cnt := b.cnt + BitVec.ofNat 4 (2 * (k + 1))
        done := decide (b.cnt.toNat + 2 * (k + 1) = 16)
        pollN := 0 } n h m) (k * (b.cfg.tLow + b.cfg.tHigh) + b.cfg.tHigh) := by
  have g := cycles c (passed b n h m) k hk hl hd hc (fun j hj => by rw [passed_answerAt]; exact ha j hj)
  rw [captured_congr (b := b) (c := passed b n h m) (off := 3 + n) (off' := 3) rfl rfl rfl (fun j => by rw [passed_answerAt]; congr 1; omega)] at g
  exact g

/-- The clock cycles' constants (R260). -/
def cycleTime (cfg : Config) : Nat := cfg.tLow + cfg.tHigh

/-- `transfer` (R151) from its first micro-operation to its return, no poll repeated. -/
theorem transfer (w : Width) (b : Block) (hd : b.dirClock = .output) (hl : b.latchClock = false)
    (ha : ∀ j, j < 5 * bitCount w + 2 → (b.answerAt j).clockLow = false) :
    Ends xferAdv (5 * bitCount w + 2) (.x1 w) b (captured b 5 (bitCount w))
      { b.enterTransfer w with
        latchClock := false
        dr := captured b 5 (bitCount w)
        cnt := 0#4
        done := true
        pollN := 0
        primHist := b.primHist ++ [transferEvent ⟨w, b.dirData, b.dr⟩ (captured b 5 (bitCount w))] }
      (bitCount w * cycleTime b.cfg) := by
  let c : XferCtx := ⟨w, b.dirData, b.dr⟩
  let r1 : Block := { b.enterTransfer w with cnt := loadCnt (controlWord w), done := false }
  have hw : 0 < bitCount w ∧ bitCount w ≤ 8 := by cases w <;> decide
  have hr1 : r1.dirData = b.dirData ∧ r1.latchData = b.latchData ∧ r1.dr = b.dr ∧ r1.env = b.env ∧ r1.ops = b.ops ∧
      r1.latchClock = b.latchClock ∧ r1.cfg = b.cfg ∧ r1.primHist = b.primHist := by
    cases w <;> exact ⟨rfl, rfl, rfl, rfl, rfl, rfl, rfl, rfl⟩
  have hcnt : r1.cnt.toNat + 2 * (bitCount w - 1 + 1) = 16 := by cases w <;> rfl
  have g : Reaches xferAdv 1 (.x1 w) b (.x2 c) r1 (0 + 0) := by
    refine (Reaches.refl xferAdv (.x1 w) b).step fun h m => ?_
    have hcl : (passed b 0 h m).clockDrivenLow = true := by simp [Block.clockDrivenLow, hd, hl]
    show (if (passed b 0 h m).clockDrivenLow = true then _ else _) = _
    rw [if_pos hcl]
    cases w <;> rfl
  have g := g.step (k := b.cfg.tLow) (q' := .x3 c) (r' := r1) (fun h m => by
    rw [← hr1.2.2.2.2.2.2.1]; rfl)
  have g := g.trans (fun h m => cycles_passed c r1 2 h m (bitCount w - 1) (by omega) (by rw [hr1.2.2.2.2.2.1, hl]) rfl
    (by omega) (fun j hj => by
      rw [Ops.answerAt_of_env hr1.2.2.2.1 hr1.2.2.2.2.1]
      exact ha _ (by omega)))
  have hcap : ∀ k, captured r1 (3 + 2) k = captured b 5 k :=
    captured_congr hr1.1 hr1.2.1 hr1.2.2.1 (fun j => Ops.answerAt_of_env hr1.2.2.2.1 hr1.2.2.2.2.1 _)
  have hk : bitCount w - 1 + 1 = bitCount w := by omega
  rw [hk, hcap, show decide (r1.cnt.toNat + 2 * bitCount w = 16) = true by rw [decide_eq_true_iff]; omega,
    show r1.cnt + BitVec.ofNat 4 (2 * bitCount w) = 0#4 by
      show loadCnt (controlWord w) + BitVec.ofNat 4 (2 * bitCount w) = 0#4
      cases w <;> decide] at g
  have g := g.ret (k := 0) (v := captured b 5 (bitCount w)) (r' := { b.enterTransfer w with
        latchClock := false
        dr := captured b 5 (bitCount w)
        cnt := 0#4
        done := true
        pollN := 0
        primHist := b.primHist ++ [transferEvent ⟨w, b.dirData, b.dr⟩ (captured b 5 (bitCount w))] }) (fun h m => by
    show Adv.ret _ _ = _
    cases w <;> rfl)
  have hn : 0 + 1 + 1 + (5 * (bitCount w - 1) + 4) + 1 = 5 * bitCount w + 2 := by omega
  have ht : 0 + 0 + b.cfg.tLow + ((bitCount w - 1) * (r1.cfg.tLow + r1.cfg.tHigh) + r1.cfg.tHigh) + 0 = bitCount w * cycleTime b.cfg := by
    rw [hr1.2.2.2.2.2.2.1, cycleTime]
    cases w
    · simp only [bitCount]; omega
    · simp only [bitCount]; omega
  rw [← hn, ← ht]
  exact g

/-- `transfer` on a block that has passed `n` micro-operations. -/
theorem transfer_passed (w : Width) (b : Block) (n : Nat) (h : List Levels) (m : Nat) (hd : b.dirClock = .output)
    (hl : b.latchClock = false) (ha : ∀ j, j < 5 * bitCount w + 2 → (b.answerAt (n + j)).clockLow = false) :
    Ends xferAdv (5 * bitCount w + 2) (.x1 w) (passed b n h m) (captured b (5 + n) (bitCount w))
      (passed { b.enterTransfer w with
        latchClock := false
        dr := captured b (5 + n) (bitCount w)
        cnt := 0#4
        done := true
        pollN := 0
        primHist := b.primHist ++ [transferEvent ⟨w, b.dirData, b.dr⟩ (captured b (5 + n) (bitCount w))] } n h m)
      (bitCount w * cycleTime b.cfg) := by
  have g := transfer w (passed b n h m) hd hl (fun j hj => by rw [passed_answerAt]; exact ha j hj)
  rw [captured_congr (b := b) (c := passed b n h m) (off := 5 + n) (off' := 5) rfl rfl rfl
    (fun j => by rw [passed_answerAt]; congr 1; omega)] at g
  cases w <;> exact g

/-! ### generateStart and generateStop -/

/-- `generateStart` (R152), its poll not repeated. -/
theorem generateStart (b : Block) (hc : b.dirClock = .output) (hd : b.dirData = .output) (h1 : (b.answerAt 1).clockLow = false) :
    Ends startAdv 7 .s1 b ()
      { b with bus := .start, latchClock := false, latchData := true, afterStart := true, pollN := 0,
               primHist := b.primHist ++ [.start] }
      (b.cfg.tSetup + b.cfg.tHigh) := by
  have g : Reaches startAdv 1 .s1 b .s2 { b with bus := .start, latchClock := true } (0 + 0) := by
    refine (Reaches.refl startAdv .s1 b).step fun h m => ?_
    have hp : (passed b 0 h m).pinsOutput = true := by simp [Block.pinsOutput, hc, hd]
    show (if (passed b 0 h m).pinsOutput = true then _ else _) = _
    rw [if_pos hp]; rfl
  have g := g.step (fun h m => poll_passes StartPos.s2 StartPos.s3 _ 1 h m .clock
    (by simp [Block.drivesLow, Block.drivesClockLow]) h1)
  have g := g.step (k := b.cfg.tSetup) (q' := .s4) (r' := _) (fun h m => rfl)
  have g := g.step (k := 0) (q' := .s5) (r' := { b with bus := .start, latchClock := true, latchData := false, pollN := 0 })
    (fun h m => rfl)
  have g := g.step (k := b.cfg.tHigh) (q' := .s6) (r' := _) (fun h m => rfl)
  have g := g.step (k := 0) (q' := .s7) (r' := { b with bus := .start, latchClock := false, latchData := false, pollN := 0 })
    (fun h m => rfl)
  have g := g.ret (k := 0) (v := ()) (r' := { b with
    bus := .start, latchClock := false, latchData := true, afterStart := true, pollN := 0
    primHist := b.primHist ++ [.start] }) (fun h m => rfl)
  simp only [Nat.zero_add, Nat.add_zero] at g
  exact g

/-- `generateStop` (R153), its polls not repeated. -/
theorem generateStop (b : Block) (hc : b.dirClock = .output) (hd : b.dirData = .output) (hl : b.latchClock = false)
    (hr : b.dr.getLsbD 7 = true) (h2 : (b.answerAt 2).clockLow = false) (h5 : (b.answerAt 5).dataLow = false) :
    Ends stopAdv 7 .p1 b ()
      { b with bus := .idle, latchClock := true, latchData := true, afterStart := false, pollN := 0,
               primHist := b.primHist ++ [.stop] }
      (b.cfg.tHigh + b.cfg.tLow) := by
  have g : Reaches stopAdv 1 .p1 b .p2 { b with bus := .stop, latchData := false } (0 + 0) := by
    refine (Reaches.refl stopAdv .p1 b).step fun h m => ?_
    have hp : (passed b 0 h m).pinsOutput = true := by simp [Block.pinsOutput, hc, hd]
    have hl' : ¬ (passed b 0 h m).latchClock = true := by simp [hl]
    show (if (passed b 0 h m).pinsOutput = true then (if (passed b 0 h m).latchClock = true then _ else _) else _) = _
    rw [if_pos hp, if_neg hl']; rfl
  have g := g.step (k := 0) (q' := .p3) (r' := { b with bus := .stop, latchClock := true, latchData := false }) (fun h m => rfl)
  have g := g.step (fun h m => poll_passes StopPos.p3 StopPos.p4 _ 2 h m .clock
    (by simp [Block.drivesLow, Block.drivesClockLow]) h2)
  have g := g.step (k := b.cfg.tHigh) (q' := .p5) (r' := _) (fun h m => rfl)
  have g := g.step (k := 0) (q' := .p6) (r' := { b with bus := .stop, latchClock := true, latchData := true, pollN := 0 })
    (fun h m => rfl)
  have g := g.step (fun h m => poll_passes StopPos.p6 StopPos.p7 _ 5 h m .data
    (by simp [Block.drivesLow, Block.drivesDataLow, hr]) h5)
  have g := g.ret (k := b.cfg.tLow) (v := ()) (r' := { b with
    bus := .idle, latchClock := true, latchData := true, afterStart := false, pollN := 0
    primHist := b.primHist ++ [.stop] }) (fun h m => rfl)
  simp only [Nat.zero_add, Nat.add_zero] at g
  exact g

/-! ### The recovery after BusTimeout -/

/-- The five micro-operations of the recovery (R213). `SR` is left alone. -/
theorem recovery (b : Block) :
    Ends recoverAdv 5 .r1 b ()
      { b with dirClock := .output, dirData := .output, latchClock := true, latchData := true, dr := 0xFF#8 } 0 := by
  have g := (Reaches.refl recoverAdv .r1 b).step (k := 0) (q' := .r2) (r' := { b with dirClock := .output }) (fun h m => rfl)
  have g := g.step (k := 0) (q' := .r3) (r' := { b with dirClock := .output, dirData := .output }) (fun h m => rfl)
  have g := g.step (k := 0) (q' := .r4) (r' := { b with dirClock := .output, dirData := .output, dr := 0xFF#8 }) (fun h m => rfl)
  have g := g.step (k := 0) (q' := .r5)
    (r' := { b with dirClock := .output, dirData := .output, dr := 0xFF#8, latchClock := true }) (fun h m => rfl)
  exact g.ret (k := 0) (v := ()) (fun h m => rfl)

/-! ### sendByte -/

/-- What `sendByte v` writes to the primitive history for its byte. -/
def byteEvent (b : Block) (v : Byte) : PrimEvent :=
  transferEvent ⟨.eight, b.dirData, v⟩ (captured { b with dr := v } 6 8)

/-- `sendByte v` (R154), no poll repeated. The acknowledgment bit is the level of DATA at micro-operation 49, driven by nobody but the
environment. -/
theorem sendByte (v : Byte) (b : Block) (hd : b.dirClock = .output) (hl : b.latchClock = false)
    (ha : ∀ j, j < 53 → (b.answerAt j).clockLow = false) :
    Ends byteAdv 53 (.b1 v) b (!(b.answerAt 49).dataLow)
      { b with
        latchClock := false, dirData := .output, dr := 0xFF#8, cnt := 0#4, done := true, bus := .ackPhase, afterStart := false, pollN := 0
        primHist := b.primHist ++ [byteEvent b v, .ackBit (!(b.answerAt 49).dataLow)] }
      (9 * cycleTime b.cfg) := by
  let r1 : Block := { b with bus := bytePhase b.afterStart, dr := v }
  have g : Reaches byteAdv 1 (.b1 v) b (.b2 (.x1 .eight)) r1 (0 + 0) := by
    refine (Reaches.refl byteAdv (.b1 v) b).step fun h m => ?_
    have hcl : (passed b 0 h m).clockDrivenLow = true := by simp [Block.clockDrivenLow, hd, hl]
    show (if (passed b 0 h m).clockDrivenLow = true then _ else _) = _
    rw [if_pos hcl]; rfl
  have g := g.trans (fun h m => (transfer_passed .eight r1 1 h m hd hl (fun j hj => ha _ (by simp only [bitCount] at hj; omega))).call
    (g := byteAdv) (inside := .b2) (after := fun _ b' => .goto .b3 b') (q := .b3) (fun _ _ => rfl) (fun _ _ => rfl))
  let e : PrimEvent := byteEvent b v
  let r2 : Block := { b with
    bus := .ackPhase, afterStart := false, latchClock := false, dirData := .input, dr := captured { b with dr := v } 6 8
    cnt := 0#4, done := true, pollN := 0, primHist := b.primHist ++ [e] }
  have g := g.step (k := 0) (q' := .b4 (.x1 .one)) (r' := r2) (fun h m => rfl)
  have g := g.trans (fun h m => (transfer_passed .one r2 44 h m hd rfl (fun j hj => ha _ (by simp only [bitCount] at hj; omega))).call
    (g := byteAdv) (inside := .b4) (after := fun r b' => .goto (.b5 r) b') (q := .b5 _) (fun _ _ => rfl) (fun _ _ => rfl))
  have hb : (captured r2 49 1).getLsbD 0 = !(b.answerAt 49).dataLow := by
    rw [captured_getLsbD _ _ _ _ (by omega) (by omega), if_pos (by omega)]
    rfl
  have g := g.step (k := 0) (q' := .b6 _) (r' := { r2 with dr := 0xFF#8, primHist := b.primHist ++ [e] ++ [.ackBit (!(b.answerAt 49).dataLow)] })
    (fun h m => by rw [← hb]; rfl)
  have g := g.ret (k := 0) (v := !(b.answerAt 49).dataLow) (r' := { r2 with
    dirData := .output, dr := 0xFF#8, primHist := b.primHist ++ [e, .ackBit (!(b.answerAt 49).dataLow)] })
    (fun h m => by
      rw [← hb, show [e, PrimEvent.ackBit ((captured r2 49 1).getLsbD 0)] = [e] ++ [PrimEvent.ackBit ((captured r2 49 1).getLsbD 0)] from rfl,
        ← List.append_assoc]
      rfl)
  have ht : 0 + 0 + bitCount .eight * cycleTime b.cfg + 0 + bitCount .one * cycleTime b.cfg + 0 + 0 = 9 * cycleTime b.cfg := by
    simp only [bitCount]; omega
  rw [← ht]
  exact g

end Sys2Proof.Laws.Listings
end

