-- ==== Sys2Proof/Laws/PerInstr.lean ====
section
/-! SUPPORT. Statements for every instruction: the first word of a well-formed command matches its row of spec/opcode_table.json
(30_encoding.md R108). -/

namespace Sys2Proof.Laws.TableMatch

open Sys2Proof

/-- The `match` and `mask` of a row of the opcode table. -/
structure Row where
  pattern : Word
  mask : Word

/-- The row of a command. -/
def rowOf : Instr → Row
  | .setHigh _ => ⟨0x10000000#32, 0xFFFEFFFF#32⟩
  | .setLow _ => ⟨0x11000000#32, 0xFFFEFFFF#32⟩
  | .readLevel _ => ⟨0x12000000#32, 0xFFFEFFFF#32⟩
  | .setDir _ _ => ⟨0x13000000#32, 0xFFFEFFFE#32⟩
  | .loadDR _ => ⟨0x14000000#32, 0xFFFFFF00#32⟩
  | .readDR => ⟨0x15000000#32, 0xFFFFFFFF#32⟩
  | .loadSR _ => ⟨0x16000000#32, 0xFFFFFF00#32⟩
  | .readSR => ⟨0x17000000#32, 0xFFFFFFFF#32⟩
  | .strobe => ⟨0x18000000#32, 0xFFFFFFFF#32⟩
  | .delay _ => ⟨0x19000000#32, 0xFFFCFFFF#32⟩
  | .waitHigh _ => ⟨0x1A000000#32, 0xFFFEFFFF#32⟩
  | .start => ⟨0x20000000#32, 0xFFFFFFFF#32⟩
  | .stop => ⟨0x21000000#32, 0xFFFFFFFF#32⟩
  | .sendByte _ => ⟨0x22000000#32, 0xFFFFFF00#32⟩
  | .xfer _ _ => ⟨0x23000000#32, 0xFF00FF00#32⟩
  | .send _ _ => ⟨0x30000000#32, 0xFF0080FF#32⟩
  | .receive _ _ => ⟨0x31000000#32, 0xFF0080FF#32⟩

/-- A word belongs to a row (R108). -/
def Row.matches (r : Row) (w : Word) : Prop := w &&& r.mask = r.pattern

/-- The first word of a well-formed command belongs to its row. -/
def Statement (i : Instr) : Prop := i.WellFormed → ∃ w rest, encode i = w :: rest ∧ (rowOf i).matches w

/-- Masking a word masks its fields. -/
theorem and_packWord (t t' o o' : BitVec 4) (n n' a a' b b' : Byte) :
    packWord t o n a b &&& packWord t' o' n' a' b' = packWord (t &&& t') (o &&& o') (n &&& n') (a &&& a') (b &&& b') := by
  unfold packWord; rw [BitVec.and_append, BitVec.and_append, BitVec.and_append, BitVec.and_append]

/-- A 7-bit address leaves bit 7 of its field clear. -/
theorem address_field {a : Nat} (h : a < 128) : BitVec.ofNat 8 a &&& 0x80#8 = 0#8 := by
  have key : ∀ a : Fin 128, BitVec.ofNat 8 a.val &&& 0x80#8 = 0#8 := by decide
  exact key ⟨a, h⟩

theorem setHigh (l : Line) : Statement (.setHigh l) := fun _ => ⟨_, _, rfl, by cases l <;> rfl⟩
theorem setLow (l : Line) : Statement (.setLow l) := fun _ => ⟨_, _, rfl, by cases l <;> rfl⟩
theorem readLevel (l : Line) : Statement (.readLevel l) := fun _ => ⟨_, _, rfl, by cases l <;> rfl⟩
theorem setDir (l : Line) (d : Dir) : Statement (.setDir l d) := fun _ => ⟨_, _, rfl, by cases l <;> cases d <;> rfl⟩
theorem loadDR (v : Byte) : Statement (.loadDR v) := fun _ => ⟨_, _, rfl, by
  rw [Row.matches, show (rowOf (.loadDR v)).mask = packWord 0xF#4 0xF#4 0xFF#8 0xFF#8 0x00#8 from rfl, and_packWord, BitVec.and_zero]; rfl⟩
theorem readDR : Statement .readDR := fun _ => ⟨_, _, rfl, rfl⟩
theorem loadSR (cw : Byte) : Statement (.loadSR cw) := fun _ => ⟨_, _, rfl, by
  rw [Row.matches, show (rowOf (.loadSR cw)).mask = packWord 0xF#4 0xF#4 0xFF#8 0xFF#8 0x00#8 from rfl, and_packWord, BitVec.and_zero]; rfl⟩
theorem readSR : Statement .readSR := fun _ => ⟨_, _, rfl, rfl⟩
theorem strobe : Statement .strobe := fun _ => ⟨_, _, rfl, rfl⟩
theorem delay (k : DelaySel) : Statement (.delay k) := fun _ => ⟨_, _, rfl, by cases k <;> rfl⟩
theorem waitHigh (l : Line) : Statement (.waitHigh l) := fun _ => ⟨_, _, rfl, by cases l <;> rfl⟩
theorem start : Statement .start := fun _ => ⟨_, _, rfl, rfl⟩
theorem stop : Statement .stop := fun _ => ⟨_, _, rfl, rfl⟩
theorem sendByte (v : Byte) : Statement (.sendByte v) := fun _ => ⟨_, _, rfl, by
  rw [Row.matches, show (rowOf (.sendByte v)).mask = packWord 0xF#4 0xF#4 0xFF#8 0xFF#8 0x00#8 from rfl, and_packWord, BitVec.and_zero]; rfl⟩
theorem xfer (n : Nat) (cw : Byte) : Statement (.xfer n cw) := fun _ => ⟨_, _, rfl, by
  rw [Row.matches, show (rowOf (.xfer n cw)).mask = packWord 0xF#4 0xF#4 0x00#8 0xFF#8 0x00#8 from rfl, and_packWord, BitVec.and_zero,
    BitVec.and_zero]; rfl⟩
theorem send (a : Nat) (bytes : List Byte) : Statement (.send a bytes) := fun h => ⟨_, _, rfl, by
  rw [Row.matches, show (rowOf (.send a bytes)).mask = packWord 0xF#4 0xF#4 0x00#8 0x80#8 0xFF#8 from rfl, and_packWord, BitVec.and_zero,
    address_field (by simp only [Instr.WellFormed, Instr.wellFormed, Bool.and_eq_true, decide_eq_true_eq] at h; exact h.1)]; rfl⟩
theorem receive (a c : Nat) : Statement (.receive a c) := fun h => ⟨_, _, rfl, by
  rw [Row.matches, show (rowOf (.receive a c)).mask = packWord 0xF#4 0xF#4 0x00#8 0x80#8 0xFF#8 from rfl, and_packWord, BitVec.and_zero,
    address_field (by simp only [Instr.WellFormed, Instr.wellFormed, Bool.and_eq_true, decide_eq_true_eq] at h; exact h.1)]; rfl⟩

end Sys2Proof.Laws.TableMatch
end

