-- ==== Sys2Proof/Laws/Polls.lean ====
section
/-! SUPPORT. The step of the machine at a `WAITHIGH` step of a listing (20_memory.md R74), whatever listing it stands in, and at any poll,
the command `WAITHIGH` among them, that samples 0. -/

namespace Sys2Proof.Laws.Polls

open Sys2Proof Sys2Proof.Machine

/-- Everything a step at a poll on `l` can do (R131): go to the position `q` after it, stay, or raise BusTimeout. -/
def atPoll (s : State) (l : Line) (q : Seq) : State :=
  match s.blk.poll l with
  | .high b => s.goto b q
  | .again b => { s with blk := b }
  | .timeout b => s.raiseBusTimeout b l

/-- A step at a poll, wherever the listing that makes it is nested. -/
theorem step_poll {s : State} {l : Line} {q : Seq} (h : s.seq.poll = some (l, q)) : step s = .next (atPoll s l q) := by
  have hs : s.seq ≠ .ready := by intro e; rw [e] at h; simp [Seq.poll] at h
  rw [Ops.step_running hs]
  obtain ⟨blk, seq, result, program, client, clientLog, inbox⟩ := s
  simp only at h
  have key : (∃ c, blk.poll l = .high c) ∨ (∃ c, blk.poll l = .again c) ∨ (∃ c, blk.poll l = .timeout c) := by
    cases blk.poll l <;> simp
  have byXfer : ∀ {x : XferPos} {y : Line × XferPos}, x.poll = some y → ∃ c, x = .x4 c ∧ y = (.clock, .x5 c) := by
    intro x y hx
    cases x with
    | x4 c => exact ⟨c, rfl, by simpa [XferPos.poll] using hx.symm⟩
    | _ => simp [XferPos.poll] at hx
  have byByte : ∀ {p : BytePos} {y : Line × BytePos}, p.poll = some y →
      ∃ c, (p = .b2 (.x4 c) ∧ y = (.clock, .b2 (.x5 c))) ∨ (p = .b4 (.x4 c) ∧ y = (.clock, .b4 (.x5 c))) := by
    intro p y hp
    cases p with
    | b2 x => cases x with
      | x4 c => exact ⟨c, .inl ⟨rfl, by simpa [BytePos.poll, XferPos.poll] using hp.symm⟩⟩
      | _ => simp [BytePos.poll, XferPos.poll] at hp
    | b4 x => cases x with
      | x4 c => exact ⟨c, .inr ⟨rfl, by simpa [BytePos.poll, XferPos.poll] using hp.symm⟩⟩
      | _ => simp [BytePos.poll, XferPos.poll] at hp
    | _ => simp [BytePos.poll] at hp
  have byStart : ∀ {p : StartPos} {y : Line × StartPos}, p.poll = some y → p = .s2 ∧ y = (.clock, .s3) := by
    intro p y hp
    cases p with
    | s2 => exact ⟨rfl, by simpa [StartPos.poll] using hp.symm⟩
    | _ => simp [StartPos.poll] at hp
  have byStop : ∀ {p : StopPos} {y : Line × StopPos}, p.poll = some y →
      (p = .p3 ∧ y = (.clock, .p4)) ∨ (p = .p6 ∧ y = (.data, .p7)) := by
    intro p y hp
    cases p with
    | p3 => exact .inl ⟨rfl, by simpa [StopPos.poll] using hp.symm⟩
    | p6 => exact .inr ⟨rfl, by simpa [StopPos.poll] using hp.symm⟩
    | _ => simp [StopPos.poll] at hp
  cases seq with
  | ready => exact absurd rfl hs
  | waitHigh _ => simp [Seq.poll] at h
  | recover _ _ => simp [Seq.poll] at h
  | start p =>
    simp only [Seq.poll, Option.map_eq_some_iff] at h
    obtain ⟨y, hy, he⟩ := h
    obtain ⟨rfl, rfl⟩ := byStart hy
    cases he
    obtain ⟨c, e⟩ | ⟨c, e⟩ | ⟨c, e⟩ := key <;>
      simp [seqStep, startStep, startAdv, pollAdv, atPoll, e, State.runListing, State.goto]
  | stop p =>
    simp only [Seq.poll, Option.map_eq_some_iff] at h
    obtain ⟨y, hy, he⟩ := h
    obtain ⟨rfl, rfl⟩ | ⟨rfl, rfl⟩ := byStop hy <;> cases he <;> obtain ⟨c, e⟩ | ⟨c, e⟩ | ⟨c, e⟩ := key <;>
      simp [seqStep, stopStep, stopAdv, pollAdv, atPoll, e, State.runListing, State.goto]
  | sendByte p =>
    simp only [Seq.poll, Option.map_eq_some_iff] at h
    obtain ⟨y, hy, he⟩ := h
    obtain ⟨x, ⟨rfl, rfl⟩ | ⟨rfl, rfl⟩⟩ := byByte hy <;> cases he <;> obtain ⟨c, e⟩ | ⟨c, e⟩ | ⟨c, e⟩ := key <;>
      simp [seqStep, sendByteStep, byteAdv, xferAdv, Adv.call, pollAdv, atPoll, e, State.runListing, State.goto]
  | xfer x =>
    simp only [Seq.poll, Option.map_eq_some_iff] at h
    obtain ⟨y, hy, he⟩ := h
    obtain ⟨x, rfl, rfl⟩ := byXfer hy
    cases he
    obtain ⟨c, e⟩ | ⟨c, e⟩ | ⟨c, e⟩ := key <;>
      simp [seqStep, xferStep, xferAdv, pollAdv, atPoll, e, State.runListing, State.goto]
  | send t p =>
    cases p with
    | w1 p =>
      simp only [Seq.poll, Option.map_eq_some_iff] at h
      obtain ⟨y, hy, he⟩ := h
      obtain ⟨rfl, rfl⟩ := byStart hy
      cases he
      obtain ⟨c, e⟩ | ⟨c, e⟩ | ⟨c, e⟩ := key <;>
        simp [seqStep, sendStep, sendAdv, startAdv, Adv.call, pollAdv, atPoll, e, State.runListing, State.goto]
    | w2 p =>
      simp only [Seq.poll, Option.map_eq_some_iff] at h
      obtain ⟨y, hy, he⟩ := h
      obtain ⟨x, ⟨rfl, rfl⟩ | ⟨rfl, rfl⟩⟩ := byByte hy <;> cases he <;> obtain ⟨c, e⟩ | ⟨c, e⟩ | ⟨c, e⟩ := key <;>
        simp [seqStep, sendStep, sendAdv, byteAdv, xferAdv, Adv.call, pollAdv, atPoll, e, State.runListing, State.goto]
    | w4 p =>
      simp only [Seq.poll, Option.map_eq_some_iff] at h
      obtain ⟨y, hy, he⟩ := h
      obtain ⟨x, ⟨rfl, rfl⟩ | ⟨rfl, rfl⟩⟩ := byByte hy <;> cases he <;> obtain ⟨c, e⟩ | ⟨c, e⟩ | ⟨c, e⟩ := key <;>
        simp [seqStep, sendStep, sendAdv, byteAdv, xferAdv, Adv.call, pollAdv, atPoll, e, State.runListing, State.goto]
    | w6 p =>
      simp only [Seq.poll, Option.map_eq_some_iff] at h
      obtain ⟨y, hy, he⟩ := h
      obtain ⟨rfl, rfl⟩ | ⟨rfl, rfl⟩ := byStop hy <;> cases he <;> obtain ⟨c, e⟩ | ⟨c, e⟩ | ⟨c, e⟩ := key <;>
        simp [seqStep, sendStep, sendAdv, stopAdv, Adv.call, pollAdv, atPoll, e, State.runListing, State.goto]
  | receive t p =>
    cases p with
    | q5 => simp [Seq.poll] at h
    | q7 _ => simp [Seq.poll] at h
    | q8 _ => simp [Seq.poll] at h
    | q1 p =>
      simp only [Seq.poll, Option.map_eq_some_iff] at h
      obtain ⟨y, hy, he⟩ := h
      obtain ⟨rfl, rfl⟩ := byStart hy
      cases he
      obtain ⟨c, e⟩ | ⟨c, e⟩ | ⟨c, e⟩ := key <;>
        simp [seqStep, recvStep, recvAdv, startAdv, Adv.call, pollAdv, atPoll, e, State.runListing, State.goto]
    | q2 p =>
      simp only [Seq.poll, Option.map_eq_some_iff] at h
      obtain ⟨y, hy, he⟩ := h
      obtain ⟨x, ⟨rfl, rfl⟩ | ⟨rfl, rfl⟩⟩ := byByte hy <;> cases he <;> obtain ⟨c, e⟩ | ⟨c, e⟩ | ⟨c, e⟩ := key <;>
        simp [seqStep, recvStep, recvAdv, byteAdv, xferAdv, Adv.call, pollAdv, atPoll, e, State.runListing, State.goto]
    | q3 p =>
      simp only [Seq.poll, Option.map_eq_some_iff] at h
      obtain ⟨y, hy, he⟩ := h
      obtain ⟨rfl, rfl⟩ | ⟨rfl, rfl⟩ := byStop hy <;> cases he <;> obtain ⟨c, e⟩ | ⟨c, e⟩ | ⟨c, e⟩ := key <;>
        simp [seqStep, recvStep, recvAdv, stopAdv, Adv.call, pollAdv, atPoll, e, State.runListing, State.goto]
    | q6 x =>
      simp only [Seq.poll, Option.map_eq_some_iff] at h
      obtain ⟨y, hy, he⟩ := h
      obtain ⟨x, rfl, rfl⟩ := byXfer hy
      cases he
      obtain ⟨c, e⟩ | ⟨c, e⟩ | ⟨c, e⟩ := key <;>
        simp [seqStep, recvStep, recvAdv, xferAdv, Adv.call, pollAdv, atPoll, e, State.runListing, State.goto]
    | q9 v x =>
      simp only [Seq.poll, Option.map_eq_some_iff] at h
      obtain ⟨y, hy, he⟩ := h
      obtain ⟨x, rfl, rfl⟩ := byXfer hy
      cases he
      obtain ⟨c, e⟩ | ⟨c, e⟩ | ⟨c, e⟩ := key <;>
        simp [seqStep, recvStep, recvAdv, xferAdv, Adv.call, pollAdv, atPoll, e, State.runListing, State.goto]
    | q11 p =>
      simp only [Seq.poll, Option.map_eq_some_iff] at h
      obtain ⟨y, hy, he⟩ := h
      obtain ⟨rfl, rfl⟩ | ⟨rfl, rfl⟩ := byStop hy <;> cases he <;> obtain ⟨c, e⟩ | ⟨c, e⟩ | ⟨c, e⟩ := key <;>
        simp [seqStep, recvStep, recvAdv, stopAdv, Adv.call, pollAdv, atPoll, e, State.runListing, State.goto]

/-- Everything a step can do at a poll on `l` that samples 0 (R131): stay, or raise BusTimeout. -/
def atLow (s : State) (l : Line) : State :=
  match s.blk.poll l with
  | .high _ => s
  | .again b => { s with blk := b }
  | .timeout b => s.raiseBusTimeout b l

/-- A step at a poll that samples 0, in a listing or as the command `WAITHIGH`. -/
theorem step_low {s : State} {l : Line} (h : s.seq.awaited = some l) (hs : s.blk.sample l = false) : step s = .next (atLow s l) := by
  have key : (∃ c, s.blk.poll l = .again c) ∨ (∃ c, s.blk.poll l = .timeout c) := by
    obtain ⟨e, _⟩ | ⟨_, _, e⟩ | ⟨_, _, _, _, e⟩ | ⟨_, _, _, _, e⟩ := Ops.poll_cases s.blk l
    · rw [hs] at e; cases e
    · exact .inl ⟨_, e⟩
    · exact .inl ⟨_, e⟩
    · exact .inr ⟨_, e⟩
  have inListing : ∀ y, s.seq.poll = some y → y.1 = l → step s = .next (atLow s l) := by
    rintro ⟨l', q⟩ hp rfl
    rw [step_poll hp]
    obtain ⟨c, e⟩ | ⟨c, e⟩ := key <;> simp only [atPoll, atLow, e]
  obtain ⟨blk, seq, result, program, client, clientLog, inbox⟩ := s
  cases seq with
  | waitHigh l' =>
    cases h
    have hw : step (⟨blk, .waitHigh l, result, program, client, clientLog, inbox⟩ : State) =
        waitHighStep l ⟨blk, .waitHigh l, result, program, client, clientLog, inbox⟩ := by
      rw [Ops.step_running (by simp), seqStep]
    rw [hw, waitHighStep, waitHighNext]
    obtain ⟨c, e⟩ | ⟨c, e⟩ := key <;> simp only at e <;> simp [atLow, e, State.goto]
  | _ =>
    simp only [Seq.awaited, Option.map_eq_some_iff] at h
    obtain ⟨y, hy, e⟩ := h
    exact inListing y hy e

end Sys2Proof.Laws.Polls
end

