-- ==== Sys2Proof/Tests/Slice0.lean ====
section
/-! SUPPORT. Tests on single steps, with the values of 95_test_vectors.md, and a witness for the hypotheses of every obligation that has
some. Pairs of levels are (CLOCK, DATA). -/

namespace Sys2Proof.Tests

open Sys2Proof Sys2Proof.Machine Sys2Proof.Claims

/-! ### Fixtures -/

/-- The illustrative sensor values of P1, the customary times of V42. -/
def cfg : Config where
  pinClock := 0
  pinData := 1
  tHigh := 4
  tLow := 5
  tSetup := 5
  pollLimit := none
  rxCheckAddrAck := false
  sensorAddr := 0x40
  ptrConfig := 0x02#8
  cfgHi := 0x10#8
  cfgLo := 0x00#8
  ptrTrigger := 0x00#8
  conversionDelay := 20000
  floatEval := floatEvalOf nearestT nearestH
  driverSurfacesErrors := false

/-- The parameters with a finite `POLL_LIMIT`. -/
def limited (n : Nat) : Config := { cfg with pollLimit := some n }

/-- Nothing holds a line. -/
def quiet : EnvAnswer := ⟨false, false, false, false⟩
/-- DATA is held low. -/
def dataHeld : EnvAnswer := ⟨false, true, false, true⟩
/-- CLOCK is held low. -/
def clockHeld : EnvAnswer := ⟨true, false, true, false⟩

/-- `n` answers of a quiet bus. -/
def idle (n : Nat) : List EnvAnswer := List.replicate n quiet

/-- `n` answers in which a slave acknowledges every frame of a `SEND`: micro-operations 56, 109, and so on (V30). -/
def acking (n : Nat) : List EnvAnswer := (List.range n).map fun k => if k % 53 = 3 ∧ 3 < k then dataHeld else quiet

/-- The block after construction, on a scripted bus. -/
def blk (env : List EnvAnswer) : Block := { Block.construct cfg with env := env }

/-- After construction. -/
def fresh (env : List EnvAnswer) : State := { State.construct cfg with blk := blk env }

/-- After a `START` (R156). -/
def started (env : List EnvAnswer) : State :=
  { State.construct cfg with blk := { blk env with latchClock := false, bus := .start, afterStart := true } }

/-- After an address byte. -/
def addressed (env : List EnvAnswer) : State :=
  { State.construct cfg with
    blk := { blk env with latchClock := false, bus := .addressPhase, afterStart := true, done := true } }

/-- After a `SENDBYTE` (R156). -/
def acked (env : List EnvAnswer) : State :=
  { State.construct cfg with blk := { blk env with latchClock := false, bus := .ackPhase, done := true } }

/-- `s` with its block changed. -/
def onBlk (s : State) (f : Block → Block) : State := { s with blk := f s.blk }

/-- The outcome is a next state with a property. -/
def nextIs (o : Out) (p : State → Bool) : Bool :=
  match o with
  | .next t => p t
  | .fault _ => false
  | .refused _ => false

/-- The outcome is a refusal. -/
def refusedWith (o : Out) (r : Refusal) : Bool :=
  match o with
  | .next _ => false
  | .fault _ => false
  | .refused q => q == r

/-- The value a command that completed with status 0 returned. -/
def returned (t : State) (v : ResultValue) : Bool := t.seq == .ready && t.result == some ⟨.ok, v⟩

/-- The last entry of the line history. -/
def levelsAre (t : State) (c d : Bool) : Bool := t.blk.lineHist.getLast? == some ⟨c, d⟩

/-- `SR` as `READSR` shows it. -/
def srIs (t : State) (v : Byte) : Bool := srByte t.blk.cnt t.blk.done == v

/-- What a decoded list of words gives. -/
def decodesTo (ws : List Word) (i : Instr) : Bool :=
  match decode ws with
  | .ok (j, rest) => j == i && rest == []
  | .error _ => false

/-- The words are refused as reserved. -/
def isReserved (ws : List Word) : Bool :=
  match decode ws with
  | .ok _ => false
  | .error e => e == .reservedEncoding

/-! ### WellFormed: one ill-formed term for each check (R99 to R101) -/

theorem test_wf_xfer_pair : (Instr.xfer 8 0xFE#8).wellFormed = false := by decide
theorem test_wf_xfer_count : (Instr.xfer 4 0xF8#8).wellFormed = false := by decide
theorem test_wf_send_address : (Instr.send 128 []).wellFormed = false := by decide
theorem test_wf_send_payload : (Instr.send 0 (List.replicate 256 0#8)).wellFormed = false := by
  simp only [Instr.wellFormed, List.length_replicate]
  decide
theorem test_wf_receive_address : (Instr.receive 128 1).wellFormed = false := by decide
theorem test_wf_receive_zero : (Instr.receive 0 0).wellFormed = false := by decide
theorem test_wf_receive_count : (Instr.receive 0 256).wellFormed = false := by decide
theorem test_wf_limits : (Instr.send 127 (List.replicate 255 0#8)).wellFormed = true ∧ (Instr.receive 127 255).wellFormed = true := by
  simp only [Instr.wellFormed, List.length_replicate]
  decide

/-! ### Decoding: words written out from R96 to R101 (V39) -/

theorem test_decode_pins :
    decodesTo [0x10000000#32] (.setHigh .clock) ∧ decodesTo [0x10010000#32] (.setHigh .data) ∧
    decodesTo [0x11000000#32] (.setLow .clock) ∧ decodesTo [0x11010000#32] (.setLow .data) ∧
    decodesTo [0x12000000#32] (.readLevel .clock) ∧ decodesTo [0x12010000#32] (.readLevel .data) ∧
    decodesTo [0x13000000#32] (.setDir .clock .input) ∧ decodesTo [0x13000001#32] (.setDir .clock .output) ∧
    decodesTo [0x13010000#32] (.setDir .data .input) ∧ decodesTo [0x13010001#32] (.setDir .data .output) := by decide

theorem test_decode_shift :
    decodesTo [0x140000A5#32] (.loadDR 0xA5#8) ∧ decodesTo [0x15000000#32] .readDR ∧
    decodesTo [0x160000FE#32] (.loadSR 0xFE#8) ∧ decodesTo [0x17000000#32] .readSR ∧ decodesTo [0x18000000#32] .strobe := by decide

theorem test_decode_waits :
    decodesTo [0x19000000#32] (.delay .tLow) ∧ decodesTo [0x19010000#32] (.delay .tHigh) ∧
    decodesTo [0x19020000#32] (.delay .tSetup) ∧ decodesTo [0x1A000000#32] (.waitHigh .clock) ∧
    decodesTo [0x1A010000#32] (.waitHigh .data) := by decide

theorem test_decode_primitives :
    decodesTo [0x20000000#32] .start ∧ decodesTo [0x21000000#32] .stop ∧ decodesTo [0x22000081#32] (.sendByte 0x81#8) ∧
    decodesTo [0x230800F0#32] (.xfer 8 0xF0#8) ∧ decodesTo [0x230100FE#32] (.xfer 1 0xFE#8) := by decide

theorem test_decode_transactions :
    decodesTo [0x30000000#32] (.send 0 []) ∧ decodesTo [0x30017F00#32, 0xFF#32] (.send 127 [0xFF#8]) ∧
    decodesTo [0x30034000#32, 0x02#32, 0x10#32, 0x00#32] (.send 0x40 [0x02#8, 0x10#8, 0x00#8]) ∧
    decodesTo [0x31044000#32] (.receive 0x40 4) ∧ decodesTo [0x31FF7F00#32] (.receive 127 255) := by decide

/-- V29. -/
theorem test_decode_reserved :
    ([0x00000000#32, 0xFFFFFFFF#32, 0x40000000#32, 0x1B000000#32, 0x24000000#32, 0x32004000#32, 0x10020000#32, 0x13000002#32,
      0x15000001#32, 0x20000001#32, 0x19030000#32, 0x230400F8#32, 0x230800FE#32, 0x230100F0#32, 0x30008000#32, 0x30004001#32,
      0x31004000#32] : List Word).all (fun w => isReserved [w]) = true ∧
    isReserved [0x30014000#32, 0x00000100#32] = true := by decide

/-- Words that end inside a `SEND` (log 6). -/
theorem test_decode_truncated : decode [0x30024000#32, 0x01#32] = .error .truncatedCommand := rfl

/-- The table numbers a word's bits as R96 does; extension words beyond the row's bits are zeros. -/
theorem test_table_words :
    decodeTableWord 32 0x1A010000 = some (.waitHigh .data) ∧ decodeTableWord 32 0x30020500 = some (.send 5 [0#8, 0#8]) ∧
    decodeTableWord 32 0x1B000000 = none := by decide

theorem test_encode :
    encode (.setDir .data .output) = [0x13010001#32] ∧ encode (.send 0x7F [0xFF#8]) = [0x30017F00#32, 0xFF#32] ∧
    encode (.receive 0x40 4) = [0x31044000#32] := by decide

/-! ### Results and address bytes (V8, V38) -/

theorem test_result_words :
    resultWords ⟨.ok, .byte 0xA5#8⟩ = [0xA5#32] ∧ resultWords ⟨.acknowledgmentFailure, .frames 2⟩ = [0x01000002#32] ∧
    resultWords ⟨.busTimeout, .line .data⟩ = [0x02000001#32] ∧ resultWords ⟨.malformedReceive, .empty⟩ = [0x03000000#32] ∧
    resultWords ⟨.ok, .bytes [0x64#8, 0xD9#8, 0x66#8, 0x66#8]⟩ = [0x00040000#32, 0x64#32, 0xD9#32, 0x66#32, 0x66#32] := by decide

theorem test_address_bytes :
    addressWrite 0x23#7 = 0x46#8 ∧ addressRead 0x52#7 = 0xA5#8 ∧ addressWrite 0x7F#7 = 0xFE#8 ∧ addressRead 0x7F#7 = 0xFF#8 := by decide

/-! ### The micro-operations, one step each -/

/-- V19: DATA raised while CLOCK is high. -/
theorem test_setHigh :
    nextIs (exec (.setHigh .data) (onBlk (fresh [quiet]) fun b => { b with latchData := false }))
      (fun t => t.blk.latchData && t.blk.latchClock && levelsAre t true true && returned t .empty) := by decide

/-- V19. -/
theorem test_setLow :
    nextIs (exec (.setLow .data) (fresh [quiet])) (fun t => !t.blk.latchData && t.blk.latchClock && levelsAre t true false) := by decide

/-- V15: driving CLOCK low is no strobe. -/
theorem test_setLow_is_no_strobe :
    nextIs (exec (.setLow .clock) (fresh [quiet])) (fun t => srIs t 0x00#8 && t.blk.dr == 0xFF#8 && levelsAre t false true) := by decide

/-- V16. -/
theorem test_readLevel : nextIs (exec (.readLevel .clock) (fresh [quiet])) (fun t => returned t (.bit true)) := by decide

/-- V16: the level is the wire, whatever the direction. -/
theorem test_readLevel_held :
    nextIs (exec (.readLevel .data) (onBlk (fresh [dataHeld]) fun b => { b with dirData := .input }))
      (fun t => returned t (.bit false)) := by decide

/-- R124: `output` lets a zero of `DR[7]` reach the wire. -/
theorem test_setDir_output :
    nextIs (exec (.setDir .data .output) (onBlk (started [quiet]) fun b => { b with dirData := .input, dr := 0x3C#8 }))
      (fun t => t.blk.dirData == .output && levelsAre t false false && t.blk.dr == 0x3C#8) := by decide

/-- V19: `input` releases the line, the latch stays. -/
theorem test_setDir_input :
    nextIs (exec (.setDir .data .input) (onBlk (fresh [quiet]) fun b => { b with latchData := false }))
      (fun t => levelsAre t true true && !t.blk.latchData) := by decide

/-- R125's example: `LOADDR 0x46` after a start. -/
theorem test_loadDR :
    nextIs (exec (.loadDR 0x46#8) (started [quiet])) (fun t => t.blk.dr == 0x46#8 && levelsAre t false false && srIs t 0x00#8) := by decide

/-- R126: `0xFF` after reset. -/
theorem test_readDR : nextIs (exec .readDR (fresh [quiet])) (fun t => returned t (.byte 0xFF#8)) := by decide

/-- R127's example. -/
theorem test_loadSR : nextIs (exec (.loadSR 0xFE#8) (acked [quiet])) (fun t => srIs t 0x0E#8) := by decide

/-- V15: bit 6 written 0 leaves `DONE`. -/
theorem test_loadSR_keeps_done : nextIs (exec (.loadSR 0x00#8) (acked [quiet])) (fun t => srIs t 0x40#8) := by decide

/-- V15. -/
theorem test_readSR :
    nextIs (exec .readSR (onBlk (acked [quiet]) fun b => { b with cnt := 15#4, done := false }))
      (fun t => returned t (.byte 0x0F#8) && srIs t 0x0F#8) := by decide

/-- V14 (a); (d): the sample is the wired AND. -/
theorem test_strobe_falling :
    nextIs (exec .strobe (onBlk (fresh [quiet]) fun b => { b with dr := 0xA5#8, cnt := 1#4 }))
      (fun t => t.blk.dr == 0x4B#8 && srIs t 0x02#8 && !t.blk.latchClock && levelsAre t false false) ∧
    nextIs (exec .strobe (fresh [dataHeld])) (fun t => t.blk.dr == 0xFE#8) := by decide

/-- V15: a rising strobe, and the wrap. V14 (c): a falling strobe with CLOCK held. -/
theorem test_strobe_rising_and_refused :
    nextIs (exec .strobe (onBlk (started [quiet]) fun b => { b with cnt := 15#4 }))
      (fun t => srIs t 0x40#8 && t.blk.latchClock && t.blk.dr == 0xFF#8) ∧
    refusedWith (exec .strobe (fresh [clockHeld])) .fallingStrobeWhileClockLow := by decide

/-- V18. -/
theorem test_delay :
    nextIs (exec (.delay .tSetup) (started [quiet])) (fun t => returned t .empty && levelsAre t false true && srIs t 0x00#8) := by decide

/-- V17: `WAITHIGH DATA` on an idle bus. -/
theorem test_waitHigh : nextIs (exec (.waitHigh .data) (fresh [quiet])) (fun t => returned t .empty) := by decide

/-- V17: the last sample a limit allows. -/
theorem test_waitHigh_timeout :
    nextIs (exec (.waitHigh .clock) (onBlk (fresh [clockHeld]) fun b => { b with cfg := limited 3, pollN := 2 }))
      (fun t => t.seq == .recover .r1 .clock && t.result == none) := by decide

/-! ### The primitives, first step and last -/

/-- V12, first row. -/
theorem test_start :
    nextIs (exec .start (fresh [quiet])) (fun t => t.seq == .start .s2 && t.blk.bus == .start && levelsAre t true true) := by decide

/-- V12, last row. -/
theorem test_start_ends :
    nextIs (step { started [quiet] with
        seq := .start .s7, blk := { blk [quiet] with latchClock := false, latchData := false, bus := .start } })
      (fun t => returned t .empty && t.blk.afterStart && t.blk.primHist == [.start] && levelsAre t false true) := by decide

/-- V13, first row. -/
theorem test_stop :
    nextIs (exec .stop (started [quiet])) (fun t => t.seq == .stop .p2 && t.blk.bus == .stop && levelsAre t false false) := by decide

/-- V13, last row. -/
theorem test_stop_ends :
    nextIs (step { fresh [quiet] with seq := .stop .p7, blk := { blk [quiet] with bus := .stop } })
      (fun t => returned t .empty && t.blk.bus == .idle && t.blk.primHist == [.stop] && levelsAre t true true) := by decide

/-- V11, first row. -/
theorem test_sendByte :
    nextIs (exec (.sendByte 0xA5#8) (started [quiet]))
      (fun t => t.seq == .sendByte (.b2 (.x1 .eight)) && t.blk.dr == 0xA5#8 && t.blk.bus == .addressPhase) := by decide

/-- V21: the value is bit 0 of the 1-bit transfer's byte, 1 for NACK. -/
theorem test_sendByte_ends :
    nextIs (step { acked [quiet] with seq := .sendByte (.b6 0x4B#8) }) (fun t => returned t (.bit true)) := by decide

/-- V10, row 1. -/
theorem test_xfer :
    nextIs (exec (.xfer 8 0xF0#8) (onBlk (started [quiet]) fun b => { b with dr := 0xA5#8 }))
      (fun t => t.seq == .xfer (.x2 ⟨.eight, .output, 0xA5#8⟩) && srIs t 0x00#8 && t.blk.bus == .addressPhase) := by decide

/-- V10, row 42. -/
theorem test_xfer_ends :
    nextIs (step { addressed [quiet] with seq := .xfer (.x7 ⟨.eight, .output, 0xA5#8⟩), blk := { (addressed [quiet]).blk with dr := 0xA5#8 } })
      (fun t => returned t (.byte 0xA5#8) && t.blk.primHist == [.byteOut 0xA5#8] && srIs t 0x40#8) := by decide

/-! ### The transactions -/

/-- V31. -/
theorem test_send :
    nextIs (exec (.send 0x40 []) (fresh [quiet])) (fun t => t.seq == .send ⟨0x40#7, [], 0, true⟩ (.w1 .s2)) := by decide

/-- V4: a payload byte not acknowledged leads to the stop, with two frames acknowledged. -/
theorem test_send_nack :
    nextIs (step { acked [quiet] with seq := .send ⟨0x40#7, [0xAA#8, 0xBB#8, 0xCC#8], 1, true⟩ (.w4 (.b6 0xFF#8)) })
      (fun t => match t.seq with | .send l p => !l.ok && l.i == 2 && p == .w6 .p1 | _ => false) := by decide

/-- V34. -/
theorem test_receive :
    nextIs (exec (.receive 0x40 1) (fresh [quiet])) (fun t => t.seq == .receive ⟨0x40#7, 1, 0, []⟩ (.q1 .s2)) := by decide

/-- V3: the last byte gets the NACK pattern. -/
theorem test_receive_last_nack :
    nextIs (step { acked [quiet] with seq := .receive ⟨0x40#7, 4, 3, [0x64#8, 0xD9#8, 0x66#8]⟩ (.q8 0x66#8) })
      (fun t => t.blk.dr == 0xFF#8) := by decide

/-- V27, V28: refusals change nothing and name the rule. -/
theorem test_refusals :
    refusedWith (exec .start (started [quiet])) .startNotFromIdle ∧ refusedWith (exec .stop (fresh [quiet])) .stopNotAfterStartOrAck ∧
    refusedWith (exec (.sendByte 0x55#8) (fresh [quiet])) .byteNotAfterStartOrAck ∧
    refusedWith (exec (.xfer 1 0xFE#8) (started [quiet])) .ackNotAfterByte ∧ refusedWith (exec (.send 0x40 []) (started [quiet])) .busy := by
  decide

/-! ### The wire (R64, R68, R77) -/

/-- V10, rows 2 to 8: one data bit a clock cycle, at the rise of CLOCK. -/
theorem test_data_bits :
    dataBits ⟨false, true⟩ [⟨true, true⟩, ⟨true, true⟩, ⟨true, true⟩, ⟨false, false⟩, ⟨false, false⟩, ⟨true, false⟩] = [true, false] := by
  decide

/-- R68, R69: the ninth bit of a written byte is its slave's, the eight of a read byte are, and none after the master's NACK. -/
theorem test_slave_bits :
    wireAddress [true, false, false, false, false, false, false, true] = 0x40#7 ∧
    Frame.next .address [true, false, false, false, false, false, false, true] false = .bit (.read 0x40#7) [] ∧
    Frame.next .address [true, false, false, false, false, false, false, false] true = .bit (.written 0x40#7) [] ∧
    (Listening.bit (.written 0x40#7) (List.replicate 8 true)).slaveBit = some 0x40#7 ∧
    (Listening.bit (.written 0x40#7) (List.replicate 7 true)).slaveBit = none ∧
    (Listening.bit (.read 0x40#7) []).slaveBit = some 0x40#7 ∧ Frame.next (.read 0x40#7) [] true = .ended := by decide

/-! ### The step around exec -/

/-- A word handed over runs as the next step, right after reset (V12, first row). -/
theorem test_withFetchWord :
    nextIs (step (State.reset.withFetchWord 32 0x20000000)) (fun t => t.seq == .start .s2 && t.program == []) := by decide

/-- R106, R107. -/
theorem test_assembler :
    assemble "SETDIR DATA, input" = some (.command (.setDir .data .input)) ∧ assemble "XFER 8, 0xF0" = some (.command (.xfer 8 0xF0#8)) ∧
    assemble "SEND 0x40, [0x02, 0x10, 0x00] ; P1" = some (.command (.send 0x40 [0x02#8, 0x10#8, 0x00#8])) ∧
    assemble "RECEIVE 0x40, 4" = some (.command (.receive 0x40 4)) := by decide

/-- V40: the nearest float32 of 0x0000, 0x64D9 and 0x8000 as their bits. -/
theorem test_floats :
    nearestT 0x0000#16 = 0xC2200000#32 ∧ nearestT 0x8000#16 = 0x422A0000#32 ∧ nearestH 0x8000#16 = 0x42480000#32 ∧
    nearestH 0x0000#16 = 0#32 := by decide

/-! ### Witnesses: states and operands that meet each obligation's hypotheses, clause by clause -/

theorem witness_SetHighReleasesTheLatch :
    (fresh [quiet]).seq = .ready ∧ (onBlk (fresh []) fun b => { b with dirData := .input }).blk.dir .data = .input ∧
    (let b := (onBlk (fresh []) fun b => { b with latchData := false }).blk
     b.dr.getLsbD 7 = true ∧ b.level .clock false = true ∧ b.level .data false = false) := by decide

theorem witness_SetLowDrivesTheLatch :
    (fresh [quiet]).seq = .ready ∧ (fresh []).blk.dir .clock = .output ∧
    (onBlk (fresh []) fun b => { b with dirClock := .input }).blk.dir .clock = .input ∧ (fresh []).blk.dirData = .output ∧
    (fresh []).blk.level .clock false = true ∧ (fresh []).blk.level .data false = true := by decide

theorem witness_ReadLevelReturnsThePhysicalLevel :
    (fresh [quiet]).seq = .ready ∧ (fresh [quiet]).blk.drivesLow .clock = false ∧
    envLow ((fresh [quiet]).blk.answerAt 0) .clock = false ∧ (started [quiet]).blk.drivesLow .clock = true := by decide

theorem witness_SetDirWritesTheDirection :
    (let s := onBlk (fresh [quiet]) fun b => { b with dirData := .input, latchData := false }
     s.seq = .ready ∧ s.blk.latchData = false ∧ s.blk.level .clock false = true ∧ s.blk.level .data false = true) ∧
    (onBlk (fresh []) fun b => { b with dr := 0x7F#8 }).blk.dr.getLsbD 7 = false := by decide

theorem witness_LoadDRWritesTheDataRegister :
    (fresh [quiet]).seq = .ready ∧ (fresh []).blk.dirData = .output ∧ (fresh []).blk.latchData = true ∧
    (0x46#8).getLsbD 7 = false ∧ (fresh []).blk.level .clock false = true ∧ (fresh []).blk.level .data false = true ∧
    (onBlk (fresh []) fun b => { b with dirData := .input }).blk.dirData = .input := by decide

/-- R7: a choice of `FloatEval` is used (V40: 0x8000 is 42.5 degrees). -/
theorem test_floatEval_chosen :
    convT ⟨[(0x8000#16, 0x422A0000#32)], []⟩ 0x8000#16 = 0x422A0000#32 := by decide

/-- For the statements on `READDR`, `READSR`, `DELAY`. -/
theorem witness_micro_operations_ready : (fresh [quiet]).seq = .ready ∧ (acked [quiet]).seq = .ready := by decide

theorem witness_MicroOperationsUseOneAnswer :
    isMicro .strobe = true ∧ nextIs (exec .strobe (fresh [quiet])) (fun t => t.blk.ops == 1) = true := by decide

theorem witness_LoadSRPreloadsTheCount : (0xF0#8).getLsbD 6 = true ∧ (0x00#8).getLsbD 6 = false := by decide

theorem witness_StrobeAdvancesOneEdge :
    (let s := fresh [clockHeld]
     s.seq = .ready ∧ s.blk.latchClock = true ∧ (s.blk.answerAt 0).clockLow = true) ∧
    (let s := fresh [quiet]
     s.blk.latchClock = true ∧ s.blk.drivesLow .clock = false ∧ (s.blk.answerAt 0).clockLow = false) ∧
    (started [quiet]).blk.latchClock = false := by decide

theorem witness_WaitHighPollsOncePerStep :
    (let s := fresh [quiet]
     s.seq = .ready ∧ s.blk.drivesLow .clock = false ∧ envLow (s.blk.answerAt 0) .clock = false) ∧
    (envLow ((fresh [clockHeld]).blk.answerAt 0) .clock = true ∧ (fresh [clockHeld]).blk.cfg.pollLimit = none) ∧
    (let s := onBlk (fresh [clockHeld]) fun b => { b with cfg := limited 3, pollN := 1 }
     s.blk.cfg.pollLimit = some 3 ∧ s.blk.pollN + 1 < 3) ∧
    (let s := onBlk (fresh [clockHeld]) fun b => { b with cfg := limited 3, pollN := 2 }
     s.blk.cfg.pollLimit = some 3 ∧ 3 ≤ s.blk.pollN + 1) := by decide

theorem witness_WaitHighOutwaitsAnyFiniteStretch :
    let s := fresh [clockHeld, clockHeld, clockHeld, quiet]
    s.seq = .ready ∧ s.blk.cfg.pollLimit = none ∧ s.blk.drivesLow .clock = false ∧
    (∀ k, k < 3 → envLow (s.blk.answerAt k) .clock = true) ∧ envLow (s.blk.answerAt 3) .clock = false := by decide

/-- Held by the environment for three polls; held by the master, here for a hundred. -/
theorem witness_WaitHighHangsOnALineHeldLow :
    (let s := fresh (List.replicate 3 clockHeld)
     s.seq = .ready ∧ s.blk.cfg.pollLimit = none ∧ ∀ k, k ≤ 2 → envLow (s.blk.answerAt k) .clock = true) ∧
    (let s := started []
     s.seq = .ready ∧ s.blk.cfg.pollLimit = none ∧ ∀ k, k ≤ 100 → s.blk.drivesLow .clock = true) :=
  ⟨by decide, rfl, rfl, fun _ _ => rfl⟩

/-- A transfer at X4 with CLOCK released. -/
def polling (env : List EnvAnswer) : State :=
  { started env with
    seq := .xfer (.x4 ⟨.eight, .output, 0xA5#8⟩)
    blk := { blk env with dr := 0xA5#8, cnt := 1#4, bus := .addressPhase, afterStart := true } }

theorem witness_StretchingOnlyRepeatsPolls :
    let s := polling [clockHeld, clockHeld, quiet]
    s.seq.poll = some (.clock, .xfer (.x5 ⟨.eight, .output, 0xA5#8⟩)) ∧ s.blk.cfg.pollLimit = none ∧
    s.blk.drivesLow .clock = false ∧ (∀ k, k < 2 → envLow (s.blk.answerAt k) .clock = true) ∧
    envLow (s.blk.answerAt 2) .clock = false := by decide

/-- A command `WAITHIGH DATA` that has polled. -/
def waiting (env : List EnvAnswer) : State := { fresh env with seq := .waitHigh .data }

/-- X4 with CLOCK held by a slave, the command `WAITHIGH`, and P6 with `DR[7] = 0`, where the master itself holds DATA. -/
theorem witness_EveryPollHangsOnALineHeldLow :
    (let s := polling (List.replicate 3 clockHeld)
     s.seq.awaited = some .clock ∧ s.blk.cfg.pollLimit = none ∧ ∀ k, k < 3 → envLow (s.blk.answerAt k) .clock = true) ∧
    (let s := waiting (List.replicate 3 dataHeld)
     s.seq.awaited = some .data ∧ s.blk.cfg.pollLimit = none ∧ ∀ k, k < 3 → envLow (s.blk.answerAt k) .data = true) ∧
    (let s := onBlk { fresh [] with seq := .stop .p6 } fun b => { b with dr := 0x00#8, bus := .stop }
     s.seq.awaited = some .data ∧ s.blk.cfg.pollLimit = none ∧ s.blk.drivesLow .data = true) := by decide

/-- The slave of V35, at the boundary limit 1 and at 5; a `WAITHIGH` that has polled once under a limit of 3; a `WAITHIGH` as it is
issued, under a limit of 1. -/
theorem witness_BusTimeoutAfterPollLimitSamples :
    (∀ limit ∈ [1, 5],
      let s := onBlk (polling (List.replicate 5 clockHeld)) fun b => { b with cfg := limited limit }
      s.seq.awaited = some .clock ∧ s.blk.cfg.pollLimit = some limit ∧ 0 < limit ∧ s.blk.pollN + limit = limit ∧
      (∀ k, k < limit → envLow (s.blk.answerAt k) .clock = true)) ∧
    (let s := onBlk (waiting [dataHeld, dataHeld]) fun b => { b with cfg := limited 3, pollN := 1 }
     s.seq.awaited = some .data ∧ s.blk.cfg.pollLimit = some 3 ∧ s.blk.pollN + 2 = 3 ∧
     (∀ k, k < 2 → envLow (s.blk.answerAt k) .data = true)) ∧
    (let s := onBlk (fresh [clockHeld]) fun b => { b with cfg := limited 1 }
     s.seq = .ready ∧ s.blk.cfg.pollLimit = some 1 ∧ s.blk.pollN = 0 ∧ ∀ k, k < 1 → envLow (s.blk.answerAt k) .clock = true) := by
  decide

theorem canTransact (env : List EnvAnswer) : CanTransact (fresh env) := ⟨rfl, rfl, rfl, rfl⟩

theorem witness_StartMakesAStartCondition :
    CanTransact (fresh (idle 7)) ∧ ((fresh (idle 7)).blk.answerAt 1).clockLow = false ∧ (fresh (idle 7)).blk.idleBus 7 ∧
    (fresh (idle 7)).blk.latchData = true ∧ (fresh (idle 7)).blk.dr.getLsbD 7 = true :=
  ⟨canTransact _, by decide, by unfold Block.idleBus; decide, by decide, by decide⟩

theorem witness_StopMakesAStopCondition :
    ∀ s ∈ [started (idle 7), acked (idle 7)],
      s.seq = .ready ∧ (s.blk.bus = .start ∨ s.blk.bus = .ackPhase) ∧ (s.blk.dirClock = .output ∧ s.blk.dirData = .output) ∧
      s.blk.latchClock = false ∧ s.blk.dr.getLsbD 7 = true ∧ (s.blk.answerAt 2).clockLow = false ∧
      (s.blk.answerAt 5).dataLow = false ∧ ∀ k, k < 7 → s.blk.answerAt k = ⟨false, false, false, false⟩ := by decide

theorem witness_StopHangsWhileTheDataRegisterHoldsDataLow :
    let s := onBlk (acked (idle 7)) fun b => { b with dr := 0x00#8 }
    s.seq = .ready ∧ s.blk.bus = .ackPhase ∧ s.blk.dirClock = .output ∧ s.blk.dirData = .output ∧ s.blk.latchClock = false ∧
    s.blk.dr.getLsbD 7 = false ∧ s.blk.cfg.pollLimit = none ∧ (s.blk.answerAt 2).clockLow = false := by decide

theorem witness_TransferEightBitsCapturesEightSamples :
    ∀ s ∈ [started (idle 42), onBlk (acked (idle 42)) fun b => { b with dirData := .input }],
      s.seq = .ready ∧ (s.blk.bus = .start ∨ s.blk.bus = .ackPhase) ∧ (s.blk.dirClock = .output ∧ s.blk.latchClock = false) ∧
      ∀ k, k < 42 → (s.blk.answerAt k).clockLow = false ∧ s.blk.answerAt k = ⟨false, false, false, false⟩ := by decide

theorem witness_TransferOneBitCapturesTheAcknowledgment :
    ∀ s ∈ [addressed (idle 7), onBlk (acked (idle 7)) fun b => { b with bus := .dataPhase }],
      s.seq = .ready ∧ (s.blk.bus = .addressPhase ∨ s.blk.bus = .dataPhase) ∧
      (s.blk.dirClock = .output ∧ s.blk.latchClock = false) ∧ ∀ k, k < 7 → (s.blk.answerAt k).clockLow = false := by decide

theorem witness_SendByteReturnsTheAcknowledgmentBit :
    ∀ s ∈ [started (idle 53), onBlk (acked (idle 53)) fun b => { b with dirData := .input }],
      s.seq = .ready ∧ (s.blk.bus = .start ∨ s.blk.bus = .ackPhase) ∧ (s.blk.dirClock = .output ∧ s.blk.latchClock = false) ∧
      ∀ k, k < 53 → (s.blk.answerAt k).clockLow = false := by decide

theorem witness_CommandsAreAcceptedByBusState :
    (fresh []).seq = .ready ∧ (fresh []).blk.bus = .idle ∧ (started []).blk.bus = .start ∧ (acked []).blk.bus = .ackPhase ∧
    (addressed []).blk.bus = .addressPhase ∧ isMicro (.waitHigh .data) = true ∧ isMicro .strobe = true := by decide

theorem witness_EntryTestsRefuseBeforeAnyEffect :
    (fresh []).seq = .ready ∧ (fresh []).blk.bus = .idle ∧ 127 < 128 ∧ 127 < 128 ∧ 0 < 1 ∧ ¬ (8 = 8 ∧ (0xFE#8 : Byte) = 0xF0#8) ∧
    ¬ (8 = 1 ∧ (0xFE#8 : Byte) = 0xFE#8) ∧ (onBlk (fresh []) fun b => { b with dirData := .input }).blk.dirData ≠ .output ∧
    (started []).blk.bus = .start ∧ (onBlk (started []) fun b => { b with latchClock := true }).blk.latchClock ≠ false ∧
    (addressed []).blk.bus = .addressPhase ∧ (onBlk (addressed []) fun b => { b with dirClock := .input }).blk.dirClock ≠ .output := by
  decide

theorem witness_TransactionsCopyTheirOperands : CanTransact (fresh [quiet]) ∧ 127 < 128 ∧ 0 < 1 := ⟨canTransact _, by decide, by decide⟩

/-- Payloads of no byte and of one. -/
theorem witness_SendAllAcknowledgedSucceeds :
    CanTransact (fresh (acking 120)) ∧ 0x7F < 128 ∧
    ∀ bytes ∈ [[], [0xFF#8]],
      (fresh (acking 120)).blk.noStretch (14 + 53 * (List.length (α := Byte) bytes + 1)) ∧
      (∀ k, k ≤ bytes.length → ((fresh (acking 120)).blk.answerAt (7 + 53 * k + 49)).dataLow = true) ∧
      ((fresh (acking 120)).blk.answerAt (12 + 53 * (bytes.length + 1))).dataLow = false := by
  refine ⟨canTransact _, by decide, ?_⟩
  unfold Block.noStretch
  decide

/-- Frame 0 of a payload of one byte, on a bus where nobody answers; frame 1, the last, where only the address is acknowledged. -/
theorem witness_SendStopsAtTheFirstNack :
    ∀ x ∈ [(0, idle 67), (1, List.replicate 56 quiet ++ dataHeld :: idle 63)],
      CanTransact (fresh x.2) ∧ x.1 ≤ [0x55#8].length ∧ (fresh x.2).blk.noStretch (14 + 53 * (x.1 + 1)) ∧
      (∀ k, k < x.1 → ((fresh x.2).blk.answerAt (7 + 53 * k + 49)).dataLow = true) ∧
      ((fresh x.2).blk.answerAt (7 + 53 * x.1 + 49)).dataLow = false ∧
      ((fresh x.2).blk.answerAt (12 + 53 * (x.1 + 1))).dataLow = false := by
  unfold CanTransact PinsOutput Block.noStretch
  decide

theorem witness_ReceiveReturnsTheSampledBytes :
    CanTransact (fresh (idle 119)) ∧ 0 < 1 ∧ (fresh (idle 119)).blk.cfg.rxCheckAddrAck = false ∧
    (fresh (idle 119)).blk.noStretch (67 + 52 * 1) ∧ ((fresh (idle 119)).blk.answerAt (65 + 52 * 1)).dataLow = false ∧
    (let s := onBlk (fresh (acking 119)) fun b => { b with cfg := { cfg with rxCheckAddrAck := true } }
     (s.blk.answerAt 56).dataLow = true ∧ (s.blk.answerAt (65 + 52 * 1)).dataLow = false) := by
  refine ⟨canTransact _, by decide, by decide, ?_, by decide, by decide⟩
  unfold Block.noStretch
  decide

theorem witness_ReceiveCheckedAddressNackIsMalformed :
    let s := onBlk (fresh (idle 67)) fun b => { b with cfg := { cfg with rxCheckAddrAck := true } }
    CanTransact s ∧ 127 < 128 ∧ 0 < 255 ∧ s.blk.cfg.rxCheckAddrAck = true ∧ s.blk.noStretch 67 ∧
    (s.blk.answerAt 56).dataLow = false ∧ (s.blk.answerAt 65).dataLow = false := by
  unfold CanTransact PinsOutput Block.noStretch
  decide

/-- A `SEND` before the last micro-operation of its stop. -/
def ending : State :=
  { fresh [quiet] with
    seq := .send ⟨0x40#7, [], 0, true⟩ (.w6 .p7)
    blk := { blk [quiet] with done := true, bus := .stop } }

theorem ending_inv : Inv ending :=
  ⟨⟨⟨⟨rfl, rfl⟩, rfl, rfl, rfl⟩, ⟨⟨rfl, rfl⟩, rfl⟩, rfl, Nat.le_refl 0⟩, fun _ => rfl, .inl rfl⟩

theorem witness_TransactionsEndInTheRestState :
    Inv ending ∧ ending.seq.inTransaction = true ∧ nextIs (step ending) (fun t => t.seq == .ready) = true :=
  ⟨ending_inv, by decide, by decide⟩

theorem witness_DecodeOfEncodeIsTheCommand :
    (Instr.send 127 [0xFF#8]).WellFormed ∧ (Instr.receive 127 255).WellFormed ∧ (Instr.xfer 1 0xFE#8).WellFormed := by decide

/-- For `EncodeOfDecodeIsTheWords` and `CommandLengthFromTheFirstWord`. -/
theorem witness_decoded_words :
    decode [0x30017F00#32, 0xFF#32, 0x20000000#32] = .ok (.send 127 [0xFF#8], [0x20000000#32]) ∧
    decode [0x31FF7F00#32] = .ok (.receive 127 255, []) := by decide

/-- One word of each class of `ReservedWordsAreRefused`, in its order. -/
theorem witness_ReservedWordsAreRefused :
    (Word.tier 0x00000000#32) = 0#4 ∧ 4 ≤ (Word.tier 0x40000000#32).toNat ∧
    ((Word.tier 0x1B000000#32) = 1#4 ∧ 11 ≤ (Word.op 0x1B000000#32).toNat) ∧
    ((Word.tier 0x24000000#32) = 2#4 ∧ 4 ≤ (Word.op 0x24000000#32).toNat) ∧
    ((Word.tier 0x32004000#32) = 3#4 ∧ 2 ≤ (Word.op 0x32004000#32).toNat) ∧
    ((Word.tier 0x10000100#32) = 1#4 ∧ (Word.fieldA 0x10000100#32) ≠ 0#8) ∧
    ((Word.tier 0x20000100#32) = 2#4 ∧ (Word.fieldA 0x20000100#32) ≠ 0#8) ∧
    ((Word.tier 0x15000001#32) = 1#4 ∧ (Word.fieldB 0x15000001#32) ≠ 0#8 ∧ (Word.op 0x15000001#32) = 5#4) ∧
    ((Word.tier 0x14010000#32) = 1#4 ∧ (Word.fieldN 0x14010000#32) ≠ 0#8 ∧ (Word.op 0x14010000#32) = 4#4) ∧
    ((Word.tier 0x20000001#32) = 2#4 ∧ (Word.fieldB 0x20000001#32) ≠ 0#8 ∧ (Word.op 0x20000001#32) = 0#4) ∧
    ((Word.tier 0x22010000#32) = 2#4 ∧ (Word.fieldN 0x22010000#32) ≠ 0#8 ∧ (Word.op 0x22010000#32) = 2#4) ∧
    ((Word.tier 0x30004001#32) = 3#4 ∧ (Word.fieldB 0x30004001#32) ≠ 0#8) ∧
    ((Word.tier 0x10020000#32) = 1#4 ∧ 1 < (Word.fieldN 0x10020000#32).toNat ∧ (Word.op 0x10020000#32) = 0#4) ∧
    ((Word.op 0x13000002#32) = 3#4 ∧ 1 < (Word.fieldB 0x13000002#32).toNat) ∧
    ((Word.op 0x19030000#32) = 9#4 ∧ 3 ≤ (Word.fieldN 0x19030000#32).toNat) ∧
    ((Word.tier 0x30008000#32) = 3#4 ∧ (Word.fieldA 0x30008000#32).getLsbD 7 = true) ∧
    ((Word.op 0x31004000#32) = 1#4 ∧ (Word.fieldN 0x31004000#32) = 0#8) ∧
    ((Word.op 0x230800FE#32) = 3#4 ∧ (Word.fieldN 0x230800FE#32) = 8#8 ∧ (Word.fieldB 0x230800FE#32) ≠ 0xF0#8) := by decide

theorem witness_StepRunsTheDecodedCommand :
    let s := { fresh [quiet] with program := [.word 0x30017F00#32, .word 0xFF#32, .readResult] }
    s.seq = .ready ∧ s.client = .idle ∧ decode [0x30017F00#32, 0xFF#32] = .ok (.send 127 [0xFF#8], []) ∧
    s.program = [0x30017F00#32, 0xFF#32].map .word ++ [.readResult] := by decide

theorem witness_StepRefusesReservedWords :
    (fresh []).seq = .ready ∧ (fresh []).client = .idle ∧ ∀ ws, decode (0x00000000#32 :: ws) = .error .reservedEncoding :=
  ⟨rfl, rfl, fun _ => rfl⟩

theorem witness_WithoutACommandNothingRuns : State.reset.seq = .ready ∧ State.reset.client = .idle ∧ State.reset.program = [] :=
  ⟨rfl, rfl, rfl⟩

theorem witness_TheHostIsBlockedWhileACommandRuns :
    ending.seq ≠ .ready ∧ nextIs (step ending) (fun t => t.seq == .ready) = true ∧ (polling [quiet]).seq ≠ .ready ∧
    nextIs (step (polling [quiet])) (fun t => t.seq != .ready) = true := by decide

theorem witness_ReadingTheResult :
    let s := { fresh [] with program := [.readResult] }
    s.seq = .ready ∧ s.client = .idle ∧ s.program = .readResult :: [] ∧ s.result = none ∧
    (State.result { s with result := some ⟨.ok, .bit true⟩ }) = some ⟨.ok, .bit true⟩ := by decide

theorem polling_inv (env : List EnvAnswer) : Inv (polling env) :=
  ⟨⟨.eight, rfl, rfl, ⟨rfl, rfl⟩, rfl, show (1#4).getLsbD 0 = true by decide⟩, by simp [polling, started, Seq.mayCount, Seq.poll, XferPos.poll], .inl rfl⟩

/-- For `EveryStepKeepsTheInvariant`, `BusStateFollowsTheProtocol` and `NoStepChangesAParameter`. -/
theorem witness_steps_keep :
    Inv ending ∧ nextIs (step ending) (fun t => t.blk.bus == .idle) = true ∧ Inv (polling [quiet]) ∧
    nextIs (step (polling [quiet])) (fun t => t.blk.bus == .addressPhase) = true :=
  ⟨ending_inv, by decide, polling_inv _, by decide⟩

/-- A `SEND` that raises DATA at S7, with CLOCK low. -/
def releasing : State :=
  { fresh [quiet] with
    seq := .send ⟨0x40#7, [], 0, true⟩ (.w1 .s7)
    blk := { blk [quiet] with latchClock := false, latchData := false, bus := .start } }

/-- S7 of a `SEND`; and the acceptance of a `SENDBYTE` of a byte with bit 7 clear. -/
theorem witness_DataChangesOnlyWhileClockIsLow :
    (Inv releasing ∧ releasing.seq.inListing = true ∧ releasing.seq.makesCondition = false ∧
      nextIs (step releasing) (fun t => t.blk.drivesDataLow != releasing.blk.drivesDataLow) = true) ∧
    isMicro (.sendByte 0x55#8) = false ∧
    nextIs (exec (.sendByte 0x55#8) (started [quiet])) (fun t => t.blk.drivesDataLow != (started [quiet]).blk.drivesDataLow) = true :=
  ⟨⟨⟨⟨⟨⟨rfl, rfl⟩, rfl, rfl, rfl, rfl⟩, rfl⟩, fun _ => rfl, .inl rfl⟩, by decide, by decide, by decide⟩, by decide, by decide⟩

/-- A transfer before a falling strobe. -/
def falling (env : List EnvAnswer) : State := { polling env with seq := .xfer (.x6 ⟨.eight, .output, 0xA5#8⟩) }

theorem falling_inv (env : List EnvAnswer) : Inv (falling env) :=
  ⟨⟨.eight, rfl, rfl, ⟨rfl, rfl⟩, rfl, show (1#4).getLsbD 0 = true by decide⟩, fun _ => rfl, .inl rfl⟩

theorem witness_RunningCommandsAreRefusedForOneReasonOnly :
    Inv (falling [clockHeld]) ∧ (falling [clockHeld]).seq ≠ .ready ∧
    refusedWith (step (falling [clockHeld])) .fallingStrobeWhileClockLow = true :=
  ⟨falling_inv _, by decide, by decide⟩

/-- What the bus has done when `falling` begins. -/
def watching : BusWatch := ⟨quiet, .bit .address []⟩

theorem witness_CompliantBusNeverRefusesAStrobe :
    Inv (falling [quiet]) ∧ (falling [quiet]).seq.awaitsFall = true ∧
    (falling [quiet]).blk.level .clock watching.last.clockLowAfter = true ∧ CompliantFor [] 1 watching (falling [quiet]) ∧
    ∀ k t, k < 1 → runs k (falling [quiet]) = .next t → t.seq ≠ .ready := by
  refine ⟨falling_inv _, by decide, by decide, ⟨⟨fun _ => by decide, fun h => by cases h⟩, fun t _ => ?_⟩, fun k t hk h => ?_⟩
  · refine ⟨fun _ => trivial, fun _ => ⟨⟨fun _ _ => by decide, fun h => by cases h⟩, trivial⟩⟩
  · obtain rfl : k = 0 := by omega
    cases h
    decide

/-- A running command; a `READLEVEL` and a falling `STROBE` as they are issued. -/
theorem witness_TheEnvironmentReachesOnlyTheSampledBit :
    (falling [quiet]).seq ≠ .ready ∧ nextIs (step (falling [quiet])) (fun t => t.blk.dr == 0x4B#8) = true ∧
    nextIs (step { falling [quiet] with blk := { (falling [quiet]).blk with env := [dataHeld] } }) (fun t => t.blk.dr == 0x4A#8) = true ∧
    nextIs (exec .strobe (fresh [quiet])) (fun t => t.blk.dr == 0xFF#8) = true ∧
    nextIs (exec .strobe (fresh [dataHeld])) (fun t => t.blk.dr == 0xFE#8) = true := by
  decide

theorem witness_PollRepeatsReadLevel :
    let s := { fresh [] with client := .polling .data }
    s.seq = .ready ∧ (fresh []).client = .idle ∧ (State.result { s with result := some ⟨.ok, .bit false⟩ }) = some ⟨.ok, .bit false⟩ ∧
    (State.program { fresh [] with program := [.poll .data] }) = .poll .data :: [] := by decide

/-- For `InitializeIsOneSendOfThreeBytes` and `MeasureTriggersWaitsAndReads`. -/
theorem witness_client_calls :
    (fresh []).seq = .ready ∧ (fresh []).client = .idle ∧
    (State.program { fresh [] with program := [.initializeClient] }) = .initializeClient :: [] ∧
    (State.program { fresh [] with program := [.measure] }) = .measure :: [] ∧
    (State.client { fresh [] with client := .initializing, result := some ⟨.ok, .empty⟩ }) = .initializing ∧
    (State.result { fresh [] with client := .triggering, result := some ⟨.acknowledgmentFailure, .frames 0⟩ }) =
      some ⟨.acknowledgmentFailure, .frames 0⟩ := by decide

theorem witness_MeasureReturnsAReading :
    (∃ s : State, s.seq = .ready ∧ s.client = .reading .ok ∧ s.blk.cfg.driverSurfacesErrors = false ∧
      s.result = some ⟨.ok, .bytes [0x64#8, 0xD9#8, 0x66#8, 0x66#8]⟩) ∧
    (∃ s : State, s.seq = .ready ∧ s.client = .reading .busTimeout ∧ s.blk.cfg.driverSurfacesErrors = true ∧
      s.result = some ⟨.ok, .bytes []⟩) :=
  ⟨⟨{ fresh [] with client := .reading .ok, result := some ⟨.ok, .bytes [0x64#8, 0xD9#8, 0x66#8, 0x66#8]⟩ }, rfl, rfl, rfl, rfl⟩,
    ⟨{ onBlk (fresh []) (fun b => { b with cfg := { cfg with driverSurfacesErrors := true } }) with
        client := .reading .busTimeout, result := some ⟨.ok, .bytes []⟩ }, rfl, rfl, rfl, rfl⟩⟩

end Sys2Proof.Tests
end

section
/-! What every step of a running command changes and what it leaves alone: one micro-operation passes, the host's side stays, and `RESULT`
is written only at the end (00_scope.md R6, 10_state.md R31, 60_exceptions.md R227). No step changes a parameter (R7). -/

namespace Sys2Proof.Proofs.Scope

open Sys2Proof Sys2Proof.Machine Sys2Proof.Claims Sys2Proof.Laws

/-! ### One micro-operation of a listing -/

/-- One micro-operation has passed from `b` to `c`: one answer of the environment is used up, and the parameters are as they were. -/
structure Ticked (b c : Block) : Prop where
  cfg : c.cfg = b.cfg
  ops : c.ops = b.ops + 1
  env : c.env = b.env.tail

/-- Whatever block the micro-operation of a listing leaves satisfies `P`. -/
def Leaves {π ρ : Type} (P : Block → Prop) : Adv π ρ → Prop
  | .goto _ c => P c
  | .ret _ c => P c
  | .timeout _ c => P c
  | .refuse _ => True

/-- A listing called by another leaves what its own micro-operation leaves, when the lines after its return keep it. -/
theorem Leaves.call {π ρ π' ρ' : Type} {P : Block → Prop} {r : Adv π ρ} {inside : π → π'} {after : ρ → Block → Adv π' ρ'}
    (hr : Leaves P r) (ha : ∀ v c, P c → Leaves P (after v c)) : Leaves P (r.call inside after) := by
  cases r with
  | goto p c => exact hr
  | ret v c => exact ha v c hr
  | timeout l c => exact hr
  | refuse e => trivial

theorem pollAdv_ticks {π ρ : Type} (b : Block) (l : Line) (here next : π) :
    Leaves (Ticked b) (pollAdv b l here next : Adv π ρ) := by
  generalize e : (pollAdv b l here next : Adv π ρ) = r
  obtain ⟨rfl, -⟩ | ⟨k, rfl, -⟩ | rfl := Ops.pollAdv_cases e <;> exact ⟨rfl, rfl, rfl⟩

theorem strobeAdv_ticks {π ρ : Type} (b : Block) (next : π) : Leaves (Ticked b) (strobeAdv b next : Adv π ρ) := by
  generalize e : (strobeAdv b next : Adv π ρ) = r
  obtain ⟨rfl, -⟩ | ⟨rfl, -⟩ | ⟨rfl, -⟩ := Ops.strobeAdv_cases e
  · exact ⟨rfl, rfl, rfl⟩
  · exact ⟨rfl, rfl, rfl⟩
  · trivial

theorem xferAdv_ticks (p : XferPos) (b : Block) : Leaves (Ticked b) (xferAdv p b) := by
  cases p with
  | x1 w =>
    rw [xferAdv]
    split
    · exact ⟨by simp, by simp, by simp⟩
    · trivial
  | x2 c => exact ⟨rfl, rfl, rfl⟩
  | x3 c => exact strobeAdv_ticks b _
  | x4 c => exact pollAdv_ticks b _ _ _
  | x5 c => exact ⟨rfl, rfl, rfl⟩
  | x6 c => exact strobeAdv_ticks b _
  | x7 c => rw [xferAdv]; split <;> exact ⟨rfl, rfl, rfl⟩

theorem startAdv_ticks (p : StartPos) (b : Block) : Leaves (Ticked b) (startAdv p b) := by
  cases p with
  | s1 =>
    rw [startAdv]
    split
    · exact ⟨rfl, rfl, rfl⟩
    · trivial
  | s2 => exact pollAdv_ticks b _ _ _
  | _ => exact ⟨rfl, rfl, rfl⟩

theorem stopAdv_ticks (p : StopPos) (b : Block) : Leaves (Ticked b) (stopAdv p b) := by
  cases p with
  | p1 =>
    rw [stopAdv]
    split
    · split
      · trivial
      · exact ⟨rfl, rfl, rfl⟩
    · trivial
  | p3 => exact pollAdv_ticks b _ _ _
  | p6 => exact pollAdv_ticks b _ _ _
  | _ => exact ⟨rfl, rfl, rfl⟩

theorem byteAdv_ticks (p : BytePos) (b : Block) : Leaves (Ticked b) (byteAdv p b) := by
  cases p with
  | b1 v =>
    rw [byteAdv]
    split
    · exact ⟨rfl, rfl, rfl⟩
    · trivial
  | b2 x => exact (xferAdv_ticks x b).call fun _ _ h => h
  | b4 x => exact (xferAdv_ticks x b).call fun _ _ h => h
  | _ => exact ⟨rfl, rfl, rfl⟩

theorem sendAdv_ticks (t : SendLatches) (p : SendPos) (b : Block) : Leaves (Ticked b) (sendAdv t p b) := by
  cases p with
  | w1 q => exact (startAdv_ticks q b).call fun _ _ h => h
  | w2 q => exact (byteAdv_ticks q b).call fun _ _ h => h
  | w4 q => exact (byteAdv_ticks q b).call fun _ _ h => h
  | w6 q => exact (stopAdv_ticks q b).call fun _ _ h => h

theorem recvAdv_ticks (t : RecvLatches) (p : RecvPos) (b : Block) : Leaves (Ticked b) (recvAdv t p b) := by
  cases p with
  | q1 q => exact (startAdv_ticks q b).call fun _ _ h => h
  | q2 q => exact (byteAdv_ticks q b).call fun _ _ h => h
  | q3 q => exact (stopAdv_ticks q b).call fun _ _ h => h
  | q6 x => exact (xferAdv_ticks x b).call fun _ _ h => h
  | q9 v x => exact (xferAdv_ticks x b).call fun _ _ h => h
  | q11 q => exact (stopAdv_ticks q b).call fun _ _ h => h
  | _ => exact ⟨rfl, rfl, rfl⟩

theorem recoverAdv_ticks (p : RecoverPos) (b : Block) : Leaves (Ticked b) (recoverAdv p b) := by
  cases p <;> exact ⟨rfl, rfl, rfl⟩

/-! ### One micro-operation of a command -/

/-- One micro-operation of a command leads from `s` to `t`: the host's side is as it was, `RESULT` is kept while the command goes on and
written when it ends. -/
structure OneOp (s t : State) : Prop where
  host : SameHost s t
  ticked : Ticked s.blk t.blk
  goesOn : t.seq ≠ .ready → t.result = s.result
  ends : t.seq = .ready → t.result ≠ none

/-- The next state, where there is one, satisfies `Q`. -/
def AnyNext (Q : State → Prop) : Out → Prop
  | .next t => Q t
  | .fault _ => True
  | .refused _ => True

section

variable {s : State} {c : Block} {Q : State → Prop} {o : Out}

theorem finish_oneOp (h : Ticked s.blk c) (r : Result) : OneOp s (s.finish c r) where
  host := ⟨rfl, rfl, rfl, rfl⟩
  ticked := h
  goesOn hs := absurd rfl hs
  ends _ := by simp

theorem goto_oneOp (h : Ticked s.blk c) {q : Seq} (hq : q ≠ .ready) : OneOp s (s.goto c q) where
  host := ⟨rfl, rfl, rfl, rfl⟩
  ticked := h
  goesOn _ := rfl
  ends hs := absurd hs hq

theorem returnBusTimeout_oneOp (h : Ticked s.blk c) (l : Line) : OneOp s (s.returnBusTimeout c l) where
  host := ⟨rfl, rfl, rfl, rfl⟩
  ticked := ⟨h.cfg, h.ops, h.env⟩
  goesOn hs := absurd rfl hs
  ends _ := by simp

theorem AnyNext.mono {P : State → Prop} (h : AnyNext P o) (hPQ : ∀ t, P t → Q t) : AnyNext Q o := by
  cases o with
  | next t => exact hPQ t h
  | fault r => trivial
  | refused r => trivial

theorem AnyNext.issue (h : AnyNext Q o) : AnyNext Q (s.issue o) := by
  by_cases hs : s.seq = .ready
  · rwa [Ops.issue_ready hs]
  · rw [Ops.issue_running hs]; trivial

theorem AnyNext.require (h : AnyNext Q o) (p : Bool) (r : Refusal) : AnyNext Q (require p r o) := by
  cases p
  · trivial
  · exact h

theorem AnyNext.withResult {k : Result → Out} (h : ∀ r, AnyNext Q (k r)) : AnyNext Q (s.withResult k) := by
  unfold State.withResult
  split
  · exact h _
  · trivial

/-- A command of one micro-operation. -/
theorem issue_complete_oneOp (h : Ticked s.blk c) (v : ResultValue) : AnyNext (OneOp s) (s.issue (.next (s.complete c v))) :=
  .issue (finish_oneOp h _)

/-- A listing whose micro-operation ticks and whose return finishes the command gives one micro-operation of the command. -/
theorem runListing_oneOp {π ρ : Type} {r : Adv π ρ} {position : π → Seq} {done : ρ → Block → State} (hr : Leaves (Ticked s.blk) r)
    (hp : ∀ p, position p ≠ .ready) (hd : ∀ v c, Ticked s.blk c → OneOp s (done v c)) :
    AnyNext (OneOp s) (s.runListing r position done) := by
  cases r with
  | goto p c => exact goto_oneOp hr (hp p)
  | ret v c => exact hd v c hr
  | timeout l c => exact goto_oneOp hr (by simp)
  | refuse e => trivial

end

variable (s : State)

theorem startStep_oneOp (p : StartPos) : AnyNext (OneOp s) (startStep p s) :=
  runListing_oneOp (startAdv_ticks p _) (by simp) fun _ _ h => finish_oneOp h _

theorem stopStep_oneOp (p : StopPos) : AnyNext (OneOp s) (stopStep p s) :=
  runListing_oneOp (stopAdv_ticks p _) (by simp) fun _ _ h => finish_oneOp h _

theorem sendByteStep_oneOp (p : BytePos) : AnyNext (OneOp s) (sendByteStep p s) :=
  runListing_oneOp (byteAdv_ticks p _) (by simp) fun _ _ h => finish_oneOp h _

theorem xferStep_oneOp (p : XferPos) : AnyNext (OneOp s) (xferStep p s) :=
  runListing_oneOp (xferAdv_ticks p _) (by simp) fun _ _ h => finish_oneOp h _

theorem sendStep_oneOp (t : SendLatches) (p : SendPos) : AnyNext (OneOp s) (sendStep t p s) :=
  runListing_oneOp (sendAdv_ticks t p _) (by simp) fun _ _ h => finish_oneOp h _

theorem recvStep_oneOp (t : RecvLatches) (p : RecvPos) : AnyNext (OneOp s) (recvStep t p s) :=
  runListing_oneOp (recvAdv_ticks t p _) (by simp) fun _ _ h => finish_oneOp h _

theorem recoverStep_oneOp (p : RecoverPos) (l : Line) : AnyNext (OneOp s) (recoverStep p l s) :=
  runListing_oneOp (recoverAdv_ticks p _) (by simp) fun _ _ h => returnBusTimeout_oneOp h l

theorem waitHighStep_oneOp (l : Line) : AnyNext (OneOp s) (waitHighStep l s) := by
  rw [waitHighStep, waitHighNext]
  obtain ⟨-, e⟩ | ⟨-, -, e⟩ | ⟨_, -, -, -, e⟩ | ⟨_, -, -, -, e⟩ := Ops.poll_cases s.blk l <;> rw [e]
  · exact finish_oneOp (s := s) ⟨by simp, by simp, by simp⟩ _
  · exact goto_oneOp (s := s) ⟨by simp, by simp, by simp⟩ (by simp)
  · exact goto_oneOp (s := s) ⟨by simp, by simp, by simp⟩ (by simp)
  · exact goto_oneOp (s := s) ⟨by simp, by simp, by simp⟩ (by simp)

/-- The next micro-operation of a running command, whatever command runs. -/
theorem seqStep_oneOp (hs : s.seq ≠ .ready) : AnyNext (OneOp s) (seqStep s) := by
  unfold seqStep
  split
  · exact absurd ‹_› hs
  · exact waitHighStep_oneOp s _
  · exact startStep_oneOp s _
  · exact stopStep_oneOp s _
  · exact sendByteStep_oneOp s _
  · exact xferStep_oneOp s _
  · exact sendStep_oneOp s _ _
  · exact recvStep_oneOp s _ _
  · exact recoverStep_oneOp s _ _

/-! ### A command as it is issued -/

/-- A command accepted runs its first micro-operation. -/
theorem exec_oneOp (i : Instr) : AnyNext (OneOp s) (exec i s) := by
  cases i with
  | strobe =>
    refine .issue ?_
    split
    · obtain ⟨-, rfl⟩ | ⟨-, -, rfl⟩ := Ops.strobe_cases ‹_›
      · exact finish_oneOp (c := s.blk.risingStrobe) ⟨rfl, rfl, rfl⟩ _
      · exact finish_oneOp (c := s.blk.fallingStrobe) ⟨rfl, rfl, rfl⟩ _
    · trivial
  | waitHigh l => exact .issue (waitHighStep_oneOp s l)
  | start => exact .issue (.require (startStep_oneOp s _) _ _)
  | stop => exact .issue (.require (stopStep_oneOp s _) _ _)
  | sendByte v => exact .issue (.require (sendByteStep_oneOp s _) _ _)
  | xfer n cw =>
    refine .issue ?_
    rcases widthOf n cw with _ | _ | _
    · trivial
    · exact .require (xferStep_oneOp s _) _ _
    · exact .require (xferStep_oneOp s _) _ _
  | send a bytes => exact .issue (.require (.require (sendStep_oneOp s _ _) _ _) _ _)
  | receive a c => exact .issue (.require (.require (.require (recvStep_oneOp s _ _) _ _) _ _) _ _)
  | _ => exact issue_complete_oneOp ⟨by simp, by simp, by simp⟩ _

/-! ### The parameters (R7) -/

/-- The parameters of `t` are those of `s`. -/
def SameCfg (s t : State) : Prop := t.blk.cfg = s.blk.cfg

theorem exec_sameCfg (i : Instr) : AnyNext (SameCfg s) (exec i s) := (exec_oneOp s i).mono fun _ h => h.ticked.cfg

theorem nextMove_sameCfg : AnyNext (SameCfg s) (nextMove s) := by
  unfold nextMove
  split
  · exact rfl
  · unfold issueFetched
    split
    · exact exec_sameCfg { s with program := _ } _
    · trivial
  · exact .withResult fun _ => rfl
  · exact exec_sameCfg { s with program := _, client := _ } _
  · exact exec_sameCfg { s with program := _, client := _ } _
  · exact exec_sameCfg { s with program := _, client := _ } _

theorem hostStep_sameCfg : AnyNext (SameCfg s) (hostStep s) := by
  unfold hostStep
  split
  · exact nextMove_sameCfg s
  · refine .withResult fun r => ?_
    split
    · exact rfl
    · exact exec_sameCfg s _
  · exact .withResult fun _ => rfl
  · exact .withResult fun _ => rfl
  · exact exec_sameCfg { s with client := _ } _
  · exact .withResult fun _ => rfl

theorem step_sameCfg : AnyNext (SameCfg s) (step s) := by
  by_cases hs : s.seq = .ready
  · rw [Ops.step_ready hs]
    exact hostStep_sameCfg s
  · rw [Ops.step_running hs]
    exact (seqStep_oneOp s hs).mono fun _ h => h.ticked.cfg

end Sys2Proof.Proofs.Scope
end

section
/-! The histories and the clock are read by nothing (00_scope.md R12, 10_state.md R21): every operation of the model, run on a block whose
histories and clock are erased, gives what it gives on the block itself, up to histories and clock. -/

namespace Sys2Proof.Proofs.Records

open Sys2Proof Sys2Proof.Machine Sys2Proof.Laws

/-! ### Erasing the histories and the clock -/

/-- The block with empty histories and the clock at 0: registers, parameters and answers alone. -/
def eraseBlock (b : Block) : Block := { b with lineHist := [], primHist := [], time := 0 }

/-- The state with its block's histories and clock erased. -/
def eraseState (s : State) : State := { s with blk := eraseBlock s.blk }

/-- The micro-operation's answer with the histories and the clock of its block erased. -/
def eraseAdv {π ρ : Type} : Adv π ρ → Adv π ρ
  | .goto p b => .goto p (eraseBlock b)
  | .ret v b => .ret v (eraseBlock b)
  | .timeout l b => .timeout l (eraseBlock b)
  | .refuse e => .refuse e

/-- The outcome with the histories and the clock of its next state erased. -/
def eraseOut : Out → Out
  | .next s => .next (eraseState s)
  | .fault r => .fault r
  | .refused r => .refused r

/-! ### One micro-operation of a listing -/

section

variable {π ρ π' ρ' : Type}

/-- A test that reads no history goes the same way on both sides. -/
theorem eraseAdv_ite {p : Prop} [Decidable p] {r r' q q' : Adv π ρ} (hr : eraseAdv r = eraseAdv r') (hq : eraseAdv q = eraseAdv q') :
    eraseAdv (if p then r else q) = eraseAdv (if p then r' else q') := by
  split
  · exact hr
  · exact hq

/-- A call depends on the called listing up to histories and clock, when the lines after its return do. -/
theorem eraseAdv_call {r r' : Adv π ρ} {inside : π → π'} {after : ρ → Block → Adv π' ρ'} (hr : eraseAdv r = eraseAdv r')
    (ha : ∀ v b, eraseAdv (after v b) = eraseAdv (after v (eraseBlock b))) :
    eraseAdv (r.call inside after) = eraseAdv (r'.call inside after) := by
  have key : ∀ q : Adv π ρ, eraseAdv (q.call inside after) = eraseAdv ((eraseAdv q).call inside after) := by
    intro q
    cases q with
    | ret v b => exact ha v b
    | _ => rfl
  rw [key, hr, ← key]

/-- Both polls take the same of the three ways (R131). -/
theorem poll_erase (b : Block) (l : Line) :
    (∃ x y, b.poll l = .high x ∧ (eraseBlock b).poll l = .high y ∧ eraseBlock x = eraseBlock y) ∨
    (∃ x y, b.poll l = .again x ∧ (eraseBlock b).poll l = .again y ∧ eraseBlock x = eraseBlock y) ∨
    (∃ x y, b.poll l = .timeout x ∧ (eraseBlock b).poll l = .timeout y ∧ eraseBlock x = eraseBlock y) := by
  obtain ⟨h, e⟩ | ⟨h, hl, e⟩ | ⟨n, h, hl, hn, e⟩ | ⟨n, h, hl, hn, e⟩ := Ops.poll_cases b l
  · exact .inl ⟨_, _, e, Ops.poll_high (b := eraseBlock b) h, rfl⟩
  · exact .inr (.inl ⟨_, _, e, Ops.poll_again_unbounded (b := eraseBlock b) h hl, rfl⟩)
  · exact .inr (.inl ⟨_, _, e, Ops.poll_again_bounded (b := eraseBlock b) h hl hn, rfl⟩)
  · exact .inr (.inr ⟨_, _, e, Ops.poll_timeout (b := eraseBlock b) h hl hn, rfl⟩)

theorem pollAdv_erase (b : Block) (l : Line) (here next : π) :
    eraseAdv (pollAdv b l here next : Adv π ρ) = eraseAdv (pollAdv (eraseBlock b) l here next) := by
  obtain ⟨x, y, e, e', h⟩ | ⟨x, y, e, e', h⟩ | ⟨x, y, e, e', h⟩ := poll_erase b l <;> simp [pollAdv, e, e', eraseAdv, h]

/-- Both strobes are refused, or both are the same strobe (R129). -/
theorem strobe_erase (b : Block) :
    (b.strobe = none ∧ (eraseBlock b).strobe = none) ∨
    (∃ x y, b.strobe = some x ∧ (eraseBlock b).strobe = some y ∧ eraseBlock x = eraseBlock y) := by
  cases hl : b.latchClock with
  | false => exact .inr ⟨_, _, Ops.strobe_rising hl, Ops.strobe_rising (b := eraseBlock b) hl, rfl⟩
  | true =>
    cases hs : b.sample .clock with
    | false => exact .inl ⟨Ops.strobe_refused hl hs, Ops.strobe_refused (b := eraseBlock b) hl hs⟩
    | true => exact .inr ⟨_, _, Ops.strobe_falling hl hs, Ops.strobe_falling (b := eraseBlock b) hl hs, rfl⟩

theorem strobeAdv_erase (b : Block) (next : π) :
    eraseAdv (strobeAdv b next : Adv π ρ) = eraseAdv (strobeAdv (eraseBlock b) next) := by
  obtain ⟨e, e'⟩ | ⟨x, y, e, e', h⟩ := strobe_erase b
  · rw [strobeAdv, strobeAdv, e, e']
  · simp [strobeAdv, e, e', eraseAdv, h]

end

theorem xferAdv_erase (p : XferPos) (b : Block) : eraseAdv (xferAdv p b) = eraseAdv (xferAdv p (eraseBlock b)) := by
  cases p with
  | x1 w => cases w <;> exact eraseAdv_ite rfl rfl
  | x3 c => exact strobeAdv_erase b _
  | x4 c => exact pollAdv_erase b _ _ _
  | x6 c => exact strobeAdv_erase b _
  | x7 c => exact eraseAdv_ite rfl rfl
  | _ => rfl

theorem startAdv_erase (p : StartPos) (b : Block) : eraseAdv (startAdv p b) = eraseAdv (startAdv p (eraseBlock b)) := by
  cases p with
  | s1 => exact eraseAdv_ite rfl rfl
  | s2 => exact pollAdv_erase b _ _ _
  | _ => rfl

theorem stopAdv_erase (p : StopPos) (b : Block) : eraseAdv (stopAdv p b) = eraseAdv (stopAdv p (eraseBlock b)) := by
  cases p with
  | p1 => exact eraseAdv_ite (eraseAdv_ite rfl rfl) rfl
  | p3 => exact pollAdv_erase b _ _ _
  | p6 => exact pollAdv_erase b _ _ _
  | _ => rfl

theorem byteAdv_erase (p : BytePos) (b : Block) : eraseAdv (byteAdv p b) = eraseAdv (byteAdv p (eraseBlock b)) := by
  cases p with
  | b1 v => exact eraseAdv_ite rfl rfl
  | b2 x => exact eraseAdv_call (xferAdv_erase x b) fun _ _ => rfl
  | b4 x => exact eraseAdv_call (xferAdv_erase x b) fun _ _ => rfl
  | _ => rfl

theorem sendAdv_erase (t : SendLatches) (p : SendPos) (b : Block) :
    eraseAdv (sendAdv t p b) = eraseAdv (sendAdv t p (eraseBlock b)) := by
  cases p with
  | w1 q => exact eraseAdv_call (startAdv_erase q b) fun _ _ => rfl
  | w2 q => exact eraseAdv_call (byteAdv_erase q b) fun _ _ => rfl
  | w4 q => exact eraseAdv_call (byteAdv_erase q b) fun _ _ => rfl
  | w6 q => exact eraseAdv_call (stopAdv_erase q b) fun _ _ => rfl

theorem recvAdv_erase (t : RecvLatches) (p : RecvPos) (b : Block) :
    eraseAdv (recvAdv t p b) = eraseAdv (recvAdv t p (eraseBlock b)) := by
  cases p with
  | q1 q => exact eraseAdv_call (startAdv_erase q b) fun _ _ => rfl
  | q2 q => exact eraseAdv_call (byteAdv_erase q b) fun _ _ => rfl
  | q3 q => exact eraseAdv_call (stopAdv_erase q b) fun _ _ => rfl
  | q6 x => exact eraseAdv_call (xferAdv_erase x b) fun _ _ => rfl
  | q9 v x => exact eraseAdv_call (xferAdv_erase x b) fun _ _ => rfl
  | q11 q => exact eraseAdv_call (stopAdv_erase q b) fun _ _ => rfl
  | _ => rfl

theorem recoverAdv_erase (p : RecoverPos) (b : Block) : eraseAdv (recoverAdv p b) = eraseAdv (recoverAdv p (eraseBlock b)) := by
  cases p <;> rfl

/-! ### One micro-operation of a command -/

section

variable {s : State} {o o' : Out}

theorem eraseOut_issue (h : eraseOut o = eraseOut o') : eraseOut (s.issue o) = eraseOut ((eraseState s).issue o') := by
  by_cases hs : s.seq = .ready
  · rwa [Ops.issue_ready hs, Ops.issue_ready (s := eraseState s) hs]
  · rw [Ops.issue_running hs, Ops.issue_running (s := eraseState s) hs]

theorem eraseOut_require (h : eraseOut o = eraseOut o') (p : Bool) (r : Refusal) :
    eraseOut (require p r o) = eraseOut (require p r o') := by
  cases p
  · rfl
  · exact h

theorem eraseOut_withResult {k k' : Result → Out} (h : ∀ r, eraseOut (k r) = eraseOut (k' r)) :
    eraseOut (s.withResult k) = eraseOut ((eraseState s).withResult k') := by
  have hr : (eraseState s).result = s.result := rfl
  rw [State.withResult, State.withResult, hr]
  cases s.result with
  | none => rfl
  | some r => exact h r

/-- A command's listing depends on the block up to histories and clock, when its micro-operation and its return do. -/
theorem eraseOut_runListing {π ρ : Type} {r r' : Adv π ρ} {position : π → Seq} (done : State → ρ → Block → State)
    (hd : ∀ s v b, eraseState (done s v b) = eraseState (done (eraseState s) v (eraseBlock b))) (hr : eraseAdv r = eraseAdv r') :
    eraseOut (s.runListing r position (done s)) = eraseOut ((eraseState s).runListing r' position (done (eraseState s))) := by
  have key : ∀ (u : State) (q : Adv π ρ), eraseOut (u.runListing q position (done u)) =
      eraseOut ((eraseState u).runListing (eraseAdv q) position (done (eraseState u))) := by
    intro u q
    cases q with
    | ret v b => exact congrArg Host.Outcome.next (hd u v b)
    | _ => rfl
  calc eraseOut (s.runListing r position (done s))
      = eraseOut ((eraseState s).runListing (eraseAdv r) position (done (eraseState s))) := key s r
    _ = eraseOut ((eraseState s).runListing (eraseAdv r') position (done (eraseState s))) := by rw [hr]
    _ = eraseOut ((eraseState s).runListing r' position (done (eraseState s))) := (key (eraseState s) r').symm

end

variable (s : State)

theorem startStep_erase (p : StartPos) : eraseOut (startStep p s) = eraseOut (startStep p (eraseState s)) :=
  eraseOut_runListing (fun s _ b => s.complete b .empty) (fun _ _ _ => rfl) (startAdv_erase p s.blk)

theorem stopStep_erase (p : StopPos) : eraseOut (stopStep p s) = eraseOut (stopStep p (eraseState s)) :=
  eraseOut_runListing (fun s _ b => s.complete b .empty) (fun _ _ _ => rfl) (stopAdv_erase p s.blk)

theorem sendByteStep_erase (p : BytePos) : eraseOut (sendByteStep p s) = eraseOut (sendByteStep p (eraseState s)) :=
  eraseOut_runListing (fun s ack b => s.complete b (.bit ack)) (fun _ _ _ => rfl) (byteAdv_erase p s.blk)

theorem xferStep_erase (p : XferPos) : eraseOut (xferStep p s) = eraseOut (xferStep p (eraseState s)) :=
  eraseOut_runListing (fun s r b => s.complete b (.byte r)) (fun _ _ _ => rfl) (xferAdv_erase p s.blk)

theorem sendStep_erase (t : SendLatches) (p : SendPos) : eraseOut (sendStep t p s) = eraseOut (sendStep t p (eraseState s)) :=
  eraseOut_runListing (fun s r b => s.finish b r) (fun _ _ _ => rfl) (sendAdv_erase t p s.blk)

theorem recvStep_erase (t : RecvLatches) (p : RecvPos) : eraseOut (recvStep t p s) = eraseOut (recvStep t p (eraseState s)) :=
  eraseOut_runListing (fun s r b => s.finish b r) (fun _ _ _ => rfl) (recvAdv_erase t p s.blk)

theorem recoverStep_erase (p : RecoverPos) (l : Line) : eraseOut (recoverStep p l s) = eraseOut (recoverStep p l (eraseState s)) :=
  eraseOut_runListing (fun s _ b => s.returnBusTimeout b l) (fun _ _ _ => rfl) (recoverAdv_erase p s.blk)

theorem waitHighStep_erase (l : Line) : eraseOut (waitHighStep l s) = eraseOut (waitHighStep l (eraseState s)) := by
  obtain ⟨x, y, e, e', h⟩ | ⟨x, y, e, e', h⟩ | ⟨x, y, e, e', h⟩ := poll_erase s.blk l <;>
    simp [waitHighStep, waitHighNext, e, e', eraseOut, eraseState, h]

/-- The next micro-operation of the running command, whatever command runs. -/
theorem seqStep_erase : eraseOut (seqStep s) = eraseOut (seqStep (eraseState s)) := by
  obtain ⟨blk, seq, result, program, client, clientLog, inbox⟩ := s
  cases seq with
  | ready => rfl
  | waitHigh l => exact waitHighStep_erase _ l
  | start p => exact startStep_erase _ p
  | stop p => exact stopStep_erase _ p
  | sendByte p => exact sendByteStep_erase _ p
  | xfer p => exact xferStep_erase _ p
  | send t p => exact sendStep_erase _ t p
  | receive t p => exact recvStep_erase _ t p
  | recover p l => exact recoverStep_erase _ p l

/-! ### A command as it is issued, and the host's moves -/

/-- Acceptance and first micro-operation of a command. -/
theorem exec_erase (i : Instr) : eraseOut (exec i s) = eraseOut (exec i (eraseState s)) := by
  cases i with
  | setHigh l => cases l <;> exact eraseOut_issue rfl
  | setLow l => cases l <;> exact eraseOut_issue rfl
  | setDir l d => cases l <;> exact eraseOut_issue rfl
  | strobe =>
    refine eraseOut_issue ?_
    have hb : (eraseState s).blk = eraseBlock s.blk := rfl
    obtain ⟨e, e'⟩ | ⟨x, y, e, e', h⟩ := strobe_erase s.blk
    · rw [hb, e, e']
    · simp [e, e', eraseOut, eraseState, h]
  | waitHigh l => exact eraseOut_issue (waitHighStep_erase s l)
  | start => exact eraseOut_issue (eraseOut_require (startStep_erase s _) _ _)
  | stop => exact eraseOut_issue (eraseOut_require (stopStep_erase s _) _ _)
  | sendByte v => exact eraseOut_issue (eraseOut_require (sendByteStep_erase s _) _ _)
  | xfer n cw =>
    refine eraseOut_issue ?_
    rcases widthOf n cw with _ | _ | _
    · rfl
    · exact eraseOut_require (xferStep_erase s _) _ _
    · exact eraseOut_require (xferStep_erase s _) _ _
  | send a bytes => exact eraseOut_issue (eraseOut_require (eraseOut_require (sendStep_erase s _ _) _ _) _ _)
  | receive a c =>
    exact eraseOut_issue (eraseOut_require (eraseOut_require (eraseOut_require (recvStep_erase s _ _) _ _) _ _) _ _)
  | _ => exact eraseOut_issue rfl

theorem issueFetched_erase : eraseOut (issueFetched s) = eraseOut (issueFetched (eraseState s)) := by
  have hp : (eraseState s).program = s.program := rfl
  rw [issueFetched, issueFetched, hp]
  cases fetch s.program with
  | ok r => exact exec_erase { s with program := r.2 } r.1
  | error e => rfl

theorem nextMove_erase : eraseOut (nextMove s) = eraseOut (nextMove (eraseState s)) := by
  obtain ⟨blk, seq, result, program, client, clientLog, inbox⟩ := s
  rcases program with _ | ⟨_ | _ | l | _ | _, ops⟩
  · rfl
  · exact issueFetched_erase _
  · exact eraseOut_withResult fun _ => rfl
  · exact exec_erase ⟨blk, seq, result, ops, .polling l, clientLog, inbox⟩ (.readLevel l)
  · exact exec_erase ⟨blk, seq, result, ops, .initializing, clientLog, inbox⟩ (initializeCommand blk.cfg)
  · exact exec_erase ⟨blk, seq, result, ops, .triggering, clientLog, inbox⟩ (triggerCommand blk.cfg)

theorem hostStep_erase : eraseOut (hostStep s) = eraseOut (hostStep (eraseState s)) := by
  obtain ⟨blk, seq, result, program, client, clientLog, inbox⟩ := s
  cases client with
  | idle => exact nextMove_erase _
  | polling l =>
    refine eraseOut_withResult fun r => ?_
    split
    · rfl
    · exact exec_erase _ _
  | waited s1 => exact exec_erase ⟨blk, seq, result, program, .reading s1, clientLog, inbox⟩ (readCommand blk.cfg)
  | _ => exact eraseOut_withResult fun _ => rfl

theorem step_erase : eraseOut (step s) = eraseOut (step (eraseState s)) := by
  by_cases hs : s.seq = .ready
  · rw [Ops.step_ready hs, Ops.step_ready (s := eraseState s) hs]
    exact hostStep_erase s
  · rw [Ops.step_running hs, Ops.step_running (s := eraseState s) hs]
    exact seqStep_erase s

/-! ### Equality up to histories and clock -/

/-- `u` with the histories and the clock of `t`. -/
def withRecordsOf (t u : State) : State :=
  { u with blk := { u.blk with lineHist := t.blk.lineHist, primHist := t.blk.primHist, time := t.blk.time } }

/-- States equal up to histories and clock differ in nothing else. -/
theorem withRecordsOf_eq {t u : State} (h : eraseState t = eraseState u) : withRecordsOf t u = t :=
  calc withRecordsOf t u = withRecordsOf t (eraseState u) := rfl
    _ = withRecordsOf t (eraseState t) := by rw [h]
    _ = t := rfl

end Sys2Proof.Proofs.Records
end

section
/-! The statements of 00_scope.md: what blocks the host while a command runs (R6), the parameters (R7), the histories (R12). -/

namespace Sys2Proof.Proofs.Scope

open Sys2Proof Sys2Proof.Machine Sys2Proof.Claims Sys2Proof.Laws

/-- Settles O44: a running command's step is one micro-operation of it (`seqStep_oneOp`). -/
theorem theHostIsBlockedWhileACommandRuns : Obligations.TheHostIsBlockedWhileACommandRuns := by
  unfold Obligations.TheHostIsBlockedWhileACommandRuns
  intro s t hs h
  have hone : AnyNext (OneOp s) (step s) := by
    rw [Ops.step_running hs]
    exact seqStep_oneOp s hs
  rw [h] at hone
  obtain ⟨hhost, htick, hgo, hend⟩ : OneOp s t := hone
  exact ⟨hhost, htick.ops, htick.env, hgo, hend⟩

/-- Settles O49: every micro-operation keeps the parameters, and no move of the host writes them. -/
theorem noStepChangesAParameter : Obligations.NoStepChangesAParameter := by
  unfold Obligations.NoStepChangesAParameter
  intro s t h
  have hcfg := step_sameCfg s
  rwa [h] at hcfg

/-- Settles O55: both steps are, up to histories and clock, the step of the state with these erased (`step_erase`). -/
theorem historiesAndTimeAreReadByNothing : Obligations.HistoriesAndTimeAreReadByNothing := by
  unfold Obligations.HistoriesAndTimeAreReadByNothing
  intro s h p m
  have key := (Records.step_erase s).trans
    (Records.step_erase { s with blk := { s.blk with lineHist := h, primHist := p, time := m } }).symm
  generalize step s = o at *
  generalize step { s with blk := { s.blk with lineHist := h, primHist := p, time := m } } = o' at *
  cases o with
  | next t =>
    cases o' with
    | next u => exact Records.withRecordsOf_eq (Host.Outcome.next.inj key)
    | _ => cases key
  | fault r => cases r
  | refused r =>
    cases o' with
    | refused r' => exact Host.Outcome.refused.inj key
    | _ => cases key

end Sys2Proof.Proofs.Scope
end

section
/-! What the registers hold between commands: the state construction leaves (10_state.md R35), the state a transaction leaves (R36), and
the host's reading of `RESULT` (R31). -/

namespace Sys2Proof.Proofs.RestStates

open Sys2Proof Sys2Proof.Machine Sys2Proof.Claims Sys2Proof.Laws Sys2Proof.Laws.Invariant

/-! ### Released lines (20_memory.md R62, R63) -/

section

variable {b : Block}

/-- With both latches and `DR[7]` at 1 the master holds neither line low, whatever the directions. -/
theorem drivesLow_eq_false (hc : b.latchClock = true) (hd : b.latchData = true) (h7 : b.dr.getLsbD 7 = true) (l : Line) :
    b.drivesLow l = false := by
  cases l with
  | clock => simp [Block.drivesLow, Block.drivesClockLow, hc]
  | data => simp [Block.drivesLow, Block.drivesDataLow, hd, h7]

/-- A line the master does not hold low is low exactly when the environment holds it low. -/
theorem level_of_drivesLow_eq_false {l : Line} (h : b.drivesLow l = false) (e : Bool) : b.level l e = !e := by
  simp [Block.level, h]

end

/-! ### The end of a transaction -/

/-- Bits 7 to 1 of a byte whose upper seven bits are ones. -/
theorem getLsbD_of_upper_ones {v : Byte} (h : v.extractLsb' 1 7 = 0x7F#7) {i : Nat} (hi : 0 < i) (hi' : i < 8) :
    v.getLsbD i = true := by
  obtain ⟨j, rfl⟩ : ∃ j, i = 1 + j := ⟨i - 1, by omega⟩
  have hj : j < 7 := by omega
  calc v.getLsbD (1 + j) = (v.extractLsb' 1 7).getLsbD j := by simp [hj]
    _ = true := by rw [h]; interval_cases j <;> rfl

/-- R36 with what both transactions leave: the registers but for `DR[0]`, and the statuses they can return. -/
structure EndsAtRest (t : State) : Prop where
  registers : AfterTransaction t.blk
  upperOnes : t.blk.dr.extractLsb' 1 7 = 0x7F#7
  status : ∃ r, t.result = some r ∧ (r.status = .ok ∨ r.status = .acknowledgmentFailure ∨ r.status = .malformedReceive)

section

variable {s t : State}

/-- A listing's step empties the position only by its return. -/
theorem runListing_ready {π ρ : Type} {r : Adv π ρ} {position : π → Seq} {done : ρ → Block → State}
    (h : s.runListing r position done = .next t) (ht : t.seq = .ready) (hp : ∀ p, position p ≠ .ready) :
    ∃ v c, r = .ret v c ∧ t = done v c := by
  obtain ⟨p, c, -, rfl⟩ | hret | ⟨l, c, -, rfl⟩ := Ops.runListing_next h
  · exact absurd ht (hp p)
  · exact hret
  · cases ht

/-- What the invariant says of `poll_n` while a transaction runs. -/
theorem pollN_of_inv (hi : Inv s) (hs : s.seq.inTransaction = true) : PollBound s.blk ∧ (s.seq.poll = none → s.blk.pollN = 0) := by
  obtain ⟨-, hz, hb⟩ := hi
  refine ⟨hb, fun hn => hz ?_⟩
  cases hq : s.seq <;> simp_all [Seq.inTransaction, Seq.mayCount]

/-- A `SEND` that empties the position has returned from its stop (R171 W7). -/
theorem send_endsAtRest {l : SendLatches} {p : SendPos} (hi : Inv s) (hs : s.seq = .send l p) (h : step s = .next t)
    (ht : t.seq = .ready) : EndsAtRest t ∧ t.blk.dr = 0xFF#8 := by
  have hpos : SendInv l p s.blk := by simpa [Machine.Inv, PositionInv, hs] using hi.1
  obtain ⟨hb, hz⟩ := pollN_of_inv hi (by rw [hs]; rfl)
  have hkeeps := sendAdv_keeps hpos hb (hs ▸ hz)
  have hrun : sendStep l p s = .next t := by rw [← h, Ops.step_running (by simp [hs]), seqStep, hs]
  obtain ⟨r, c, hret, rfl⟩ := runListing_ready hrun ht (by simp)
  rw [hret] at hkeeps
  obtain ⟨hrest, hdr, hst⟩ : RestState c ∧ c.dr = 0xFF#8 ∧ (r.status = .ok ∨ r.status = .acknowledgmentFailure) := hkeeps
  exact ⟨⟨hrest, by simp [hdr], r, rfl, hst.imp_right .inl⟩, hdr⟩

/-- A `RECEIVE` that empties the position has returned from one of its stops (R172 Q3, Q11). -/
theorem receive_endsAtRest {l : RecvLatches} {p : RecvPos} (hi : Inv s) (hs : s.seq = .receive l p) (h : step s = .next t)
    (ht : t.seq = .ready) : EndsAtRest t := by
  have hpos : RecvInv l p s.blk := by simpa [Machine.Inv, PositionInv, hs] using hi.1
  obtain ⟨hb, hz⟩ := pollN_of_inv hi (by rw [hs]; rfl)
  have hkeeps := recvAdv_keeps hpos hb (hs ▸ hz)
  have hrun : recvStep l p s = .next t := by rw [← h, Ops.step_running (by simp [hs]), seqStep, hs]
  obtain ⟨r, c, hret, rfl⟩ := runListing_ready hrun ht (by simp)
  rw [hret] at hkeeps
  obtain ⟨hrest, hdr, hst⟩ : RestState c ∧ c.dr.extractLsb' 1 7 = 0x7F#7 ∧ (r.status = .ok ∨ r.status = .malformedReceive) :=
    hkeeps
  exact ⟨hrest, hdr, r, rfl, hst.imp_right .inr⟩

/-- Either transaction. -/
theorem transaction_endsAtRest (hi : Inv s) (hs : s.seq.inTransaction = true) (h : step s = .next t) (ht : t.seq = .ready) :
    EndsAtRest t := by
  cases hq : s.seq with
  | send l p => exact (send_endsAtRest hi hq h ht).1
  | receive l p => exact receive_endsAtRest hi hq h ht
  | _ => simp [hq, Seq.inTransaction] at hs

/-- A transaction's end releases both lines: `DR[7]` is among the ones it leaves (R36). -/
theorem EndsAtRest.drivesLow (h : EndsAtRest t) (l : Line) : t.blk.drivesLow l = false := by
  obtain ⟨-, -, hc, hd, -⟩ := h.registers
  exact drivesLow_eq_false hc hd (getLsbD_of_upper_ones h.upperOnes (by omega) (by omega)) l

end

/-- Settles O31: a transaction empties the position only by returning from its stop, in the rest state of R36. -/
theorem transactionsEndInTheRestState : Obligations.TransactionsEndInTheRestState := by
  unfold Obligations.TransactionsEndInTheRestState
  intro s t hi hs h ht
  have hend := transaction_endsAtRest hi hs h ht
  exact ⟨hend.registers, fun i h0 h8 => getLsbD_of_upper_ones hend.upperOnes h0 h8,
    fun l p hq => (send_endsAtRest hi hq h ht).2, hend.drivesLow .clock, hend.drivesLow .data, hend.status⟩

/-! ### Reading RESULT -/

section

variable {s : State}

theorem withResult_none (h : s.result = none) (k : Result → Out) : s.withResult k = .refused .resultBeforeFirstCommand := by
  simp [State.withResult, h]

theorem withResult_some {r : Result} (h : s.result = some r) (k : Result → Out) : s.withResult k = k r := by
  simp [State.withResult, h]

/-- With no call open, the step on a read looks at `RESULT` and puts its words in the inbox. -/
theorem step_readResult {ops : List HostOp} (hr : s.seq = .ready) (hc : s.client = .idle) (hp : s.program = .readResult :: ops) :
    step s = s.withResult fun r => .next { s with program := ops, inbox := s.inbox ++ resultWords r } := by
  simp [Ops.step_ready hr, hostStep, hc, nextMove, hp]

end

/-- Settles O45: the two cases of the host's look at `RESULT`. -/
theorem readingTheResult : Obligations.ReadingTheResult := by
  unfold Obligations.ReadingTheResult
  intro s ops hr hc hp
  rw [step_readResult hr hc hp]
  exact ⟨fun h => withResult_none h _, fun r h => withResult_some h _⟩

/-! ### Construction -/

/-- After construction the lines are at the environment's levels. -/
theorem construct_level (cfg : Config) (l : Line) (e : Bool) : (State.construct cfg).blk.level l e = !e :=
  level_of_drivesLow_eq_false (drivesLow_eq_false rfl rfl (by simp [State.construct, Block.construct]) l) e

/-- Settles O46: the table of R35 is read off the constructed state; its lines are released and it holds no result. -/
theorem constructionLeavesTheResetState : Obligations.ConstructionLeavesTheResetState := by
  unfold Obligations.ConstructionLeavesTheResetState
  refine ⟨fun cfg => ⟨_, rfl, rfl, rfl, rfl, rfl, rfl, rfl, rfl, rfl, rfl, rfl, rfl, rfl, rfl, fun l => ?levels, fun ops => ?read⟩,
    Config.standard, rfl, rfl, rfl, rfl, rfl, rfl⟩
  case levels => exact ⟨construct_level cfg l false, construct_level cfg l true⟩
  case read =>
    rw [step_readResult rfl rfl rfl]
    exact withResult_none rfl _

/-- Between commands in `Idle`, with no start pending and no poll counted. -/
theorem construct_inv (cfg : Config) : Inv (State.construct cfg) := by
  have hready : ReadyInv (State.construct cfg).blk := by simp [ReadyInv, State.construct, Block.construct]
  exact ⟨hready, fun _ => rfl, .inl rfl⟩

/-- Settles O47: construction gives the invariant for every choice of parameters, R7's defaults among them. -/
theorem invariantHoldsAfterConstruction : Obligations.InvariantHoldsAfterConstruction := by
  unfold Obligations.InvariantHoldsAfterConstruction
  exact ⟨construct_inv, construct_inv Config.standard⟩

end Sys2Proof.Proofs.RestStates
end

section
/-! Two more rules of `Leaves`: a weaker predicate, and the listing of a command seen from the state. -/

namespace Sys2Proof.Proofs.Scope

open Sys2Proof Sys2Proof.Machine

variable {π ρ : Type} {P Q : Block → Prop} {r : Adv π ρ}

theorem Leaves.mono (h : Leaves P r) (hPQ : ∀ b, P b → Q b) : Leaves Q r := by
  cases r with
  | goto p b => exact hPQ b h
  | ret v b => exact hPQ b h
  | timeout l b => exact hPQ b h
  | refuse e => trivial

/-- What a command's listing leaves is what its next state holds, when its return keeps it. -/
theorem Leaves.runListing {s : State} {position : π → Seq} {done : ρ → Block → State} (h : Leaves P r)
    (hd : ∀ v b, P b → P (done v b).blk) : AnyNext (fun t => P t.blk) (s.runListing r position done) := by
  cases r with
  | goto p b => exact h
  | ret v b => exact hd v b h
  | timeout l b => exact h
  | refuse e => trivial

end Sys2Proof.Proofs.Scope
end

section
/-! The statements of 20_memory.md about what one micro-operation uses and reads: one answer of the environment (R63, R262), which reaches
no register but `DR[0]` and `poll_n` (R34). -/

namespace Sys2Proof.Proofs.Environment

open Sys2Proof Sys2Proof.Machine Sys2Proof.Claims Sys2Proof.Laws Sys2Proof.Proofs.Scope

/-! ### One micro-operation uses one answer -/

/-- Registers may be written before the tick that ends a micro-operation: it still uses one answer. -/
theorem elapsed_tick {b c : Block} (k : Nat) (hcfg : c.cfg = b.cfg) (henv : c.env = b.env) (hops : c.ops = b.ops)
    (htime : c.time = b.time) (hhist : c.lineHist = b.lineHist) : Elapsed 1 0 b (c.tick k) :=
  ⟨hcfg, by simp [henv], by simp [hops], by simp [htime, Nat.add_assoc], [c.levelsAfter], rfl, by simp [hhist]⟩

/-- One poll, whichever of its three ways it takes. -/
theorem waitHighStep_elapsed (l : Line) (s : State) : AnyNext (fun t => Elapsed 1 0 s.blk t.blk) (waitHighStep l s) := by
  rw [waitHighStep, waitHighNext]
  obtain ⟨-, e⟩ | ⟨-, -, e⟩ | ⟨_, -, -, -, e⟩ | ⟨_, -, -, -, e⟩ := Ops.poll_cases s.blk l <;> rw [e] <;>
    exact elapsed_tick 0 rfl rfl rfl rfl rfl

/-- The micro-operation of a tier-1 command ends with a tick. -/
theorem exec_elapsed {i : Instr} (hi : isMicro i = true) (s : State) : AnyNext (fun t => Elapsed 1 0 s.blk t.blk) (exec i s) := by
  cases i with
  | setHigh l => exact .issue (elapsed_tick _ (by simp) (by simp) (by simp) (by simp) (by simp))
  | setLow l => exact .issue (elapsed_tick _ (by simp) (by simp) (by simp) (by simp) (by simp))
  | setDir l d => exact .issue (elapsed_tick _ (by simp) (by simp) (by simp) (by simp) (by simp))
  | strobe =>
    refine .issue ?_
    split
    · obtain ⟨-, rfl⟩ | ⟨-, -, rfl⟩ := Ops.strobe_cases ‹_› <;> exact elapsed_tick 0 rfl rfl rfl rfl rfl
    · trivial
  | waitHigh l => exact .issue (waitHighStep_elapsed l s)
  | start => cases hi
  | stop => cases hi
  | sendByte v => cases hi
  | xfer n cw => cases hi
  | send a bytes => cases hi
  | receive a c => cases hi
  | _ => exact .issue (elapsed_tick _ rfl rfl rfl rfl rfl)

/-- Settles O14: every tier-1 command's micro-operation ends with one tick (`exec_elapsed`). -/
theorem microOperationsUseOneAnswer : Obligations.MicroOperationsUseOneAnswer := by
  unfold Obligations.MicroOperationsUseOneAnswer
  intro i s t hi h
  have key := exec_elapsed hi s
  rwa [h] at key

/-! ### Two answers to one micro-operation -/

/-- The block with other coming answers of the environment. -/
def withEnv (b : Block) (e : List EnvAnswer) : Block := { b with env := e }

/-- The two blocks of one micro-operation under two answers agree in all but `DR[0]` and `poll_n`. -/
def Alike {π ρ : Type} (r r' : Adv π ρ) : Prop := Leaves (fun b => Leaves (SameButTheSample b) r') r

/-- The same of the next states of two outcomes. -/
def AlikeNext (o o' : Out) : Prop := AnyNext (fun t => AnyNext (fun u => SameButTheSample t.blk u.blk) o') o

/-- Whatever they hold in `poll_n`, the histories, the answers and the clock, equal registers are alike. -/
theorem sameButTheSample_of_eq {b c : Block} (hdr : c.dr = b.dr)
    (h : (c.dirClock, c.dirData, c.latchClock, c.latchData, c.cnt, c.done, c.bus, c.afterStart) =
      (b.dirClock, b.dirData, b.latchClock, b.latchData, b.cnt, b.done, b.bus, b.afterStart)) : SameButTheSample b c := by
  simp only [Prod.mk.injEq] at h
  obtain ⟨h1, h2, h3, h4, h5, h6, h7, h8⟩ := h
  exact ⟨⟨h1, h2, h3, h4⟩, h5, h6, h7, h8, fun _ _ => by rw [hdr]⟩

/-- The sample shifted in is `DR[0]` alone (R129). -/
theorem shiftIn_upper (d : Byte) (x y : Bool) {i : Nat} (hi : 0 < i) : (shiftIn d x).getLsbD i = (shiftIn d y).getLsbD i := by
  simp only [shiftIn, BitVec.getLsbD_append, show ¬ i < 1 by omega, if_false]

section

variable {π ρ π' ρ' : Type}

/-- A test that reads no answer goes the same way on both sides. -/
theorem Alike.ite {p : Prop} [Decidable p] {r r' q q' : Adv π ρ} (hr : Alike r r') (hq : Alike q q') :
    Alike (if p then r else q) (if p then r' else q') := by
  split
  · exact hr
  · exact hq

/-- The lines after a call's return write no register, whatever was returned. -/
theorem Alike.call {r r' : Adv π ρ} {inside : π → π'} {after : ρ → Block → Adv π' ρ'} (h : Alike r r')
    (ha : ∀ P v b, P b → Leaves P (after v b)) : Alike (r.call inside after) (r'.call inside after) :=
  (h.mono fun _ hb => hb.call (ha _)).call (ha _)

/-- Everything a poll inside a listing can leave (R131). -/
theorem pollAdv_leaves (b : Block) (l : Line) (here next : π) :
    Leaves (fun c => ∃ k, c = { b with pollN := k }.tick 0) (pollAdv b l here next : Adv π ρ) := by
  generalize e : (pollAdv b l here next : Adv π ρ) = r
  obtain ⟨rfl, -⟩ | ⟨k, rfl, -⟩ | rfl := Ops.pollAdv_cases e
  · exact ⟨0, rfl⟩
  · exact ⟨k, rfl⟩
  · exact ⟨b.pollN, rfl⟩

theorem pollAdv_alike (b : Block) (e : List EnvAnswer) (l : Line) (here next : π) :
    Alike (pollAdv b l here next : Adv π ρ) (pollAdv (withEnv b e) l here next) := by
  refine (pollAdv_leaves b l here next).mono ?_
  rintro _ ⟨k, rfl⟩
  refine (pollAdv_leaves (withEnv b e) l here next).mono ?_
  rintro _ ⟨m, rfl⟩
  exact sameButTheSample_of_eq rfl rfl

/-- Two strobes of one block are both rising or both falling (R129). -/
theorem strobe_alike {b x y : Block} (e : List EnvAnswer) (hx : b.strobe = some x) (hy : (withEnv b e).strobe = some y) :
    SameButTheSample x y := by
  obtain ⟨hl, rfl⟩ | ⟨hl, -, rfl⟩ := Ops.strobe_cases hx
  · cases (Ops.strobe_rising (b := withEnv b e) hl).symm.trans hy
    exact sameButTheSample_of_eq rfl rfl
  · obtain ⟨hl', -⟩ | ⟨-, -, rfl⟩ := Ops.strobe_cases hy
    · cases hl.symm.trans hl'
    · exact ⟨⟨rfl, rfl, rfl, rfl⟩, rfl, rfl, rfl, rfl, fun _ hi => shiftIn_upper b.dr _ _ hi⟩

theorem strobeAdv_alike (b : Block) (e : List EnvAnswer) (next : π) :
    Alike (strobeAdv b next : Adv π ρ) (strobeAdv (withEnv b e) next) := by
  unfold strobeAdv
  cases hx : b.strobe with
  | none => trivial
  | some x =>
    cases hy : (withEnv b e).strobe with
    | none => trivial
    | some y => exact strobe_alike e hx hy

end

/-! ### Two answers to one micro-operation of a listing -/

section

variable (b : Block) (e : List EnvAnswer)

theorem xferAdv_alike (p : XferPos) : Alike (xferAdv p b) (xferAdv p (withEnv b e)) := by
  cases p with
  | x1 w => cases w <;> exact .ite (sameButTheSample_of_eq rfl rfl) trivial
  | x3 c => exact strobeAdv_alike b e _
  | x4 c => exact pollAdv_alike b e _ _ _
  | x6 c => exact strobeAdv_alike b e _
  | x7 c => exact .ite (sameButTheSample_of_eq rfl rfl) (sameButTheSample_of_eq rfl rfl)
  | _ => exact sameButTheSample_of_eq rfl rfl

theorem startAdv_alike (p : StartPos) : Alike (startAdv p b) (startAdv p (withEnv b e)) := by
  cases p with
  | s1 => exact .ite (sameButTheSample_of_eq rfl rfl) trivial
  | s2 => exact pollAdv_alike b e _ _ _
  | _ => exact sameButTheSample_of_eq rfl rfl

theorem stopAdv_alike (p : StopPos) : Alike (stopAdv p b) (stopAdv p (withEnv b e)) := by
  cases p with
  | p1 => exact .ite (.ite trivial (sameButTheSample_of_eq rfl rfl)) trivial
  | p3 => exact pollAdv_alike b e _ _ _
  | p6 => exact pollAdv_alike b e _ _ _
  | _ => exact sameButTheSample_of_eq rfl rfl

theorem byteAdv_alike (p : BytePos) : Alike (byteAdv p b) (byteAdv p (withEnv b e)) := by
  cases p with
  | b1 v => exact .ite (sameButTheSample_of_eq rfl rfl) trivial
  | b2 x => exact (xferAdv_alike b e x).call fun _ _ _ h => h
  | b4 x => exact (xferAdv_alike b e x).call fun _ _ _ h => h
  | _ => exact sameButTheSample_of_eq rfl rfl

theorem sendAdv_alike (t : SendLatches) (p : SendPos) : Alike (sendAdv t p b) (sendAdv t p (withEnv b e)) := by
  cases p with
  | w1 q => exact (startAdv_alike b e q).call fun _ _ _ h => h
  | w2 q => exact (byteAdv_alike b e q).call fun _ _ _ h => h
  | w4 q => exact (byteAdv_alike b e q).call fun _ _ _ h => h
  | w6 q => exact (stopAdv_alike b e q).call fun _ _ _ h => h

theorem recvAdv_alike (t : RecvLatches) (p : RecvPos) : Alike (recvAdv t p b) (recvAdv t p (withEnv b e)) := by
  cases p with
  | q1 q => exact (startAdv_alike b e q).call fun _ _ _ h => h
  | q2 q => exact (byteAdv_alike b e q).call fun _ _ _ h => h
  | q3 q => exact (stopAdv_alike b e q).call fun _ _ _ h => h
  | q6 x => exact (xferAdv_alike b e x).call fun _ _ _ h => h
  | q9 v x => exact (xferAdv_alike b e x).call fun _ _ _ h => h
  | q11 q => exact (stopAdv_alike b e q).call fun _ _ _ h => h
  | _ => exact sameButTheSample_of_eq rfl rfl

theorem recoverAdv_alike (p : RecoverPos) : Alike (recoverAdv p b) (recoverAdv p (withEnv b e)) := by
  cases p <;> exact sameButTheSample_of_eq rfl rfl

end

/-! ### Two answers to one micro-operation of a command -/

section

variable {s s' : State} {o o' : Out}

theorem AlikeNext.issue (h : AlikeNext o o') : AlikeNext (s.issue o) (s'.issue o') :=
  AnyNext.issue (AnyNext.mono h fun _ ht => ht.issue)

theorem AlikeNext.require (h : AlikeNext o o') {p p' : Bool} {r r' : Refusal} : AlikeNext (require p r o) (require p' r' o') :=
  AnyNext.require (AnyNext.mono h fun _ ht => ht.require p' r') p r

theorem Alike.runListing {π ρ : Type} {r r' : Adv π ρ} {position : π → Seq} {done done' : ρ → Block → State} (h : Alike r r')
    (hd : ∀ v b, (done v b).blk = b) (hd' : ∀ v b, (done' v b).blk = b) :
    AlikeNext (s.runListing r position done) (s'.runListing r' position done') :=
  (h.mono fun _ hb => hb.runListing fun v c hc => by rwa [hd']).runListing fun v b hb => by rwa [hd]

end

variable (s : State) (e : List EnvAnswer)

/-- The state with other coming answers of the environment. -/
def stateWithEnv : State := { s with blk := withEnv s.blk e }

theorem startStep_alike (p : StartPos) : AlikeNext (startStep p s) (startStep p (stateWithEnv s e)) :=
  (startAdv_alike s.blk e p).runListing (fun _ _ => rfl) fun _ _ => rfl

theorem stopStep_alike (p : StopPos) : AlikeNext (stopStep p s) (stopStep p (stateWithEnv s e)) :=
  (stopAdv_alike s.blk e p).runListing (fun _ _ => rfl) fun _ _ => rfl

theorem sendByteStep_alike (p : BytePos) : AlikeNext (sendByteStep p s) (sendByteStep p (stateWithEnv s e)) :=
  (byteAdv_alike s.blk e p).runListing (fun _ _ => rfl) fun _ _ => rfl

theorem xferStep_alike (p : XferPos) : AlikeNext (xferStep p s) (xferStep p (stateWithEnv s e)) :=
  (xferAdv_alike s.blk e p).runListing (fun _ _ => rfl) fun _ _ => rfl

theorem sendStep_alike (t : SendLatches) (p : SendPos) : AlikeNext (sendStep t p s) (sendStep t p (stateWithEnv s e)) :=
  (sendAdv_alike s.blk e t p).runListing (fun _ _ => rfl) fun _ _ => rfl

theorem recvStep_alike (t : RecvLatches) (p : RecvPos) : AlikeNext (recvStep t p s) (recvStep t p (stateWithEnv s e)) :=
  (recvAdv_alike s.blk e t p).runListing (fun _ _ => rfl) fun _ _ => rfl

/-- The recovery samples nothing. -/
theorem recoverStep_alike (p : RecoverPos) (l : Line) : AlikeNext (recoverStep p l s) (recoverStep p l (stateWithEnv s e)) := by
  cases p <;> exact sameButTheSample_of_eq rfl rfl

/-- Everything the command `WAITHIGH` can leave at a poll. -/
theorem waitHighNext_blk (l : Line) : ∃ k, (waitHighNext l s).blk = { s.blk with pollN := k }.tick 0 := by
  rw [waitHighNext]
  obtain ⟨-, e⟩ | ⟨-, -, e⟩ | ⟨_, -, -, -, e⟩ | ⟨_, -, -, -, e⟩ := Ops.poll_cases s.blk l <;> rw [e] <;> exact ⟨_, rfl⟩

theorem waitHighStep_alike (l : Line) : AlikeNext (waitHighStep l s) (waitHighStep l (stateWithEnv s e)) := by
  obtain ⟨k, hk⟩ := waitHighNext_blk s l
  obtain ⟨m, hm⟩ := waitHighNext_blk (stateWithEnv s e) l
  change SameButTheSample (waitHighNext l s).blk (waitHighNext l (stateWithEnv s e)).blk
  rw [hk, hm]
  exact sameButTheSample_of_eq rfl rfl

/-- The next micro-operation of a running command, whatever command runs. -/
theorem seqStep_alike : AlikeNext (seqStep s) (seqStep (stateWithEnv s e)) := by
  obtain ⟨blk, seq, result, program, client, clientLog, inbox⟩ := s
  cases seq with
  | ready => exact sameButTheSample_of_eq rfl rfl
  | waitHigh l => exact waitHighStep_alike _ e l
  | start p => exact startStep_alike _ e p
  | stop p => exact stopStep_alike _ e p
  | sendByte p => exact sendByteStep_alike _ e p
  | xfer p => exact xferStep_alike _ e p
  | send t p => exact sendStep_alike _ e t p
  | receive t p => exact recvStep_alike _ e t p
  | recover p l => exact recoverStep_alike _ e p l

/-- The first micro-operation of a command, with its acceptance. -/
theorem exec_alike (i : Instr) : AlikeNext (exec i s) (exec i (stateWithEnv s e)) := by
  cases i with
  | setHigh l => cases l <;> exact AlikeNext.issue (sameButTheSample_of_eq rfl rfl)
  | setLow l => cases l <;> exact AlikeNext.issue (sameButTheSample_of_eq rfl rfl)
  | setDir l d => cases l <;> exact AlikeNext.issue (sameButTheSample_of_eq rfl rfl)
  | strobe =>
    refine AlikeNext.issue ?_
    cases hx : s.blk.strobe with
    | none => trivial
    | some x =>
      cases hy : (stateWithEnv s e).blk.strobe with
      | none => trivial
      | some y => exact strobe_alike e hx hy
  | waitHigh l => exact (waitHighStep_alike s e l).issue
  | start => exact ((startStep_alike s e _).require).issue
  | stop => exact ((stopStep_alike s e _).require).issue
  | sendByte v => exact ((sendByteStep_alike s e _).require).issue
  | xfer n cw =>
    refine AlikeNext.issue ?_
    rcases widthOf n cw with _ | _ | _
    · trivial
    · exact (xferStep_alike s e _).require
    · exact (xferStep_alike s e _).require
  | send a bytes => exact (((sendStep_alike s e _ _).require).require).issue
  | receive a c => exact ((((recvStep_alike s e _ _).require).require).require).issue
  | _ => exact AlikeNext.issue (sameButTheSample_of_eq rfl rfl)

/-- Settles O54: under any two answers a step of a running command, and a command as it is issued, leave alike blocks (`seqStep_alike`,
`exec_alike`). -/
theorem theEnvironmentReachesOnlyTheSampledBit : Obligations.TheEnvironmentReachesOnlyTheSampledBit := by
  unfold Obligations.TheEnvironmentReachesOnlyTheSampledBit
  refine ⟨fun s t u e hs ht hu => ?running, fun i s t u e ht hu => ?issued⟩
  case running =>
    have key := seqStep_alike s e
    rw [← Ops.step_running hs, ← Ops.step_running (s := stateWithEnv s e) hs, ht] at key
    change step (stateWithEnv s e) = _ at hu
    rwa [hu] at key
  case issued =>
    have key := exec_alike s e i
    change exec i (stateWithEnv s e) = _ at hu
    rwa [ht, hu] at key

end Sys2Proof.Proofs.Environment
end

section
/-! R78, R244: the master moves DATA only while it drives CLOCK low. -/

namespace Sys2Proof.Proofs.DataMoves

open Sys2Proof Sys2Proof.Machine Sys2Proof.Claims Sys2Proof.Laws Sys2Proof.Proofs.Scope

/-- Where the micro-operation from `b` to `c` changes the master's drive of DATA, it leaves CLOCK driven low. -/
def MovesLow (b c : Block) : Prop := c.drivesDataLow ≠ b.drivesDataLow → c.drivesClockLow = true

/-- What writes neither DATA's direction and latch nor `DR` does not move DATA (R62). -/
theorem movesLow_of_same {b c : Block} (h : (c.dirData, c.latchData, c.dr) = (b.dirData, b.latchData, b.dr)) : MovesLow b c := by
  simp only [Prod.mk.injEq] at h
  obtain ⟨hdir, hlatch, hdr⟩ := h
  intro hne
  exact absurd (by rw [Block.drivesDataLow, Block.drivesDataLow, hdir, hlatch, hdr]) hne

/-- What leaves CLOCK an output with the latch 0 may move DATA. -/
theorem movesLow_of_clockLow {b c : Block} (h : ClockLow c) : MovesLow b c := by
  obtain ⟨hdir, hlatch⟩ := h
  intro
  simp [Block.drivesClockLow, hdir, hlatch]

theorem clockDrivenLow_iff {b : Block} : b.clockDrivenLow = true ↔ ClockLow b := by
  simp [Block.clockDrivenLow, ClockLow]

theorem pinsOutput_iff {b : Block} : b.pinsOutput = true ↔ PinsOutput b := by
  simp [Block.pinsOutput, PinsOutput]

/-! ### One micro-operation of a listing -/

section

variable {b : Block}

theorem pollAdv_movesLow {π ρ : Type} (l : Line) (here next : π) : Leaves (MovesLow b) (pollAdv b l here next : Adv π ρ) :=
  (Environment.pollAdv_leaves b l here next).mono fun _ ⟨_, hc⟩ => hc ▸ movesLow_of_same rfl

/-- A strobe moves DATA only by the shift of a falling one, which drives CLOCK low. -/
theorem strobeAdv_movesLow {π ρ : Type} (hd : b.dirClock = .output) (next : π) :
    Leaves (MovesLow b) (strobeAdv b next : Adv π ρ) := by
  generalize e : (strobeAdv b next : Adv π ρ) = r
  obtain ⟨rfl, -⟩ | ⟨rfl, -⟩ | ⟨rfl, -⟩ := Ops.strobeAdv_cases e
  · exact movesLow_of_same rfl
  · exact movesLow_of_clockLow ⟨hd, rfl⟩
  · trivial

/-- X1 moves no line (R151). -/
theorem xferAdv_x1_movesLow (w : Width) : Leaves (MovesLow b) (xferAdv (.x1 w) b) := by
  rw [xferAdv]
  split
  · exact movesLow_of_same (by simp)
  · trivial

/-- S1 moves CLOCK alone (R152). -/
theorem startAdv_s1_movesLow : Leaves (MovesLow b) (startAdv .s1 b) := by
  rw [startAdv]
  split
  · exact movesLow_of_same rfl
  · trivial

/-- P1 drives DATA low after its tests (R153): both lines are outputs and CLOCK's latch is 0. -/
theorem stopAdv_p1_movesLow : Leaves (MovesLow b) (stopAdv .p1 b) := by
  rw [stopAdv]
  split
  · split
    · trivial
    · next hpins hlatch => exact movesLow_of_clockLow ⟨(pinsOutput_iff.mp hpins).1, by simpa using hlatch⟩
  · trivial

/-- B1 loads `DR` after its test (R154). -/
theorem byteAdv_b1_movesLow (v : Byte) : Leaves (MovesLow b) (byteAdv (.b1 v) b) := by
  rw [byteAdv]
  split
  · next hlow => exact movesLow_of_clockLow (clockDrivenLow_iff.mp hlow)
  · trivial

/-- `transfer` moves DATA at its falling strobe alone (R151 X6). -/
theorem xferAdv_movesLow {w : Width} {x : XferPos} (hi : XferInv w x b) : Leaves (MovesLow b) (xferAdv x b) := by
  obtain ⟨-, hi⟩ := hi
  cases x with
  | x1 w => exact xferAdv_x1_movesLow w
  | x2 c => exact movesLow_of_same rfl
  | x3 c => obtain ⟨-, hlow, -⟩ := hi; exact strobeAdv_movesLow hlow.1 _
  | x4 c => exact pollAdv_movesLow _ _ _
  | x5 c => exact movesLow_of_same rfl
  | x6 c => obtain ⟨-, hreleased, -⟩ := hi; exact strobeAdv_movesLow hreleased.1 _
  | x7 c => rw [xferAdv]; split <;> exact movesLow_of_same rfl

/-- `generateStart` moves DATA at S4, which makes the START, and at S7, after CLOCK has been driven low (R152). -/
theorem startAdv_movesLow {p : StartPos} (hi : StartInv p b) (hp : p ≠ .s4) : Leaves (MovesLow b) (startAdv p b) := by
  obtain ⟨hpins, -, -, hi⟩ := hi
  cases p with
  | s1 => exact startAdv_s1_movesLow
  | s2 => exact pollAdv_movesLow _ _ _
  | s4 => exact absurd rfl hp
  | s7 => exact movesLow_of_clockLow ⟨hpins.1, hi.1⟩
  | _ => exact movesLow_of_same rfl

/-- `generateStop` moves DATA at P1, with CLOCK low, and at P5, which makes the STOP (R153). -/
theorem stopAdv_movesLow {p : StopPos} (hp : p ≠ .p5) : Leaves (MovesLow b) (stopAdv p b) := by
  cases p with
  | p1 => exact stopAdv_p1_movesLow
  | p3 => exact pollAdv_movesLow _ _ _
  | p5 => exact absurd rfl hp
  | p6 => exact pollAdv_movesLow _ _ _
  | _ => exact movesLow_of_same rfl

/-- `sendByte` writes DATA's direction and `DR` with CLOCK low (R154). -/
theorem byteAdv_movesLow {p : BytePos} (hi : ByteInv p b) : Leaves (MovesLow b) (byteAdv p b) := by
  cases p with
  | b1 v => exact byteAdv_b1_movesLow v
  | b2 x => exact (xferAdv_movesLow hi).call fun _ _ h => h
  | b4 x => exact (xferAdv_movesLow hi.1).call fun _ _ h => h
  | _ => exact movesLow_of_clockLow hi.1

/-- `send` makes its conditions in the listings it calls, and moves no line itself (R171). -/
theorem sendAdv_movesLow {t : SendLatches} {p : SendPos} (hi : SendInv t p b) (hp : (Seq.send t p).makesCondition = false) :
    Leaves (MovesLow b) (sendAdv t p b) := by
  cases p with
  | w1 q => exact (startAdv_movesLow hi.1 (by rintro rfl; cases hp)).call fun _ _ h => h
  | w2 q => exact (byteAdv_movesLow hi.1).call fun _ _ h => h
  | w4 q => exact (byteAdv_movesLow hi.1).call fun _ _ h => h
  | w6 q => exact (stopAdv_movesLow (by rintro rfl; cases hp)).call fun _ _ h => h

/-- `receive` turns DATA around, and loads the acknowledgment pattern, with CLOCK low (R172 Q5, Q7, Q8). -/
theorem recvAdv_movesLow {t : RecvLatches} {p : RecvPos} (hi : RecvInv t p b) (hp : (Seq.receive t p).makesCondition = false) :
    Leaves (MovesLow b) (recvAdv t p b) := by
  obtain ⟨-, -, hi⟩ := hi
  cases p with
  | q1 q => exact (startAdv_movesLow hi.1 (by rintro rfl; cases hp)).call fun _ _ h => h
  | q2 q => exact (byteAdv_movesLow hi.1).call fun _ _ h => h
  | q3 q => exact (stopAdv_movesLow (by rintro rfl; cases hp)).call fun _ _ h => h
  | q6 x => exact (xferAdv_movesLow hi.1).call fun _ _ h => h
  | q9 v x => exact (xferAdv_movesLow hi.1).call fun _ _ h => h
  | q11 q => exact (stopAdv_movesLow (by rintro rfl; cases hp)).call fun _ _ h => h
  | _ => exact movesLow_of_clockLow hi.1

end

/-! ### One micro-operation of a command of tier 2 or 3 -/

/-- The next state, where there is one, has moved DATA only with CLOCK driven low. -/
def NextMovesLow (s : State) (o : Out) : Prop := AnyNext (fun t => MovesLow s.blk t.blk) o

/-- A later micro-operation of a listing, but for the one that makes its START or its STOP. -/
theorem seqStep_movesLow {s : State} (hi : Inv s) (hs : s.seq.inListing = true) (hc : s.seq.makesCondition = false) :
    NextMovesLow s (seqStep s) := by
  obtain ⟨hpos, -⟩ := hi
  obtain ⟨blk, seq, result, program, client, clientLog, inbox⟩ := s
  cases seq with
  | ready => cases hs
  | waitHigh l => cases hs
  | recover p l => cases hs
  | start p => exact (startAdv_movesLow hpos (by rintro rfl; cases hc)).runListing fun _ _ h => h
  | stop p => exact (stopAdv_movesLow (by rintro rfl; cases hc)).runListing fun _ _ h => h
  | sendByte p => exact (byteAdv_movesLow hpos).runListing fun _ _ h => h
  | xfer x =>
    obtain ⟨w, hx⟩ := hpos
    exact (xferAdv_movesLow hx).runListing fun _ _ h => h
  | send t p => exact (sendAdv_movesLow hpos hc).runListing fun _ _ h => h
  | receive t p => exact (recvAdv_movesLow hpos hc).runListing fun _ _ h => h

/-- The first micro-operation, with the command's acceptance. -/
theorem exec_movesLow {i : Instr} (hi : isMicro i = false) (s : State) : NextMovesLow s (exec i s) := by
  have hstart : Leaves (MovesLow s.blk) (startAdv .s1 s.blk) := startAdv_s1_movesLow
  have hxfer : ∀ w, NextMovesLow s (xferStep (.x1 w) s) := fun w => (xferAdv_x1_movesLow w).runListing fun _ _ h => h
  cases i with
  | start => exact .issue (.require (startAdv_s1_movesLow.runListing fun _ _ h => h) _ _)
  | stop => exact .issue (.require (stopAdv_p1_movesLow.runListing fun _ _ h => h) _ _)
  | sendByte v => exact .issue (.require ((byteAdv_b1_movesLow v).runListing fun _ _ h => h) _ _)
  | xfer n cw =>
    refine .issue ?_
    rcases widthOf n cw with _ | _ | _
    · trivial
    · exact .require (hxfer _) _ _
    · exact .require (hxfer _) _ _
  | send a bytes =>
    have hsend : Leaves (MovesLow s.blk) (sendAdv (sendLatches a bytes) (.w1 .s1) s.blk) := hstart.call fun _ _ h => h
    exact .issue (.require (.require (hsend.runListing fun _ _ h => h) _ _) _ _)
  | receive a c =>
    have hrecv : Leaves (MovesLow s.blk) (recvAdv (recvLatches a c) (.q1 .s1) s.blk) := hstart.call fun _ _ h => h
    exact .issue (.require (.require (.require (hrecv.runListing fun _ _ h => h) _ _) _ _) _ _)
  | _ => cases hi

/-- Settles O51: no micro-operation of a listing moves DATA without CLOCK driven low but those that make a START or a STOP
(`seqStep_movesLow`), and no first one does (`exec_movesLow`). -/
theorem dataChangesOnlyWhileClockIsLow : Obligations.DataChangesOnlyWhileClockIsLow := by
  unfold Obligations.DataChangesOnlyWhileClockIsLow
  refine ⟨fun s t hi hs hc h => ?later, fun i s t hi h => ?first⟩
  case later =>
    have key := seqStep_movesLow hi hs hc
    rwa [← Ops.step_running (by rintro e; simp [e, Seq.inListing] at hs), h] at key
  case first =>
    have key := exec_movesLow hi s
    rwa [h] at key

end Sys2Proof.Proofs.DataMoves
end

section
/-! Every micro-operation of a running command keeps the invariant of Sys2Proof/Safety.lean, the last one of a command too. -/

namespace Sys2Proof.Proofs.RunningInvariant

open Sys2Proof Sys2Proof.Machine Sys2Proof.Laws Sys2Proof.Laws.Invariant Sys2Proof.Proofs.Scope

variable {s : State} {c : Block}

/-! ### The invariant after a micro-operation -/

/-- What the registers owe to the position the command stands at. -/
theorem position_inv {q : Seq} (hi : Inv s) (hs : s.seq = q) : PositionInv q s.blk := hs ▸ hi.1

/-- What the invariant says of `poll_n` inside a listing. -/
theorem pollN_of_inListing (hi : Inv s) (hs : s.seq.inListing = true) : PollBound s.blk ∧ (s.seq.poll = none → s.blk.pollN = 0) := by
  obtain ⟨-, hz, hb⟩ := hi
  refine ⟨hb, fun hn => hz ?_⟩
  cases hq : s.seq <;> simp_all [Seq.inListing, Seq.mayCount]

/-- The listing goes on. -/
theorem goto_inv {q : Seq} (hq : q.inListing = true) (hpos : PositionInv q c) (hb : PollBound c) (hz : q.poll = none → c.pollN = 0) :
    Inv (s.goto c q) := by
  refine ⟨hpos, fun hm => hz ?_, hb⟩
  cases q <;> simp_all [Seq.inListing, Seq.mayCount]

/-- The command ends. -/
theorem finish_inv (hr : ReadyInv c) (hz : c.pollN = 0) (r : Result) : Inv (s.finish c r) := ⟨hr, fun _ => hz, .inl hz⟩

/-- A poll has run out. -/
theorem raiseBusTimeout_inv (hb : PollBound c) (l : Line) : Inv (s.raiseBusTimeout c l) := ⟨trivial, nofun, hb⟩

theorem readyInv_of_idle (hb : c.bus = .idle) (ha : c.afterStart = false) : ReadyInv c := by simp [ReadyInv, hb, ha]

/-- A completed transfer leaves the phase of its width, in which `after_start` goes with the address phase (R155). -/
theorem readyInv_of_transferPhase {w : Width} (h : TransferPhase w c) : ReadyInv c := by
  cases w with
  | eight =>
    have hb : c.bus = bytePhase c.afterStart := h
    cases ha : c.afterStart <;> simp [ReadyInv, hb, ha, bytePhase]
  | one => simp [ReadyInv, h.1, h.2]

/-! ### One micro-operation of each command -/

theorem startStep_inv {p : StartPos} (hi : Inv s) (hs : s.seq = .start p) : AnyNext Inv (startStep p s) := by
  have hpos : StartInv p s.blk := position_inv hi hs
  obtain ⟨hb, hz⟩ := pollN_of_inListing hi (by simp [hs, Seq.inListing])
  have key := startAdv_keeps hpos hb fun h => hz (by simp [hs, Seq.poll, h])
  rw [startStep]
  generalize startAdv p s.blk = r at key ⊢
  cases r with
  | goto q c =>
    obtain ⟨hpos', hb', hz'⟩ := key
    exact goto_inv (q := .start q) rfl hpos' hb' fun h => hz' (by simpa [Seq.poll] using h)
  | ret v c =>
    obtain ⟨-, -, -, hbus, ha, hz'⟩ := key
    exact finish_inv (by simp [ReadyInv, hbus, ha]) hz' _
  | timeout l c => exact raiseBusTimeout_inv key l
  | refuse e => trivial

theorem stopStep_inv {p : StopPos} (hi : Inv s) (hs : s.seq = .stop p) : AnyNext Inv (stopStep p s) := by
  obtain ⟨hpos, -⟩ : StopInv p s.blk ∧ p ≠ .p1 := position_inv hi hs
  obtain ⟨hb, hz⟩ := pollN_of_inListing hi (by simp [hs, Seq.inListing])
  have key := stopAdv_keeps hpos hb fun h => hz (by simp [hs, Seq.poll, h])
  rw [stopStep]
  generalize stopAdv p s.blk = r at key ⊢
  cases r with
  | goto q c =>
    obtain ⟨hpos', hb', hz', -, -, -, -, hq⟩ := key
    exact goto_inv (q := .stop q) rfl ⟨hpos', hq⟩ hb' fun h => hz' (by simpa [Seq.poll] using h)
  | ret v c =>
    obtain ⟨-, -, -, hbus, ha, hz', -⟩ := key
    exact finish_inv (readyInv_of_idle hbus ha) hz' _
  | timeout l c => exact raiseBusTimeout_inv key l
  | refuse e => trivial

theorem sendByteStep_inv {p : BytePos} (hi : Inv s) (hs : s.seq = .sendByte p) : AnyNext Inv (sendByteStep p s) := by
  have hpos : ByteInv p s.blk := position_inv hi hs
  obtain ⟨hb, hz⟩ := pollN_of_inListing hi (by simp [hs, Seq.inListing])
  have key := byteAdv_keeps hpos hb fun h => hz (by simp [hs, Seq.poll, h])
  rw [sendByteStep]
  generalize byteAdv p s.blk = r at key ⊢
  cases r with
  | goto q c =>
    obtain ⟨hpos', hb', hz', -⟩ := key
    exact goto_inv (q := .sendByte q) rfl hpos' hb' fun h => hz' (by simpa [Seq.poll] using h)
  | ret v c =>
    obtain ⟨-, -, -, hbus, ha, -, hz', -⟩ := key
    exact finish_inv (by simp [ReadyInv, hbus, ha]) hz' _
  | timeout l c => exact raiseBusTimeout_inv key l
  | refuse e => trivial

theorem xferStep_inv {x : XferPos} (hi : Inv s) (hs : s.seq = .xfer x) : AnyNext Inv (xferStep x s) := by
  obtain ⟨w, hx⟩ : ∃ w, XferInv w x s.blk := position_inv hi hs
  obtain ⟨hb, hz⟩ := pollN_of_inListing hi (by simp [hs, Seq.inListing])
  have key := xferAdv_keeps hx hb fun h => hz (by simp [hs, Seq.poll, h])
  rw [xferStep]
  generalize xferAdv x s.blk = r at key ⊢
  cases r with
  | goto y c =>
    obtain ⟨hpos', hb', hz', -⟩ := key
    exact goto_inv (q := .xfer y) rfl ⟨w, hpos'⟩ hb' fun h => hz' (by simpa [Seq.poll] using h)
  | ret v c =>
    obtain ⟨hphase, -, -, hz', -⟩ := key
    exact finish_inv (readyInv_of_transferPhase hphase) hz' _
  | timeout l c => exact raiseBusTimeout_inv key l
  | refuse e => trivial

theorem restState_inv (h : RestState c) (r : Result) : Inv (s.finish c r) := by
  obtain ⟨-, -, -, -, -, -, hbus, ha, hz⟩ := h
  exact finish_inv (readyInv_of_idle hbus ha) hz r

theorem sendStep_inv {t : SendLatches} {p : SendPos} (hi : Inv s) (hs : s.seq = .send t p) : AnyNext Inv (sendStep t p s) := by
  have hpos : SendInv t p s.blk := position_inv hi hs
  obtain ⟨hb, hz⟩ := pollN_of_inListing hi (by simp [hs, Seq.inListing])
  have key := sendAdv_keeps hpos hb (hs ▸ hz)
  rw [sendStep]
  generalize sendAdv t p s.blk = r at key ⊢
  cases r with
  | goto y c =>
    obtain ⟨hpos', hb', hz'⟩ := key
    exact goto_inv (q := .send y.latches y.pos) rfl hpos' hb' hz'
  | ret v c => exact restState_inv key.1 _
  | timeout l c => exact raiseBusTimeout_inv key l
  | refuse e => trivial

theorem recvStep_inv {t : RecvLatches} {p : RecvPos} (hi : Inv s) (hs : s.seq = .receive t p) : AnyNext Inv (recvStep t p s) := by
  have hpos : RecvInv t p s.blk := position_inv hi hs
  obtain ⟨hb, hz⟩ := pollN_of_inListing hi (by simp [hs, Seq.inListing])
  have key := recvAdv_keeps hpos hb (hs ▸ hz)
  rw [recvStep]
  generalize recvAdv t p s.blk = r at key ⊢
  cases r with
  | goto y c =>
    obtain ⟨hpos', hb', hz'⟩ := key
    exact goto_inv (q := .receive y.latches y.pos) rfl hpos' hb' hz'
  | ret v c => exact restState_inv key.1 _
  | timeout l c => exact raiseBusTimeout_inv key l
  | refuse e => trivial

theorem recoverStep_inv {p : RecoverPos} {l : Line} (hi : Inv s) (hs : s.seq = .recover p l) : AnyNext Inv (recoverStep p l s) := by
  have hpos : RecoverInv p s.blk := position_inv hi hs
  obtain ⟨-, -, hb⟩ := hi
  have key := recoverAdv_keeps hpos hb
  rw [recoverStep]
  generalize recoverAdv p s.blk = r at key ⊢
  cases r with
  | goto q c => exact ⟨key.1, nofun, key.2⟩
  | ret v c => exact finish_inv (readyInv_of_idle rfl rfl) rfl _
  | timeout l c => exact key.elim
  | refuse e => trivial

theorem waitHighStep_inv {l : Line} (hi : Inv s) (hs : s.seq = .waitHigh l) : AnyNext Inv (waitHighStep l s) := by
  have hready : ReadyInv s.blk := position_inv hi hs
  obtain ⟨-, -, hb⟩ := hi
  rw [waitHighStep, waitHighNext]
  obtain ⟨-, e⟩ | ⟨-, -, e⟩ | ⟨n, -, hl, hn, e⟩ | ⟨_, -, -, -, e⟩ := Ops.poll_cases s.blk l <;> rw [e]
  · exact finish_inv (c := { s.blk with pollN := 0 }.tick 0) hready rfl _
  · exact ⟨hready, nofun, hb⟩
  · exact ⟨hready, nofun, .inr ⟨n, hl, hn⟩⟩
  · exact raiseBusTimeout_inv (c := s.blk.tick 0) hb l

/-- The next micro-operation of a running command, whatever command runs. -/
theorem seqStep_inv (hi : Inv s) : AnyNext Inv (seqStep s) := by
  unfold seqStep
  split
  · exact hi
  · exact waitHighStep_inv hi ‹_›
  · exact startStep_inv hi ‹_›
  · exact stopStep_inv hi ‹_›
  · exact sendByteStep_inv hi ‹_›
  · exact xferStep_inv hi ‹_›
  · exact sendStep_inv hi ‹_›
  · exact recvStep_inv hi ‹_›
  · exact recoverStep_inv hi ‹_›

end Sys2Proof.Proofs.RunningInvariant
end

section
/-! R64, R129: on a compliant bus CLOCK stays high from the poll that saw it high (X4) to the falling strobe (X6), so that strobe is never
refused. -/

namespace Sys2Proof.Proofs.CompliantBus

open Sys2Proof Sys2Proof.Machine Sys2Proof.Claims Sys2Proof.Laws Sys2Proof.Proofs.Scope Sys2Proof.Proofs.RunningInvariant
open Sys2Proof.Proofs.DataMoves (clockDrivenLow_iff pinsOutput_iff)

/-! ### One micro-operation of a listing -/

/-- The micro-operation of a listing at `b` is not refused, and where it leads to a label before a falling strobe (in the command's position
that `position` gives), it found CLOCK high and leaves it released. -/
def Proceeds {π ρ : Type} (b : Block) (position : π → Seq) : Adv π ρ → Prop
  | .goto p c => (position p).awaitsFall = true → b.sample .clock = true ∧ c.drivesClockLow = false
  | .ret _ _ => True
  | .timeout _ _ => True
  | .refuse _ => False

section

variable {π ρ π' ρ' : Type} {b c : Block}

/-- A label that awaits no falling strobe asks for nothing. -/
theorem proceeds_goto {position : π → Seq} {p : π} (h : (position p).awaitsFall = false) :
    Proceeds b position (.goto p c : Adv π ρ) := by
  intro hf
  simp [h] at hf

theorem awaitsFall_of_transfer_none {q : Seq} (h : q.transfer = none) : q.awaitsFall = false := by simp [Seq.awaitsFall, h]

/-- A listing called by another: its labels have their place in the caller's command. -/
theorem Proceeds.call {position : π' → Seq} {r : Adv π ρ} {inside : π → π'} {after : ρ → Block → Adv π' ρ'}
    (hr : Proceeds b (fun p => position (inside p)) r) (ha : ∀ v c, Proceeds b position (after v c)) :
    Proceeds b position (r.call inside after) := by
  cases r with
  | goto p c => exact hr
  | ret v c => exact ha v c
  | timeout l c => trivial
  | refuse e => exact hr

/-- A sample of 1 finds CLOCK released by the master (R63); it stays released while neither direction nor latch is written. -/
theorem drivesClockLow_of_sample (h : b.sample .clock = true) (hs : (c.dirClock, c.latchClock) = (b.dirClock, b.latchClock)) :
    c.drivesClockLow = false := by
  simp only [Prod.mk.injEq] at hs
  rw [← (Ops.sample_eq_true.mp h).1, Block.drivesLow, Block.drivesClockLow, Block.drivesClockLow, hs.1, hs.2]

/-- A poll that goes on to a falling strobe polls CLOCK. -/
theorem pollAdv_proceeds {position : π → Seq} {l : Line} {here next : π} (hh : (position here).awaitsFall = false)
    (hn : (position next).awaitsFall = true → l = .clock) : Proceeds b position (pollAdv b l here next : Adv π ρ) := by
  generalize e : (pollAdv b l here next : Adv π ρ) = r
  obtain ⟨rfl, hs⟩ | ⟨k, rfl, -⟩ | rfl := Ops.pollAdv_cases e
  · intro hf
    obtain rfl := hn hf
    exact ⟨hs, drivesClockLow_of_sample hs rfl⟩
  · exact proceeds_goto hh
  · trivial

/-- `transfer` (R151): its falling strobe (X6) is the one micro-operation that could be refused. -/
theorem xferAdv_proceeds {position : XferPos → Seq} (hp : ∀ x, (position x).transfer = some x) {w : Width} {x : XferPos}
    (hi : XferInv w x b) (hf : (position x).awaitsFall = true → b.sample .clock = true) : Proceeds b position (xferAdv x b) := by
  obtain ⟨-, hi⟩ := hi
  cases x with
  | x1 w' =>
    obtain ⟨-, hlow⟩ := hi
    rw [xferAdv, if_pos (clockDrivenLow_iff.mpr hlow)]
    exact proceeds_goto (by simp [Seq.awaitsFall, hp])
  | x2 c => exact proceeds_goto (by simp [Seq.awaitsFall, hp])
  | x3 c =>
    obtain ⟨-, ⟨-, hlatch⟩, -⟩ := hi
    rw [xferAdv, strobeAdv, Ops.strobe_rising hlatch]
    exact proceeds_goto (by simp [Seq.awaitsFall, hp])
  | x4 c => exact pollAdv_proceeds (by simp [Seq.awaitsFall, hp]) fun _ => rfl
  | x5 c =>
    have hs := hf (by simp [Seq.awaitsFall, hp])
    exact fun _ => ⟨hs, drivesClockLow_of_sample hs rfl⟩
  | x6 c =>
    obtain ⟨-, ⟨-, hlatch⟩, -⟩ := hi
    rw [xferAdv, strobeAdv, Ops.strobe_falling hlatch (hf (by simp [Seq.awaitsFall, hp]))]
    exact proceeds_goto (by simp [Seq.awaitsFall, hp])
  | x7 c =>
    rw [xferAdv]
    split
    · trivial
    · exact proceeds_goto (by simp [Seq.awaitsFall, hp])

/-- `generateStart` (R152) is refused at S1 alone. -/
theorem startAdv_proceeds {position : StartPos → Seq} (hp : ∀ p, (position p).transfer = none) {p : StartPos} (hi : StartInv p b) :
    Proceeds b position (startAdv p b) := by
  have hq : ∀ q, (position q).awaitsFall = false := fun q => awaitsFall_of_transfer_none (hp q)
  obtain ⟨-, -, -, hi⟩ := hi
  cases p with
  | s1 => exact hi.elim
  | s2 => exact pollAdv_proceeds (hq _) fun _ => rfl
  | s7 => trivial
  | _ => exact proceeds_goto (hq _)

/-- `generateStop` (R153) is refused at P1 alone, where its two tests hold. -/
theorem stopAdv_proceeds {position : StopPos → Seq} (hp : ∀ p, (position p).transfer = none) {p : StopPos} (hi : StopInv p b) :
    Proceeds b position (stopAdv p b) := by
  have hq : ∀ q, (position q).awaitsFall = false := fun q => awaitsFall_of_transfer_none (hp q)
  obtain ⟨hpins, hi⟩ := hi
  cases p with
  | p1 =>
    rw [stopAdv, if_pos (pinsOutput_iff.mpr hpins), if_neg (by simp [hi.1])]
    exact proceeds_goto (hq _)
  | p3 => exact pollAdv_proceeds (hq _) fun _ => rfl
  | p6 => exact pollAdv_proceeds (hq _) fun h => by simp [hq] at h
  | p7 => trivial
  | _ => exact proceeds_goto (hq _)

/-- `sendByte` (R154): its test at B1 holds, and both transfers proceed. -/
theorem byteAdv_proceeds {position : BytePos → Seq} (hp : ∀ p, (position p).transfer = p.transfer) {p : BytePos} (hi : ByteInv p b)
    (hf : (position p).awaitsFall = true → b.sample .clock = true) : Proceeds b position (byteAdv p b) := by
  have hreturns : ∀ {q : BytePos} {c : Block}, q.transfer = none → Proceeds b position (.goto q c : Adv BytePos Bool) :=
    fun hq => proceeds_goto (awaitsFall_of_transfer_none ((hp _).trans hq))
  cases p with
  | b1 v =>
    obtain ⟨hlow, -⟩ := hi
    rw [byteAdv, if_pos (clockDrivenLow_iff.mpr hlow)]
    exact proceeds_goto (by simp [Seq.awaitsFall, hp, BytePos.transfer])
  | b2 x => exact (xferAdv_proceeds (fun _ => hp _) hi hf).call fun _ _ => hreturns rfl
  | b3 => exact proceeds_goto (by simp [Seq.awaitsFall, hp, BytePos.transfer])
  | b4 x => exact (xferAdv_proceeds (fun _ => hp _) hi.1 hf).call fun _ _ => hreturns rfl
  | b5 r => exact hreturns rfl
  | b6 r => trivial

/-- The position of a `SEND` at a label. -/
def sendSeq (r : SendRun) : Seq := .send r.latches r.pos

/-- The position of a `RECEIVE` at a label. -/
def recvSeq (r : RecvRun) : Seq := .receive r.latches r.pos

theorem sendNext_awaitsFall (t : SendLatches) : (sendSeq (sendNext t)).awaitsFall = false := by
  rw [sendNext]
  split <;> rfl

theorem recvNext_awaitsFall (t : RecvLatches) : (recvSeq (recvNext t)).awaitsFall = false := by
  rw [recvNext]
  split <;> rfl

theorem recvAfterAddress_awaitsFall (check : Bool) (t : RecvLatches) (ack : Bool) :
    (recvSeq (recvAfterAddress check t ack)).awaitsFall = false := by
  rw [recvAfterAddress]
  split
  · rfl
  · exact recvNext_awaitsFall t

theorem sendAdv_proceeds {t : SendLatches} {p : SendPos} (hi : SendInv t p b)
    (hf : (sendSeq ⟨t, p⟩).awaitsFall = true → b.sample .clock = true) : Proceeds b sendSeq (sendAdv t p b) := by
  cases p with
  | w1 q => exact (startAdv_proceeds (fun _ => rfl) hi.1).call fun _ _ => proceeds_goto rfl
  | w2 q => exact (byteAdv_proceeds (fun _ => rfl) hi.1 hf).call fun _ _ => proceeds_goto (sendNext_awaitsFall _)
  | w4 q => exact (byteAdv_proceeds (fun _ => rfl) hi.1 hf).call fun _ _ => proceeds_goto (sendNext_awaitsFall _)
  | w6 q => exact (stopAdv_proceeds (fun _ => rfl) hi.1).call fun _ _ => trivial

theorem recvAdv_proceeds {t : RecvLatches} {p : RecvPos} (hi : RecvInv t p b)
    (hf : (recvSeq ⟨t, p⟩).awaitsFall = true → b.sample .clock = true) : Proceeds b recvSeq (recvAdv t p b) := by
  obtain ⟨-, -, hi⟩ := hi
  cases p with
  | q1 q => exact (startAdv_proceeds (fun _ => rfl) hi.1).call fun _ _ => proceeds_goto rfl
  | q2 q => exact (byteAdv_proceeds (fun _ => rfl) hi.1 hf).call fun _ _ => proceeds_goto (recvAfterAddress_awaitsFall _ _ _)
  | q3 q => exact (stopAdv_proceeds (fun _ => rfl) hi.1).call fun _ _ => trivial
  | q6 x => exact (xferAdv_proceeds (fun _ => rfl) hi.1 hf).call fun _ _ => proceeds_goto rfl
  | q9 v x => exact (xferAdv_proceeds (fun _ => rfl) hi.1 hf).call fun _ _ => proceeds_goto (recvNext_awaitsFall _)
  | q11 q => exact (stopAdv_proceeds (fun _ => rfl) hi.1).call fun _ _ => trivial
  | _ => exact proceeds_goto rfl

end

/-! ### One step of a running command -/

/-- Before a falling strobe, the micro-operation from `s` to `t` found CLOCK high and left it released. -/
def KeepsClockHigh (s t : State) : Prop := t.seq.awaitsFall = true → s.blk.sample .clock = true ∧ t.blk.drivesClockLow = false

/-- A listing that proceeds gives the command a next state. -/
theorem Proceeds.runListing {π ρ : Type} {s : State} {position : π → Seq} {r : Adv π ρ} {done : ρ → Block → State}
    (h : Proceeds s.blk position r) (hd : ∀ v c, (done v c).seq = .ready) :
    ∃ t, s.runListing r position done = .next t ∧ KeepsClockHigh s t := by
  cases r with
  | goto p c => exact ⟨_, rfl, h⟩
  | ret v c => exact ⟨_, rfl, fun hf => by simp [hd, Seq.awaitsFall, Seq.transfer] at hf⟩
  | timeout l c => exact ⟨_, rfl, nofun⟩
  | refuse e => exact h.elim

theorem recoverAdv_proceeds (p : RecoverPos) (l : Line) (b : Block) : Proceeds b (fun q => .recover q l) (recoverAdv p b) := by
  cases p with
  | r5 => trivial
  | _ => exact proceeds_goto rfl

theorem waitHighNext_keepsClockHigh (l : Line) (s : State) : KeepsClockHigh s (waitHighNext l s) := by
  rw [waitHighNext]
  split <;> exact nofun

/-- A running command goes on, where a falling strobe to come finds CLOCK high. -/
theorem seqStep_proceeds {s : State} (hi : Inv s) (hs : s.seq ≠ .ready)
    (hf : s.seq.awaitsFall = true → s.blk.sample .clock = true) : ∃ t, seqStep s = .next t ∧ KeepsClockHigh s t := by
  obtain ⟨hpos, -⟩ := hi
  obtain ⟨blk, seq, result, program, client, clientLog, inbox⟩ := s
  cases seq with
  | ready => exact absurd rfl hs
  | waitHigh l => exact ⟨_, rfl, waitHighNext_keepsClockHigh l _⟩
  | start p => exact (startAdv_proceeds (fun _ => rfl) hpos).runListing fun _ _ => rfl
  | stop p => exact (stopAdv_proceeds (fun _ => rfl) hpos.1).runListing fun _ _ => rfl
  | sendByte p => exact (byteAdv_proceeds (fun _ => rfl) hpos hf).runListing fun _ _ => rfl
  | xfer x =>
    obtain ⟨w, hx⟩ := hpos
    exact (xferAdv_proceeds (fun _ => rfl) hx hf).runListing fun _ _ => rfl
  | send t p => exact (sendAdv_proceeds hpos hf).runListing fun _ _ => rfl
  | receive t p => exact (recvAdv_proceeds hpos hf).runListing fun _ _ => rfl
  | recover p l => exact (recoverAdv_proceeds p l blk).runListing fun _ _ => rfl

/-! ### The compliant bus -/

section

variable {slaves : List (BitVec 7)} {v : BusWatch} {b c : Block}

/-- Item (b) of R64 at the samples: CLOCK, high after the last micro-operation, samples 1. -/
theorem sample_of_complies (h : SampleComplies slaves v b) (hl : b.level .clock v.last.clockLowAfter = true) :
    b.sample .clock = true := by
  obtain ⟨hkeep, -⟩ := h
  obtain ⟨henv, -⟩ := hkeep hl
  simp_all [Block.sample, Block.level, envLow]

/-- Item (b) of R64 across a micro-operation: CLOCK, sampled 1 and left released, is high after it. -/
theorem level_of_complies (h : AfterComplies slaves v b c) (hs : b.sample .clock = true) (hc : c.drivesClockLow = false) :
    c.level .clock (v.after b c).last.clockLowAfter = true := by
  obtain ⟨hkeep, -⟩ := h
  obtain ⟨henv, -⟩ := hkeep hs hc
  simp [Block.level, Block.drivesLow, BusWatch.after, hc, henv]

end

/-- Settles O53, by induction on the number of steps: a running command's step keeps the invariant (`seqStep_inv`), and with it that CLOCK is
high before a falling strobe (`seqStep_proceeds`). -/
theorem compliantBusNeverRefusesAStrobe : Obligations.CompliantBusNeverRefusesAStrobe := by
  unfold Obligations.CompliantBusNeverRefusesAStrobe
  intro slaves n
  induction n with
  | zero => exact fun _ s _ _ _ _ => ⟨s, rfl⟩
  | succ n ih =>
    intro v s hi hhigh hbus hrun
    have hs : s.seq ≠ .ready := hrun 0 s (by omega) rfl
    obtain ⟨hsample, hnext⟩ := hbus
    obtain ⟨t, ht, hclock⟩ := seqStep_proceeds hi hs fun hf => sample_of_complies hsample (hhigh hf)
    have hti := seqStep_inv hi
    have hone := seqStep_oneOp s hs
    rw [ht] at hti hone
    obtain ⟨-, htick, -, -⟩ : OneOp s t := hone
    rw [← Ops.step_running hs] at ht
    obtain ⟨-, hused⟩ := hnext t ht
    obtain ⟨hafter, hrest⟩ := hused (by rw [htick.ops]; omega)
    obtain ⟨u, hu⟩ := ih (v.after s.blk t.blk) t hti
      (fun hf => level_of_complies hafter (hclock hf).1 (hclock hf).2) hrest
      fun k w hk hw => hrun (k + 1) w (by omega) ((Runs.run_succ k ht).trans hw)
    exact ⟨u, (Runs.run_succ n ht).trans hu⟩

end Sys2Proof.Proofs.CompliantBus
end

section
/-! The facts of 30_encoding.md that its statements are assembled from: the operand bytes (R97, R103), the decoder by tier (R98 to R100),
what each tier's decoder answers, and the words of a command (R101). -/

namespace Sys2Proof.Proofs.Coding

open Sys2Proof Sys2Proof.Laws.Decode

/-! ### Operand bytes (R97, R103) -/

theorem decodeLine_eq_some {n : Byte} {l : Line} : decodeLine n = some l ↔ n = encodeLine l := by
  unfold decodeLine
  cases l <;> split_ifs <;> simp_all [encodeLine]

theorem decodeDir_eq_some {b : Byte} {d : Dir} : decodeDir b = some d ↔ b = encodeDir d := by
  unfold decodeDir
  cases d <;> split_ifs <;> simp_all [encodeDir]

theorem decodeDelay_eq_some {n : Byte} {k : DelaySel} : decodeDelay n = some k ↔ n = encodeDelay k := by
  unfold decodeDelay
  cases k <;> split_ifs <;> simp_all [encodeDelay]

@[simp] theorem decodeLine_encodeLine (l : Line) : decodeLine (encodeLine l) = some l := decodeLine_eq_some.2 rfl
@[simp] theorem decodeDir_encodeDir (d : Dir) : decodeDir (encodeDir d) = some d := decodeDir_eq_some.2 rfl
@[simp] theorem decodeDelay_encodeDelay (k : DelaySel) : decodeDelay (encodeDelay k) = some k := decodeDelay_eq_some.2 rfl

theorem encodeLine_le (l : Line) : (encodeLine l).toNat ≤ 1 := by cases l <;> decide
theorem encodeDir_le (d : Dir) : (encodeDir d).toNat ≤ 1 := by cases d <;> decide
theorem encodeDelay_lt (k : DelaySel) : (encodeDelay k).toNat < 3 := by cases k <;> decide

/-- The address fields are those whose bit 7 is clear. -/
theorem getLsbD_seven_eq_false {a : Byte} : a.getLsbD 7 = false ↔ a.toNat < 128 := by
  rw [show a.getLsbD 7 = a.msb from (BitVec.msb_eq_getLsbD_last a).symm, BitVec.msb_eq_decide, decide_eq_false_iff_not]
  omega

/-- A number below 256 is its own field. -/
theorem toNat_field {n : Nat} (h : n < 256) : (BitVec.ofNat 8 n).toNat = n :=
  (BitVec.toNat_ofNat n 8).trans (Nat.mod_eq_of_lt h)

theorem field_ne_zero {c : Nat} (h0 : 0 < c) (hc : c < 256) : BitVec.ofNat 8 c ≠ 0x00#8 := fun h => by
  have hf := toNat_field hc
  rw [h] at hf
  exact h0.ne hf

theorem addressField_bit_seven {a : Nat} (h : a < 128) : (BitVec.ofNat 8 a)[7] = false := by
  rw [← BitVec.getLsbD_eq_getElem, getLsbD_seven_eq_false, toNat_field (by omega)]
  exact h

/-! ### Well-formed operands (R99 to R101) -/

theorem wellFormed_xfer {n : Nat} {cw : Byte} :
    (Instr.xfer n cw).WellFormed ↔ (n = 8 ∧ cw = 0xF0#8) ∨ (n = 1 ∧ cw = 0xFE#8) := by
  simp [Instr.WellFormed, Instr.wellFormed]

theorem wellFormed_send {a : Nat} {bytes : List Byte} : (Instr.send a bytes).WellFormed ↔ a < 128 ∧ bytes.length < 256 := by
  simp [Instr.WellFormed, Instr.wellFormed]

theorem wellFormed_receive {a c : Nat} : (Instr.receive a c).WellFormed ↔ a < 128 ∧ 0 < c ∧ c < 256 := by
  simp [Instr.WellFormed, Instr.wellFormed]

/-! ### The decoder by tier (R98 to R100) -/

@[simp] theorem onlyIf_true (o : Option Instr) : onlyIf true o = o := rfl

theorem onlyIf_eq_some {c : Bool} {o : Option Instr} {i : Instr} : onlyIf c o = some i ↔ c = true ∧ o = some i := by
  cases c <;> simp [onlyIf]

@[simp] theorem orReserved_some (i : Instr) (ws : List Word) : orReserved (some i) ws = .ok (i, ws) := rfl

theorem orReserved_eq_ok {o : Option Instr} {ws rest : List Word} {i : Instr} :
    orReserved o ws = .ok (i, rest) ↔ o = some i ∧ ws = rest := by
  cases o <;> simp [orReserved]

theorem orReserved_ne_truncated (o : Option Instr) (ws : List Word) : orReserved o ws ≠ .error .truncatedCommand := by
  cases o <;> simp [orReserved]

section

variable (o : BitVec 4) (n a b : Byte) (ws : List Word)

theorem decode_micro : decode (packWord 1#4 o n a b :: ws) = orReserved (decodeMicro o.toNat n a b) ws := by simp [decode]

theorem decode_primitive : decode (packWord 2#4 o n a b :: ws) = orReserved (decodePrimitive o.toNat n a b) ws := by simp [decode]

theorem decode_transaction : decode (packWord 3#4 o n a b :: ws) = decodeTransaction o.toNat n a b ws := by simp [decode]

end

/-- A word is of one of the three tiers, or reserved by its tier (R104). -/
theorem word_cases (w : Word) :
    (∃ o n a b, w = packWord 1#4 o n a b) ∨ (∃ o n a b, w = packWord 2#4 o n a b) ∨ (∃ o n a b, w = packWord 3#4 o n a b) ∨
    ∀ ws, decode (w :: ws) = .error .reservedEncoding := by
  have hw := (packWord_fields w).symm
  by_cases h1 : w.tier = 1#4
  · exact .inl ⟨_, _, _, _, h1 ▸ hw⟩
  by_cases h2 : w.tier = 2#4
  · exact .inr (.inl ⟨_, _, _, _, h2 ▸ hw⟩)
  by_cases h3 : w.tier = 3#4
  · exact .inr (.inr (.inl ⟨_, _, _, _, h3 ▸ hw⟩))
  refine .inr (.inr (.inr fun ws => ?_))
  simp only [decode]
  split
  next h => exact absurd (BitVec.eq_of_toNat_eq h) h1
  next h => exact absurd (BitVec.eq_of_toNat_eq h) h2
  next h => exact absurd (BitVec.eq_of_toNat_eq h) h3
  next => rfl

/-! ### What each tier's decoder answers -/

section

variable {op : Nat} {n a b : Byte} {i : Instr} {ws rest : List Word}

/-- Tier 1: the fields are the command's own. -/
theorem decodeMicro_some (h : decodeMicro op n a b = some i) :
    i.WellFormed ∧ encode i = [packWord 1#4 (BitVec.ofNat 4 op) n a b] := by
  unfold decodeMicro at h
  split at h <;>
    simp only [onlyIf_eq_some, decodeLine_eq_some, decodeDir_eq_some, decodeDelay_eq_some, Option.bind_eq_some_iff,
      Option.map_eq_some_iff, Option.some.injEq, Bool.and_eq_true, beq_iff_eq, reduceCtorEq] at h
  case h_1 | h_2 | h_3 | h_10 | h_11 =>
    obtain ⟨⟨rfl, rfl⟩, x, rfl, rfl⟩ := h
    exact ⟨rfl, rfl⟩
  case h_4 =>
    obtain ⟨rfl, l, rfl, d, rfl, rfl⟩ := h
    exact ⟨rfl, rfl⟩
  case h_5 | h_7 =>
    obtain ⟨⟨rfl, rfl⟩, rfl⟩ := h
    exact ⟨rfl, rfl⟩
  case h_6 | h_8 | h_9 =>
    obtain ⟨⟨⟨rfl, rfl⟩, rfl⟩, rfl⟩ := h
    exact ⟨rfl, rfl⟩

/-- Tier 2. -/
theorem decodePrimitive_some (h : decodePrimitive op n a b = some i) :
    i.WellFormed ∧ encode i = [packWord 2#4 (BitVec.ofNat 4 op) n a b] := by
  unfold decodePrimitive at h
  split at h <;>
    simp only [onlyIf_eq_some, Option.some.injEq, Bool.and_eq_true, Bool.or_eq_true, beq_iff_eq, reduceCtorEq] at h
  case h_1 | h_2 =>
    obtain ⟨⟨⟨rfl, rfl⟩, rfl⟩, rfl⟩ := h
    exact ⟨rfl, rfl⟩
  case h_3 =>
    obtain ⟨⟨rfl, rfl⟩, rfl⟩ := h
    exact ⟨rfl, rfl⟩
  case h_4 =>
    obtain ⟨⟨rfl, ⟨rfl, rfl⟩ | ⟨rfl, rfl⟩⟩, rfl⟩ := h
    · exact ⟨rfl, rfl⟩
    · exact ⟨rfl, rfl⟩

/-- Tier 3: a bit in `B` or an address out of range is refused whatever follows (R104). -/
theorem decodeTransaction_fields (h : decodeTransaction op n a b ws ≠ .error .reservedEncoding) : a.toNat < 128 ∧ b = 0x00#8 := by
  unfold decodeTransaction at h
  split at h
  · exact absurd rfl h
  next hab =>
    simp only [Bool.or_eq_true, bne_iff_ne, not_or, Bool.not_eq_true, not_not] at hab
    exact hab.imp_left getLsbD_seven_eq_false.1

section

variable (ha : a.toNat < 128)
include ha

/-- `SEND`: the payload is as many extension words as `N` says. -/
theorem decodeTransaction_send :
    decodeTransaction 0 n a 0x00#8 ws = (takePayload n.toNat ws).map fun r => (.send a.toNat r.1, r.2) := by
  simp only [decodeTransaction, getLsbD_seven_eq_false.2 ha]
  cases takePayload n.toNat ws <;> rfl

theorem decodeTransaction_receive :
    decodeTransaction 1 n a 0x00#8 ws = if n = 0x00#8 then .error .reservedEncoding else .ok (.receive a.toNat n.toNat, ws) := by
  simp only [decodeTransaction, getLsbD_seven_eq_false.2 ha]
  rfl

theorem decodeTransaction_otherOp (k : Nat) : decodeTransaction (k + 2) n a 0x00#8 ws = .error .reservedEncoding := by
  simp only [decodeTransaction, getLsbD_seven_eq_false.2 ha]
  rfl

end

theorem decodeTransaction_ok (h : decodeTransaction op n a b ws = .ok (i, rest)) :
    i.WellFormed ∧ packWord 3#4 (BitVec.ofNat 4 op) n a b :: ws = encode i ++ rest := by
  obtain ⟨ha, rfl⟩ := decodeTransaction_fields (by simp [h] : decodeTransaction op n a b ws ≠ _)
  match op with
  | 0 =>
    rw [decodeTransaction_send ha] at h
    cases hp : takePayload n.toNat ws with
    | error e => simp [hp, Except.map] at h
    | ok r =>
      obtain ⟨hlen, hws⟩ := takePayload_ok hp
      simp only [hp, Except.map, Except.ok.injEq, Prod.mk.injEq] at h
      obtain ⟨rfl, rfl⟩ := h
      exact ⟨wellFormed_send.2 ⟨ha, hlen ▸ n.isLt⟩, by simp [encode, hlen, hws]⟩
  | 1 =>
    rw [decodeTransaction_receive ha] at h
    split at h
    · cases h
    next hn =>
      cases h
      have hpos : n.toNat ≠ 0 := fun h0 => hn (BitVec.eq_of_toNat_eq h0)
      exact ⟨wellFormed_receive.2 ⟨ha, by omega, n.isLt⟩, by simp [encode]⟩
  | k + 2 => simp [decodeTransaction_otherOp ha] at h

/-- Only a `SEND` can lack words (log 6). -/
theorem decodeTransaction_truncated (h : decodeTransaction op n a b ws = .error .truncatedCommand) :
    op = 0 ∧ ws.length < n.toNat ∧ a.toNat < 128 ∧ b = 0x00#8 := by
  obtain ⟨ha, rfl⟩ := decodeTransaction_fields (by simp [h] : decodeTransaction op n a b ws ≠ _)
  match op with
  | 0 =>
    rw [decodeTransaction_send ha] at h
    refine ⟨rfl, takePayload_truncated ?_, ha, rfl⟩
    cases hp : takePayload n.toNat ws <;> simp_all [Except.map]
  | 1 =>
    rw [decodeTransaction_receive ha] at h
    split at h <;> cases h
  | k + 2 => simp [decodeTransaction_otherOp ha] at h

end

/-! ### The words of a command -/

/-- R108: what decodes is a well-formed command, read from its own words. -/
theorem encode_of_decode {ws rest : List Word} {i : Instr} (h : decode ws = .ok (i, rest)) :
    i.WellFormed ∧ ws = encode i ++ rest := by
  cases ws with
  | nil => cases h
  | cons w ws =>
    obtain ⟨o, n, a, b, rfl⟩ | ⟨o, n, a, b, rfl⟩ | ⟨o, n, a, b, rfl⟩ | hres := word_cases w
    · rw [decode_micro, orReserved_eq_ok] at h
      obtain ⟨hd, rfl⟩ := h
      obtain ⟨hi, henc⟩ := decodeMicro_some hd
      exact ⟨hi, by simp [henc]⟩
    · rw [decode_primitive, orReserved_eq_ok] at h
      obtain ⟨hd, rfl⟩ := h
      obtain ⟨hi, henc⟩ := decodePrimitive_some hd
      exact ⟨hi, by simp [henc]⟩
    · rw [decode_transaction] at h
      simpa using decodeTransaction_ok h
    · rw [hres] at h
      cases h

/-- R101: the words of a well-formed command are read back, whatever follows. -/
theorem decode_encode {i : Instr} (h : i.WellFormed) (rest : List Word) : decode (encode i ++ rest) = .ok (i, rest) := by
  cases i with
  | setHigh l | setLow l | readLevel l | waitHigh l | setDir l d | delay k => simp [encode, decode_micro, decodeMicro]
  | loadDR v | loadSR v | readDR | readSR | strobe => simp [encode, decode_micro, decodeMicro]
  | start | stop | sendByte v => simp [encode, decode_primitive, decodePrimitive]
  | xfer n cw =>
    obtain ⟨rfl, rfl⟩ | ⟨rfl, rfl⟩ := wellFormed_xfer.1 h <;> simp [encode, decode_primitive, decodePrimitive]
  | send a bytes =>
    obtain ⟨ha, hn⟩ := wellFormed_send.1 h
    have hA : (BitVec.ofNat 8 a).toNat = a := toNat_field (by omega)
    have hN : (BitVec.ofNat 8 bytes.length).toNat = bytes.length := toNat_field hn
    rw [encode, List.cons_append, decode_transaction]
    refine (decodeTransaction_send (by omega)).trans ?_
    rw [hN, hA, takePayload_append]
    rfl
  | receive a c =>
    obtain ⟨ha, h0, hc⟩ := wellFormed_receive.1 h
    have hA : (BitVec.ofNat 8 a).toNat = a := toNat_field (by omega)
    have hN : (BitVec.ofNat 8 c).toNat = c := toNat_field hc
    rw [encode, List.cons_append, decode_transaction]
    refine (decodeTransaction_receive (by omega)).trans ?_
    rw [if_neg (field_ne_zero h0 hc), hN, hA]
    rfl

/-- Words that run out before the command does are the beginning of a `SEND` (log 6). -/
theorem decode_truncated {w : Word} {ws : List Word} (h : decode (w :: ws) = .error .truncatedCommand) :
    w.tier = 3#4 ∧ w.op = 0#4 ∧ ws.length < w.fieldN.toNat ∧ w.fieldA.toNat < 128 ∧ w.fieldB = 0x00#8 := by
  obtain ⟨o, n, a, b, rfl⟩ | ⟨o, n, a, b, rfl⟩ | ⟨o, n, a, b, rfl⟩ | hres := word_cases w
  · rw [decode_micro] at h
    exact absurd h (orReserved_ne_truncated _ _)
  · rw [decode_primitive] at h
    exact absurd h (orReserved_ne_truncated _ _)
  · rw [decode_transaction] at h
    obtain ⟨ho, hfields⟩ := decodeTransaction_truncated h
    obtain rfl : o = 0#4 := BitVec.eq_of_toNat_eq ho
    simpa using hfields
  · rw [hres] at h
    cases h

/-- R101: a command's length, from the first of its words. -/
theorem length_encode {i : Instr} (hi : i.WellFormed) {w : Word} {more : List Word} (h : encode i = w :: more) :
    commandLength w = more.length + 1 := by
  cases i with
  | send a bytes =>
    obtain ⟨-, hn⟩ := wellFormed_send.1 hi
    cases h
    simp only [commandLength, extensionWords, packWord_tier, packWord_op, packWord_fieldN, toNat_field hn, List.length_map]
    exact Nat.add_comm 1 _
  | _ =>
    cases h
    simp [commandLength]

theorem encode_ne_nil (i : Instr) : encode i ≠ [] := by cases i <;> simp [encode]

/-- What decodes begins with the first word of its command, and the command's words are followed by those left. -/
theorem encode_cons_of_decode {w : Word} {ws rest : List Word} {i : Instr} (h : decode (w :: ws) = .ok (i, rest)) :
    i.WellFormed ∧ ∃ more, encode i = w :: more ∧ ws = more ++ rest := by
  obtain ⟨hi, henc⟩ := encode_of_decode h
  obtain ⟨v, more, hv⟩ := List.exists_cons_of_ne_nil (encode_ne_nil i)
  rw [hv, List.cons_append] at henc
  obtain ⟨rfl, rfl⟩ := List.cons.inj henc
  exact ⟨hi, more, hv, rfl⟩

/-- R104: a first word that begins no well-formed command is reserved, whatever follows it. -/
theorem decode_reserved {w : Word} (hw : ∀ (i : Instr) (more : List Word), i.WellFormed → encode i ≠ w :: more) (ws : List Word) :
    decode (w :: ws) = .error .reservedEncoding := by
  cases h : decode (w :: ws) with
  | ok r =>
    obtain ⟨hi, more, henc, -⟩ := encode_cons_of_decode h
    exact absurd henc (hw r.1 more hi)
  | error e =>
    cases e with
    | reservedEncoding => rfl
    | truncatedCommand =>
      obtain ⟨ht, ho, -, ha, hb⟩ := decode_truncated h
      refine absurd ?_ (hw (.send w.fieldA.toNat (List.replicate w.fieldN.toNat 0x00#8))
        (extensionWords (List.replicate w.fieldN.toNat 0x00#8)) (wellFormed_send.2 ⟨ha, by simpa using w.fieldN.isLt⟩))
      have hpack := packWord_fields w
      rw [ht, ho, hb] at hpack
      simpa [encode] using hpack

end Sys2Proof.Proofs.Coding
end

section
/-! The statements of 30_encoding.md: decoding and encoding (R96 to R101, R104, R108), the result word (R102), the address byte (R91), the
assembler (R106, R107), and the step on the words of the command stream. -/

namespace Sys2Proof.Proofs.Encoding

open Sys2Proof Sys2Proof.Machine Sys2Proof.Claims Sys2Proof.Laws Sys2Proof.Laws.Decode Sys2Proof.Proofs.Coding

/-! ### Decoding and encoding -/

/-- Settles O32, by cases on the command (`decode_encode`). -/
theorem decodeOfEncodeIsTheCommand : Obligations.DecodeOfEncodeIsTheCommand := by
  unfold Obligations.DecodeOfEncodeIsTheCommand
  exact fun i rest h => decode_encode h rest

/-- Settles O33, by cases on the tier of the first word (`encode_of_decode`). -/
theorem encodeOfDecodeIsTheWords : Obligations.EncodeOfDecodeIsTheWords := by
  unfold Obligations.EncodeOfDecodeIsTheWords
  exact fun ws rest i h => encode_of_decode h

/-- Settles O34: the words taken are the command's own (`encode_of_decode`), and their first gives their number (`length_encode`). -/
theorem commandLengthFromTheFirstWord : Obligations.CommandLengthFromTheFirstWord := by
  unfold Obligations.CommandLengthFromTheFirstWord
  intro w ws rest i h
  obtain ⟨hi, more, henc, rfl⟩ := encode_cons_of_decode h
  rw [length_encode hi henc]
  exact ⟨by simp; omega, by simp⟩

/-- Settles O35: each of the decoder's three answers, by `encode_of_decode` and `decode_truncated`. -/
theorem decodingIsTotal : Obligations.DecodingIsTotal := by
  unfold Obligations.DecodingIsTotal
  intro w ws
  cases h : decode (w :: ws) with
  | ok r => exact .inl ⟨r.1, r.2, rfl, encode_of_decode h⟩
  | error e =>
    cases e with
    | reservedEncoding => exact .inr (.inl rfl)
    | truncatedCommand =>
      obtain ⟨ht, ho, hlen, -⟩ := decode_truncated h
      exact .inr (.inr ⟨rfl, ht, ho, hlen⟩)

/-- Settles O36: no well-formed command begins with a word of any of the classes, so `decode_reserved` applies. -/
theorem reservedWordsAreRefused : Obligations.ReservedWordsAreRefused := by
  unfold Obligations.ReservedWordsAreRefused
  intro w ws h
  refine decode_reserved (fun i more hi henc => ?_) ws
  cases i with
  | setHigh l | setLow l | readLevel l | waitHigh l =>
    cases henc
    have hl := encodeLine_le l
    simp at h
    omega
  | setDir l d =>
    cases henc
    have hl := encodeLine_le l
    have hd := encodeDir_le d
    simp at h
    omega
  | delay k =>
    cases henc
    have hk := encodeDelay_lt k
    simp at h
    omega
  | loadDR v | readDR | loadSR v | readSR | strobe | start | stop | sendByte v =>
    cases henc
    simp at h
  | xfer n cw =>
    cases henc
    obtain ⟨rfl, rfl⟩ | ⟨rfl, rfl⟩ := wellFormed_xfer.1 hi <;> simp at h
  | send a bytes =>
    cases henc
    obtain ⟨ha, -⟩ := wellFormed_send.1 hi
    simp [addressField_bit_seven ha] at h
  | receive a c =>
    cases henc
    obtain ⟨ha, h0, hc⟩ := wellFormed_receive.1 hi
    simp [addressField_bit_seven ha, field_ne_zero h0 hc] at h

/-- Settles O37: each list of words is concrete, so the decoder evaluates on it. -/
theorem sampleWordsDecode : Obligations.SampleWordsDecode := by
  unfold Obligations.SampleWordsDecode
  refine ⟨by decide, by decide, by decide, by decide, by decide, rfl, by decide⟩

/-! ### The result word and the address byte -/

/-- The four bytes of a word, from the highest. -/
theorem extractLsb'_append_bytes (a b c d : Byte) :
    (a ++ b ++ c ++ d).extractLsb' 24 8 = a ∧ (a ++ b ++ c ++ d).extractLsb' 16 8 = b ∧ (a ++ b ++ c ++ d).extractLsb' 8 8 = c ∧
    (a ++ b ++ c ++ d).extractLsb' 0 8 = d := by
  refine ⟨?_, ?_, ?_, BitVec.extractLsb'_append_eq_right⟩
  · rw [BitVec.extractLsb'_append_eq_of_le (by decide), BitVec.extractLsb'_append_eq_of_le (by decide)]
    exact BitVec.extractLsb'_append_eq_left
  · rw [BitVec.extractLsb'_append_eq_of_le (by decide), BitVec.extractLsb'_append_eq_of_le (by decide)]
    exact BitVec.extractLsb'_append_eq_right
  · rw [BitVec.extractLsb'_append_eq_of_le (by decide)]
    exact BitVec.extractLsb'_append_eq_right

/-- Settles O38: the four bytes of the result word are those it is put together from, each named by cases on the status or the value. -/
theorem resultWordFields : Obligations.ResultWordFields := by
  unfold Obligations.ResultWordFields
  rintro ⟨st, v⟩
  obtain ⟨hstatus, hcount, hzero, hvalue⟩ :=
    extractLsb'_append_bytes st.code (BitVec.ofNat 8 v.dataWords.length) 0#8 v.valueByte
  refine ⟨_, _, rfl, hstatus.trans ?status, hcount, hzero, hvalue.trans ?value, ?data⟩
  case status => cases st <;> rfl
  case value =>
    cases v with
    | line l => cases l <;> rfl
    | _ => rfl
  case data =>
    cases v with
    | bytes l => simp [ResultValue.dataWords]
    | _ => rfl

/-- A bit appended below a number. -/
theorem toNat_append_bit {k : Nat} (a : BitVec k) (d : BitVec 1) : (a ++ d).toNat = 2 * a.toNat + d.toNat := by
  rw [BitVec.toNat_append, ← Nat.shiftLeft_add_eq_or_of_lt d.isLt, Nat.shiftLeft_eq]
  omega

/-- Settles O39: the direction is the bit below the address (`toNat_append_bit`). -/
theorem addressByteHoldsAddressAndDirection : Obligations.AddressByteHoldsAddressAndDirection := by
  unfold Obligations.AddressByteHoldsAddressAndDirection
  exact ⟨fun a => ⟨toNat_append_bit a 0#1, toNat_append_bit a 1#1⟩, rfl, rfl⟩

/-- Settles O40: the assembler evaluates on each line of text. -/
theorem assemblerReadsTheSyntax : Obligations.AssemblerReadsTheSyntax := by
  unfold Obligations.AssemblerReadsTheSyntax
  decide

/-! ### The step on the command stream -/

/-- Settles O41: the words are the command's own, so they are read back whatever stands after them (`decode_encode`). -/
theorem stepRunsTheDecodedCommand : Obligations.StepRunsTheDecodedCommand := by
  unfold Obligations.StepRunsTheDecodedCommand
  intro s w ws i ops hr hc hd hp
  obtain ⟨hi, henc⟩ := encode_of_decode hd
  have hfetch : fetch s.program = .ok (i, ops) := by
    rw [hp]
    apply HostSide.fetch_words
    rw [henc, List.append_nil]
    exact decode_encode hi _
  rw [HostSide.step_word hr hc hp, issueFetched, hfetch]

/-- Settles O42: the host's coming words begin with the reserved one, and the fetch hands on the decoder's refusal. -/
theorem stepRefusesReservedWords : Obligations.StepRefusesReservedWords := by
  unfold Obligations.StepRefusesReservedWords
  intro s w ops hr hc hp hd
  have hfetch : fetch s.program = .error .reservedEncoding := by
    rw [hp, fetch, leadingWords, hd]
  rw [HostSide.step_word hr hc hp, issueFetched, hfetch]

/-- Settles O56: the host's move outside a call, and its look at `RESULT` while it polls, on either bit. -/
theorem pollRepeatsReadLevel : Obligations.PollRepeatsReadLevel := by
  unfold Obligations.PollRepeatsReadLevel
  intro l s ops hr
  refine ⟨fun hc hp => ?_, fun st hc h => ?_, fun st hc h => ?_⟩
  · rw [Ops.step_ready hr, hostStep, hc]
    simp [nextMove, hp]
  · simp [Ops.step_ready hr, hostStep, hc, RestStates.withResult_some h]
  · simp [Ops.step_ready hr, hostStep, hc, RestStates.withResult_some h]

end Sys2Proof.Proofs.Encoding
end

section
/-! R131 over time: how long a poll that samples 0 goes on (60_exceptions.md R212), and the whole run of the command `WAITHIGH`. -/

namespace Sys2Proof.Proofs.PollRuns

open Sys2Proof Sys2Proof.Machine Sys2Proof.Claims Sys2Proof.Laws Sys2Proof.Laws.Runs

variable {b : Block} {s t : State} {l : Line} {n : Nat}

/-! ### Micro-operations that write no register but `poll_n` -/

theorem passed_zero (b : Block) : passed b 0 [] 0 = b := by simp [passed]

/-- One more micro-operation after `n` that have passed. -/
theorem passed_tick (b : Block) (n k : Nat) (h : List Levels) (m : Nat) :
    ∃ e m', (passed b n h m).tick k = passed b (n + 1) (h ++ [e]) m' :=
  ⟨_, _, by rw [tick_eq, passed_passed]⟩

theorem elapsed_passed {h : List Levels} (hh : h.length = n) (k m : Nat) : Elapsed n 0 b (passed { b with pollN := k } n h m) :=
  ⟨rfl, rfl, rfl, Nat.le_add_right _ _, h, hh, rfl⟩

/-- What a sample reads after `n` micro-operations that wrote no register: the master's drive as it was, the `n`-th answer ahead. -/
theorem sample_passed (b : Block) (n : Nat) (h : List Levels) (m : Nat) (l : Line) :
    (passed b n h m).sample l = b.level l (envLow (b.answerAt n) l) := by
  rw [Block.sample, passed_answer]
  cases l <;> rfl

/-! ### A line that stays low -/

/-- A step at a poll that samples 0 under the infinite limit writes no register (R131, R212). -/
theorem step_low_unbounded (ha : s.seq.awaited = some l) (hl : s.blk.cfg.pollLimit = none) (h : s.blk.sample l = false) :
    step s = .next { s with blk := s.blk.tick 0 } := by
  rw [Polls.step_low ha h, Polls.atLow, Ops.poll_again_unbounded h hl]

/-- At any poll under the infinite limit, as long as the line is low at every sample, the position stays and no register changes. -/
theorem runs_low (ha : s.seq.awaited = some l) (hl : s.blk.cfg.pollLimit = none)
    (hlow : ∀ k, k < n → s.blk.level l (envLow (s.blk.answerAt k) l) = false) :
    ∃ h m, h.length = n ∧ runs n s = .next { s with blk := passed s.blk n h m } := by
  induction n with
  | zero => exact ⟨[], 0, rfl, by rw [passed_zero]; rfl⟩
  | succ n ih =>
    obtain ⟨h, m, hh, hrun⟩ := ih fun k hk => hlow k (by omega)
    have hsample : (passed s.blk n h m).sample l = false := by rw [sample_passed]; exact hlow n (by omega)
    obtain ⟨e, m', hpassed⟩ := passed_tick s.blk n 0 h m
    refine ⟨h ++ [e], m', by simp [hh], ?_⟩
    rw [runs, run_add 1 hrun, ← hpassed]
    exact run_succ 0 (step_low_unbounded (s := { s with blk := passed s.blk n h m }) ha hl hsample)

/-- A line is low at a sample when the master or the environment holds it. -/
theorem level_eq_false {e : Bool} : b.level l e = false ↔ b.drivesLow l = true ∨ e = true := by
  rw [Block.level, Bool.not_eq_false', Bool.or_eq_true]

/-! ### The command `WAITHIGH` -/

theorem waitHighNext_high (h : s.blk.sample l = true) :
    waitHighNext l s = s.complete ({ s.blk with pollN := 0 }.tick 0) .empty := by
  rw [waitHighNext, Ops.poll_high h]

theorem waitHighNext_again_unbounded (h : s.blk.sample l = false) (hl : s.blk.cfg.pollLimit = none) :
    waitHighNext l s = s.goto (s.blk.tick 0) (.waitHigh l) := by
  rw [waitHighNext, Ops.poll_again_unbounded h hl]

theorem waitHighNext_again_bounded (h : s.blk.sample l = false) (hl : s.blk.cfg.pollLimit = some n) (hn : s.blk.pollN + 1 < n) :
    waitHighNext l s = s.goto ({ s.blk with pollN := s.blk.pollN + 1 }.tick 0) (.waitHigh l) := by
  rw [waitHighNext, Ops.poll_again_bounded h hl hn]

theorem waitHighNext_timeout (h : s.blk.sample l = false) (hl : s.blk.cfg.pollLimit = some n) (hn : n ≤ s.blk.pollN + 1) :
    waitHighNext l s = s.raiseBusTimeout (s.blk.tick 0) l := by
  rw [waitHighNext, Ops.poll_timeout h hl hn]

theorem exec_waitHigh (hs : s.seq = .ready) : exec (.waitHigh l) s = .next (waitHighNext l s) := Ops.issue_ready hs _

/-- The state with the sequencer at the poll of a `WAITHIGH`. -/
def atWaitHigh (l : Line) (s : State) : State := { s with seq := .waitHigh l }

/-- The first poll of a `WAITHIGH` is a poll like its later ones (R131). -/
theorem step_atWaitHigh (l : Line) (s : State) : step (atWaitHigh l s) = .next (waitHighNext l s) := by
  have hstep : step (atWaitHigh l s) = .next (waitHighNext l (atWaitHigh l s)) := Ops.step_running (by simp [atWaitHigh])
  have hblk : (atWaitHigh l s).blk = s.blk := rfl
  rw [hstep, waitHighNext, waitHighNext, hblk]
  cases s.blk.poll l <;> rfl

/-- So a command `WAITHIGH` and its next `n` steps are `n + 1` steps at its poll. -/
theorem exec_waitHigh_runs (hs : s.seq = .ready) (h : runs (n + 1) (atWaitHigh l s) = .next t) :
    ∃ s1, exec (.waitHigh l) s = .next s1 ∧ runs n s1 = .next t :=
  ⟨_, exec_waitHigh hs, by rw [← h, runs, runs, run_succ n (step_atWaitHigh l s)]⟩

/-- Settles O13: the polls of a line that is low at every sample (`runs_low`), the first of them made as the command is issued. -/
theorem waitHighHangsOnALineHeldLow : Obligations.WaitHighHangsOnALineHeldLow := by
  unfold Obligations.WaitHighHangsOnALineHeldLow
  intro l s n hs hl hlow
  obtain ⟨h, m, hh, hrun⟩ := runs_low (s := atWaitHigh l s) (n := n + 1) rfl hl
    fun k hk => level_eq_false.2 (hlow k (by omega))
  obtain ⟨s1, hexec, hruns⟩ := exec_waitHigh_runs hs hrun
  exact ⟨s1, _, hexec, hruns, rfl, rfl, ⟨rfl, rfl, rfl, rfl⟩, ⟨rfl, rfl, rfl, rfl⟩, ⟨rfl, rfl, rfl⟩, ⟨rfl, rfl, rfl⟩, rfl,
    elapsed_passed hh s.blk.pollN m⟩

/-- Settles O12: the line is low at the first `n` samples (`runs_low`), and the sample after them completes the command. -/
theorem waitHighOutwaitsAnyFiniteStretch : Obligations.WaitHighOutwaitsAnyFiniteStretch := by
  unfold Obligations.WaitHighOutwaitsAnyFiniteStretch
  intro l s n hs hl hdrive hlow hhigh
  obtain ⟨h, m, hh, hrun⟩ := runs_low (s := atWaitHigh l s) (n := n) rfl hl fun k hk => level_eq_false.2 (.inr (hlow k hk))
  have hsample : (passed s.blk n h m).sample l = true := by simp [sample_passed, Block.level, hdrive, hhigh]
  obtain ⟨e, m', hpassed⟩ := passed_tick { s.blk with pollN := 0 } n 0 h m
  have hlast : runs (n + 1) (atWaitHigh l s) = .next (s.complete (passed { s.blk with pollN := 0 } (n + 1) (h ++ [e]) m') .empty) := by
    rw [runs, run_add 1 hrun, ← hpassed]
    exact run_succ 0 ((step_atWaitHigh l { s with blk := passed s.blk n h m }).trans (congrArg _ (waitHighNext_high hsample)))
  obtain ⟨s1, hexec, hruns⟩ := exec_waitHigh_runs hs hlast
  exact ⟨s1, _, hexec, hruns, ⟨rfl, rfl, rfl, rfl, rfl, rfl⟩, ⟨rfl, rfl, rfl, rfl⟩, ⟨rfl, rfl, rfl⟩, rfl, rfl, rfl, rfl,
    elapsed_passed (by simp [hh]) 0 m'⟩

end Sys2Proof.Proofs.PollRuns
end

section
/-! What one micro-operation does to the registers and the wires (40_micro_ops.md R121 to R131): the latches and directions by line, the
master's drive (R62), the conditions of R77, and the register computations (R25, R26). -/

namespace Sys2Proof.Proofs.MicroOps

open Sys2Proof Sys2Proof.Machine Sys2Proof.Claims Sys2Proof.Laws

variable {s : State} {b c : Block} {l m : Line}

/-! ### Latches and directions by line -/

theorem latch_withLatch (b : Block) (l : Line) (v : Bool) : (b.withLatch l v).latch l = v := by cases l <;> rfl

theorem latch_withLatch_of_ne (b : Block) (v : Bool) (h : m ≠ l) : (b.withLatch l v).latch m = b.latch m :=
  match l, m, h with
  | .clock, .data, _ => rfl
  | .data, .clock, _ => rfl
  | .clock, .clock, h => absurd rfl h
  | .data, .data, h => absurd rfl h

theorem dir_withLatch (b : Block) (l : Line) (v : Bool) (m : Line) : (b.withLatch l v).dir m = b.dir m := by
  cases l <;> cases m <;> rfl

theorem dir_withDir (b : Block) (l : Line) (d : Dir) : (b.withDir l d).dir l = d := by cases l <;> rfl

theorem dir_withDir_of_ne (b : Block) (d : Dir) (h : m ≠ l) : (b.withDir l d).dir m = b.dir m :=
  match l, m, h with
  | .clock, .data, _ => rfl
  | .data, .clock, _ => rfl
  | .clock, .clock, h => absurd rfl h
  | .data, .data, h => absurd rfl h

theorem latch_withDir (b : Block) (l : Line) (d : Dir) (m : Line) : (b.withDir l d).latch m = b.latch m := by
  cases l <;> cases m <;> rfl

theorem sameShift_withLatch (b : Block) (l : Line) (v : Bool) : SameShift b (b.withLatch l v) := ⟨by simp, by simp, by simp⟩

theorem samePhase_withLatch (b : Block) (l : Line) (v : Bool) : SamePhase b (b.withLatch l v) := ⟨by simp, by simp, by simp⟩

theorem sameShift_withDir (b : Block) (l : Line) (d : Dir) : SameShift b (b.withDir l d) := ⟨by simp, by simp, by simp⟩

theorem samePhase_withDir (b : Block) (l : Line) (d : Dir) : SamePhase b (b.withDir l d) := ⟨by simp, by simp, by simp⟩

/-! ### The words with a byte operand (R98) -/

theorem toNat_append_byte {k : Nat} (a : BitVec k) (v : Byte) : (a ++ v).toNat = 2 ^ 8 * a.toNat + v.toNat := by
  rw [BitVec.toNat_append, ← Nat.shiftLeft_add_eq_or_of_lt v.isLt, Nat.shiftLeft_eq, Nat.mul_comm]

/-- The last field of a word is its lowest byte (R96). -/
theorem packWord_add (t o : BitVec 4) (n a v : Byte) : packWord t o n a v = packWord t o n a 0#8 + v.setWidth 32 := by
  rw [packWord, packWord]
  generalize t ++ o ++ n ++ a = w
  apply BitVec.eq_of_toNat_eq
  have hsum : (w ++ v).toNat = (w ++ 0#8).toNat + v.toNat := by rw [toNat_append_byte, toNat_append_byte]; rfl
  have hlt : (w ++ v).toNat < 2 ^ 32 := (w ++ v).isLt
  rw [BitVec.toNat_add, BitVec.toNat_setWidth, Nat.add_mod_mod, ← hsum, Nat.mod_eq_of_lt hlt]

theorem encode_loadDR (v : Byte) : encode (.loadDR v) = [0x14000000#32 + v.setWidth 32] := by rw [encode, packWord_add]; rfl

theorem encode_loadSR (cw : Byte) : encode (.loadSR cw) = [0x16000000#32 + cw.setWidth 32] := by rw [encode, packWord_add]; rfl

/-! ### The end of a micro-operation and of its command -/

/-- Registers may be written before the tick that ends a micro-operation; the line history then shows the new levels. -/
theorem oneMicroOp_tick (k : Nat) (h : (c.cfg, c.primHist, c.lineHist, c.env, c.ops) = (b.cfg, b.primHist, b.lineHist, b.env, b.ops)) :
    OneMicroOp b (c.tick k) := by
  simp only [Prod.mk.injEq] at h
  obtain ⟨hcfg, hprim, hline, henv, hops⟩ := h
  have hanswer : c.answer = b.answer := by rw [Block.answer, Block.answer, henv, hops]
  refine ⟨hcfg, hprim, ?_⟩
  rw [StateFields.tick_lineHist, hline, ← hanswer]
  rfl

theorem completed_complete (s : State) (c : Block) (v : ResultValue) : Completed s (s.complete c v) v := ⟨rfl, rfl, rfl, rfl, rfl, rfl⟩

/-! ### The wires -/

/-- The master's drive of a line (R62): its direction, its latch, and for DATA also `DR[7]`. -/
theorem drivesLow_iff : b.drivesLow l = true ↔ b.dir l = .output ∧ (b.latch l = false ∨ l = .data ∧ b.dr.getLsbD 7 = false) := by
  cases l <;> simp [Block.drivesLow, Block.drivesClockLow, Block.drivesDataLow, Block.dir, Block.latch]

theorem drivesLow_of_input (h : b.dir l = .input) : b.drivesLow l = false := by
  rw [← Bool.not_eq_true, drivesLow_iff]
  simp [h]

theorem drivesLow_clock_of_released (h : b.latch .clock = true) : b.drivesLow .clock = false := by
  rw [← Bool.not_eq_true, drivesLow_iff]
  simp [h]

/-- DATA driven low by a micro-operation that leaves CLOCK alone makes a START condition where both lines are high before it (R77). -/
theorem makesStart (hc : c.drivesLow .clock = b.drivesLow .clock) (hd : c.drivesLow .data = true) : MakesStart b c := by
  intro e hclock hdata
  have hclock' : c.level .clock e = true := by rw [← hclock, Block.level, Block.level, hc]
  have hdata' : c.level .data false = false := by simp [Block.level, hd]
  rw [hclock, hdata, hclock', hdata']
  rfl

/-- DATA released by a micro-operation that leaves CLOCK alone makes a STOP condition where CLOCK is high before it and DATA low (R77). -/
theorem makesStop (hc : c.drivesLow .clock = b.drivesLow .clock) (hd : c.drivesLow .data = false) : MakesStop b c := by
  intro e hclock hdata
  have hclock' : c.level .clock e = true := by rw [← hclock, Block.level, Block.level, hc]
  have hdata' : c.level .data false = true := by simp [Block.level, hd]
  rw [hclock, hdata, hclock', hdata']
  rfl

/-- A sample of 1 in the terms of the answers ahead (R63). -/
theorem sample_iff : b.sample l = true ↔ b.drivesLow l = false ∧ envLow (b.answerAt 0) l = false := by
  rw [Ops.sample_eq_true, Ops.answer_eq]

/-! ### The status register and the shift -/

theorem toNat_loadCnt (cw : Byte) : (loadCnt cw).toNat = cw.toNat % 16 := by simp [loadCnt]

theorem toNat_srByte (cnt : BitVec 4) (done : Bool) : (srByte cnt done).toNat = (if done then 64 else 0) + cnt.toNat := by
  revert cnt
  cases done <;> decide

theorem toNat_countUp (cnt : BitVec 4) : (countUp cnt).toNat = (cnt.toNat + 1) % 16 := BitVec.toNat_add cnt 1#4

/-- The count wraps from 15 (R26). -/
theorem countUp_eq_zero {cnt : BitVec 4} : countUp cnt = 0#4 ↔ cnt = 15#4 := by
  rw [countUp]
  bv_omega

theorem doneAfter_countUp {cnt : BitVec 4} {done : Bool} : doneAfter (countUp cnt) done = true ↔ done = true ∨ cnt = 15#4 := by
  by_cases h : cnt = 15#4 <;> simp [doneAfter, countUp_eq_zero, h]

/-- The shift doubles `DR`, drops bit 7 and takes the sample in at bit 0 (R79). -/
theorem toNat_shiftIn (dr : Byte) (v : Bool) : (shiftIn dr v).toNat = 2 * dr.toNat % 256 + v.toNat := by
  rw [shiftIn, Encoding.toNat_append_bit, BitVec.extractLsb'_toNat, BitVec.toNat_ofBool]
  omega

/-! ### STROBE -/

/-- What both strobes do (R129): one edge counted, the CLOCK latch toggled. -/
structure OneEdge (b c : Block) : Prop where
  latchClock : c.latchClock = !b.latchClock
  cnt : c.cnt = countUp b.cnt
  done : c.done = doneAfter (countUp b.cnt) b.done
  rest : (c.dirClock, c.dirData, c.latchData) = (b.dirClock, b.dirData, b.latchData)
  phase : SamePhase b c
  oneMicroOp : OneMicroOp b c

theorem risingStrobe_oneEdge (h : b.latchClock = false) : OneEdge b b.risingStrobe :=
  ⟨by simp [h], rfl, rfl, rfl, ⟨rfl, rfl, rfl⟩, oneMicroOp_tick 0 rfl⟩

theorem fallingStrobe_oneEdge (h : b.latchClock = true) : OneEdge b b.fallingStrobe :=
  ⟨by simp [h], rfl, rfl, rfl, ⟨rfl, rfl, rfl⟩, oneMicroOp_tick 0 rfl⟩

theorem strobe_oneEdge (h : b.strobe = some c) : OneEdge b c := by
  obtain ⟨hl, rfl⟩ | ⟨hl, -, rfl⟩ := Ops.strobe_cases h
  · exact risingStrobe_oneEdge hl
  · exact fallingStrobe_oneEdge hl

/-- The data register after a strobe: kept by a rising one, shifted by a falling one (R129). -/
theorem strobe_dr (h : b.strobe = some c) :
    (b.latchClock = false → c.dr = b.dr) ∧ (b.latchClock = true → c.dr = shiftIn b.dr (b.sample .data)) := by
  obtain ⟨hl, rfl⟩ | ⟨hl, -, rfl⟩ := Ops.strobe_cases h <;> simp [hl]

/-- A strobe is refused exactly when it is a falling one that finds the CLOCK line low (R129). -/
theorem strobe_isSome (h : b.latchClock = false ∨ b.sample .clock = true) : ∃ c, b.strobe = some c := by
  by_cases hl : b.latchClock = true
  · exact ⟨_, Ops.strobe_falling hl (h.resolve_left (by simp [hl]))⟩
  · exact ⟨_, Ops.strobe_rising (by simpa using hl)⟩

theorem exec_strobe_some (hs : s.seq = .ready) (h : s.blk.strobe = some c) : exec .strobe s = .next (s.complete c .empty) := by
  rw [exec, execStrobe, Ops.issue_ready hs, h]

theorem exec_strobe_none (hs : s.seq = .ready) (h : s.blk.strobe = none) :
    exec .strobe s = .refused .fallingStrobeWhileClockLow := by
  rw [exec, execStrobe, Ops.issue_ready hs, h]

/-- The sampled level of DATA as a number. -/
theorem toNat_sample_data : (b.sample .data).toNat = if b.drivesLow .data = true ∨ (b.answerAt 0).dataLow = true then 0 else 1 := by
  rw [Block.sample, Ops.answer_eq, Block.level]
  cases b.drivesLow .data <;> cases h : (b.answerAt 0).dataLow <;> simp [envLow, h]

/-! ### WAITHIGH -/

/-- While its line is low a `WAITHIGH` leaves `RESULT` alone, whichever way the poll goes (R131, R31). -/
theorem waitHighNext_low_result (h : s.blk.sample l = false) : (waitHighNext l s).result = s.result := by
  rw [waitHighNext]
  obtain ⟨hs, -⟩ | ⟨-, -, e⟩ | ⟨_, -, -, -, e⟩ | ⟨_, -, -, -, e⟩ := Ops.poll_cases s.blk l
  · cases h.symm.trans hs
  all_goals rw [e]; rfl

end Sys2Proof.Proofs.MicroOps
end

section
/-! The statements of 40_micro_ops.md about the micro-operations as commands (R121 to R131). -/

namespace Sys2Proof.Proofs.MicroOps

open Sys2Proof Sys2Proof.Machine Sys2Proof.Claims Sys2Proof.Laws Sys2Proof.Proofs.PollRuns

/-- Settles O1: R62 (`drivesLow_iff`) gives the drive of the line once its latch is 1; a released DATA makes a STOP (`makesStop`). -/
theorem setHighReleasesTheLatch : Obligations.SetHighReleasesTheLatch := by
  unfold Obligations.SetHighReleasesTheLatch
  intro l s hs
  have hlatch : (s.blk.setHigh l).latch l = true := latch_withLatch s.blk l true
  have hdir : ∀ m, (s.blk.setHigh l).dir m = s.blk.dir m := dir_withLatch s.blk l true
  have hdata : l = .data → ((s.blk.setHigh l).drivesLow .data = true ↔ s.blk.dirData = .output ∧ s.blk.dr.getLsbD 7 = false) := by
    rintro rfl
    simp [drivesLow_iff, hlatch, Block.dir]
  refine ⟨by cases l <;> rfl, _, Ops.issue_ready hs _, completed_complete _ _ _, oneMicroOp_tick 0 (by simp), hlatch,
    fun m hm => latch_withLatch_of_ne _ _ hm, hdir, sameShift_withLatch _ _ _, samePhase_withLatch _ _ _, ?clock, hdata, ?input, ?stop⟩
  case clock =>
    rintro rfl
    exact drivesLow_clock_of_released hlatch
  case input => exact fun h => (drivesLow_of_input ((hdir l).trans h)).trans (drivesLow_of_input h).symm
  case stop =>
    rintro rfl h7
    exact makesStop rfl (Bool.eq_false_iff.2 fun h => absurd (h7.symm.trans ((hdata rfl).1 h).2) (by decide))

/-- Settles O2: R62 (`drivesLow_iff`) gives the drive of the line once its latch is 0; a driven DATA makes a START (`makesStart`). -/
theorem setLowDrivesTheLatch : Obligations.SetLowDrivesTheLatch := by
  unfold Obligations.SetLowDrivesTheLatch
  intro l s hs
  have hlatch : (s.blk.setLow l).latch l = false := latch_withLatch s.blk l false
  have hdir : ∀ m, (s.blk.setLow l).dir m = s.blk.dir m := dir_withLatch s.blk l false
  have houtput : s.blk.dir l = .output → (s.blk.setLow l).drivesLow l = true :=
    fun h => drivesLow_iff.2 ⟨(hdir l).trans h, .inl hlatch⟩
  refine ⟨by cases l <;> rfl, _, Ops.issue_ready hs _, completed_complete _ _ _, oneMicroOp_tick 0 (by simp), hlatch,
    fun m hm => latch_withLatch_of_ne _ _ hm, hdir, sameShift_withLatch _ _ _, samePhase_withLatch _ _ _, houtput,
    fun h => drivesLow_of_input ((hdir l).trans h), ?start⟩
  case start =>
    rintro rfl h
    exact makesStart rfl (houtput h)

/-- Settles O3: the value is the one sample (`sample_iff`). -/
theorem readLevelReturnsThePhysicalLevel : Obligations.ReadLevelReturnsThePhysicalLevel := by
  unfold Obligations.ReadLevelReturnsThePhysicalLevel
  intro l s hs
  exact ⟨by cases l <;> rfl, _, _, Ops.issue_ready hs _, completed_complete _ _ _, oneMicroOp_tick 0 rfl, ⟨rfl, rfl, rfl, rfl⟩,
    ⟨rfl, rfl, rfl⟩, ⟨rfl, rfl, rfl⟩, sample_iff⟩

/-- Settles O4: R62 (`drivesLow_iff`) gives the drive under the new direction; a driven DATA makes a START (`makesStart`). -/
theorem setDirWritesTheDirection : Obligations.SetDirWritesTheDirection := by
  unfold Obligations.SetDirWritesTheDirection
  intro l d s hs
  have hdir : (s.blk.setDir l d).dir l = d := dir_withDir s.blk l d
  have hlatch : ∀ m, (s.blk.setDir l d).latch m = s.blk.latch m := latch_withDir s.blk l d
  have houtput : d = .output →
      ((s.blk.setDir l d).drivesLow l = true ↔ s.blk.latch l = false ∨ l = .data ∧ s.blk.dr.getLsbD 7 = false) := by
    rintro rfl
    simp [drivesLow_iff, hdir, hlatch]
  refine ⟨by cases l <;> cases d <;> rfl, _, Ops.issue_ready hs _, completed_complete _ _ _, oneMicroOp_tick 0 (by simp), hdir,
    fun m hm => dir_withDir_of_ne _ _ hm, hlatch, sameShift_withDir _ _ _, samePhase_withDir _ _ _,
    fun h => drivesLow_of_input (hdir.trans h), houtput, ?start⟩
  case start =>
    rintro rfl h hzero
    exact makesStart rfl ((houtput h).2 (hzero.imp_right fun h7 => ⟨rfl, h7⟩))

/-- Settles O5: R62 (`drivesLow_iff`) with the new `DR[7]`; a driven DATA makes a START (`makesStart`). -/
theorem loadDRWritesTheDataRegister : Obligations.LoadDRWritesTheDataRegister := by
  unfold Obligations.LoadDRWritesTheDataRegister
  intro v s hs
  have hdir : (s.blk.loadDR v).dir .data = s.blk.dirData := rfl
  have hlatch : (s.blk.loadDR v).latch .data = s.blk.latchData := rfl
  refine ⟨encode_loadDR v, _, Ops.issue_ready hs _, completed_complete _ _ _, oneMicroOp_tick 0 rfl, rfl, rfl, rfl, ⟨rfl, rfl, rfl, rfl⟩,
    ⟨rfl, rfl, rfl⟩, ?output, ?input, ?start⟩
  case output =>
    intro ho hl
    simp [drivesLow_iff, hdir, hlatch, ho, hl]
  case input => exact fun h => (drivesLow_of_input (hdir.trans h)).trans (drivesLow_of_input (b := s.blk) (l := .data) h).symm
  case start => exact fun ho h7 => makesStart rfl (drivesLow_iff.2 ⟨ho, .inr ⟨rfl, h7⟩⟩)

/-- Settles O6: only the tick that ends every micro-operation touches the block. -/
theorem readDRReturnsTheDataRegister : Obligations.ReadDRReturnsTheDataRegister := by
  unfold Obligations.ReadDRReturnsTheDataRegister
  intro s hs
  exact ⟨rfl, _, Ops.issue_ready hs _, completed_complete _ _ _, oneMicroOp_tick 0 rfl, ⟨rfl, rfl, rfl, rfl⟩, ⟨rfl, rfl, rfl⟩,
    ⟨rfl, rfl, rfl⟩⟩

/-- Settles O7: `CNT` is the low nibble (`toNat_loadCnt`), and `DONE` follows bit 6. -/
theorem loadSRPreloadsTheCount : Obligations.LoadSRPreloadsTheCount := by
  unfold Obligations.LoadSRPreloadsTheCount
  intro cw s hs
  exact ⟨encode_loadSR cw, _, Ops.issue_ready hs _, completed_complete _ _ _, oneMicroOp_tick 0 rfl, toNat_loadCnt cw,
    fun h => if_pos h, fun h => if_neg (Bool.eq_false_iff.1 h), rfl, ⟨rfl, rfl, rfl, rfl⟩, ⟨rfl, rfl, rfl⟩⟩

/-- Settles O8: the layout of the status register (`toNat_srByte`). -/
theorem readSRReturnsTheStatusRegister : Obligations.ReadSRReturnsTheStatusRegister := by
  unfold Obligations.ReadSRReturnsTheStatusRegister
  intro s hs
  exact ⟨rfl, _, _, Ops.issue_ready hs _, completed_complete _ _ _, oneMicroOp_tick 0 rfl, ⟨rfl, rfl, rfl, rfl⟩, ⟨rfl, rfl, rfl⟩,
    ⟨rfl, rfl, rfl⟩, toNat_srByte _ _⟩

/-- Settles O10: the clock moves by the constant and a free amount. -/
theorem delayOnlyPassesTime : Obligations.DelayOnlyPassesTime := by
  unfold Obligations.DelayOnlyPassesTime
  intro k s hs
  refine ⟨by cases k <;> rfl, _, Ops.issue_ready hs _, completed_complete _ _ _, oneMicroOp_tick _ rfl, ⟨rfl, rfl, rfl, rfl⟩,
    ⟨rfl, rfl, rfl⟩, ⟨rfl, rfl, rfl⟩, ?time⟩
  case time => cases k <;> exact Nat.le_add_right _ _

/-- Settles O9: a strobe is refused or counts one edge (`strobe_oneEdge`), and a falling one shifts (`strobe_dr`). -/
theorem strobeAdvancesOneEdge : Obligations.StrobeAdvancesOneEdge := by
  unfold Obligations.StrobeAdvancesOneEdge
  intro s hs
  refine ⟨fun hl hlow => ?refused, fun h => ?completes⟩
  case refused =>
    refine exec_strobe_none hs (Ops.strobe_refused hl ?_)
    rw [Block.sample, Ops.answer_eq]
    exact level_eq_false.2 hlow
  case completes =>
    obtain ⟨c, hc⟩ := strobe_isSome (h.imp_right sample_iff.2)
    obtain ⟨hlatch, hcnt, hdone, hrest, hphase, hop⟩ := strobe_oneEdge hc
    simp only [Prod.mk.injEq] at hrest
    obtain ⟨hdirClock, hdirData, hlatchData⟩ := hrest
    obtain ⟨hrising, hfalling⟩ := strobe_dr hc
    refine ⟨_, exec_strobe_some hs hc, completed_complete _ _ _, hop, hphase, hdirClock, hdirData, hlatchData, hlatch,
      ?cnt, ?done, hrising, fun hl => ?dr⟩
    case cnt => exact hcnt ▸ toNat_countUp _
    case done => exact hdone ▸ doneAfter_countUp
    case dr =>
      rw [← toNat_sample_data, ← toNat_shiftIn]
      exact congrArg BitVec.toNat (hfalling hl)

/-! ### WAITHIGH -/

/-- Settles O11: the four cases of the poll (`waitHighNext_high` and those after it); whichever it takes, only `poll_n` is written. -/
theorem waitHighPollsOncePerStep : Obligations.WaitHighPollsOncePerStep := by
  unfold Obligations.WaitHighPollsOncePerStep
  intro l s hs
  obtain ⟨k, hk⟩ := Environment.waitHighNext_blk s l
  have hhost : SameHost s (waitHighNext l s) := Scope.OneOp.host (Scope.waitHighStep_oneOp s l)
  refine ⟨_, exec_waitHigh hs, hk ▸ oneMicroOp_tick 0 rfl, hhost, hk ▸ ⟨rfl, rfl, rfl, rfl⟩, hk ▸ ⟨rfl, rfl, rfl⟩, hk ▸ rfl, hk ▸ rfl,
    fun h => ?high, fun h => ?low⟩
  case high =>
    rw [waitHighNext_high (sample_iff.2 h)]
    exact ⟨completed_complete _ _ _, rfl⟩
  case low =>
    have hlow : s.blk.sample l = false := Bool.eq_false_iff.2 (mt sample_iff.1 h)
    refine ⟨?_, fun hl => ?_, fun n hl hn => ?_, fun n hl hn => ?_⟩
    · exact waitHighNext_low_result hlow
    · rw [waitHighNext_again_unbounded hlow hl]
      exact ⟨rfl, rfl⟩
    · rw [waitHighNext_again_bounded hlow hl hn]
      exact ⟨rfl, rfl⟩
    · rw [waitHighNext_timeout hlow hl hn]
      rfl

end Sys2Proof.Proofs.MicroOps
end

section
/-! Acceptance of the commands of tiers 2 and 3 (41_primitives.md R151 to R155, 42_transactions.md R170): the tests in their order, then the
first micro-operation. -/

namespace Sys2Proof.Proofs.Acceptance

open Sys2Proof Sys2Proof.Machine Sys2Proof.Claims Sys2Proof.Laws
open Sys2Proof.Proofs.DataMoves (clockDrivenLow_iff pinsOutput_iff)

/-! ### The first micro-operation of each listing -/

/-- S1 with the lines before it (R152). -/
def afterS1 (b : Block) : Block := { b with bus := .start }.setHigh .clock

/-- P1 with the lines before it (R153). -/
def afterP1 (b : Block) : Block := { b with bus := .stop }.setLow .data

/-- B1 with the lines before it (R154). -/
def afterB1 (v : Byte) (b : Block) : Block := { b with bus := bytePhase b.afterStart }.loadDR v

/-- X1 with the lines before it (R151). -/
def afterX1 (w : Width) (b : Block) : Block := (b.enterTransfer w).loadSR (controlWord w)

section

variable {b : Block}

theorem startAdv_s1 (h : PinsOutput b) : startAdv .s1 b = .goto .s2 (afterS1 b) := if_pos (pinsOutput_iff.2 h)

theorem stopAdv_p1 (h : PinsOutput b) (hl : b.latchClock = false) : stopAdv .p1 b = .goto .p2 (afterP1 b) :=
  (if_pos (pinsOutput_iff.2 h)).trans (if_neg (Bool.eq_false_iff.1 hl))

theorem byteAdv_b1 (h : ClockLow b) (v : Byte) : byteAdv (.b1 v) b = .goto (.b2 (.x1 .eight)) (afterB1 v b) :=
  if_pos (clockDrivenLow_iff.2 h)

theorem xferAdv_x1 (h : ClockLow b) (w : Width) : xferAdv (.x1 w) b = .goto (.x2 ⟨w, b.dirData, b.dr⟩) (afterX1 w b) :=
  if_pos (clockDrivenLow_iff.2 h)

end

/-! ### The commands as their tests -/

section

variable {π ρ : Type} {r : Adv π ρ} {position : π → Seq} {done : ρ → Block → State} (s : State)

/-- A test in front of a listing's micro-operation is a test of the command. -/
theorem runListing_if (p : Bool) (e : Refusal) :
    s.runListing (if p then r else .refuse e) position done = require p e (s.runListing r position done) := by
  cases p <;> rfl

theorem runListing_if_not (p : Bool) (e : Refusal) :
    s.runListing (if p then .refuse e else r) position done = require (!p) e (s.runListing r position done) := by
  cases p <;> rfl

theorem startStep_s1 : startStep .s1 s = require s.blk.pinsOutput .pinsNotOutput (.next (s.goto (afterS1 s.blk) (.start .s2))) :=
  runListing_if s _ _

theorem stopStep_p1 :
    stopStep .p1 s = require s.blk.pinsOutput .pinsNotOutput
      (require (!s.blk.latchClock) .stopEntryClockNotLow (.next (s.goto (afterP1 s.blk) (.stop .p2)))) :=
  (runListing_if s _ _).trans (congrArg _ (runListing_if_not s _ _))

theorem sendByteStep_b1 (v : Byte) :
    sendByteStep (.b1 v) s = require s.blk.clockDrivenLow .transferEntryClockNotLow
      (.next (s.goto (afterB1 v s.blk) (.sendByte (.b2 (.x1 .eight))))) :=
  runListing_if s _ _

theorem xferStep_x1 (w : Width) :
    xferStep (.x1 w) s = require s.blk.clockDrivenLow .transferEntryClockNotLow
      (.next (s.goto (afterX1 w s.blk) (.xfer (.x2 ⟨w, s.blk.dirData, s.blk.dr⟩)))) :=
  runListing_if s _ _

theorem sendStep_s1 (t : SendLatches) :
    sendStep t (.w1 .s1) s = require s.blk.pinsOutput .pinsNotOutput (.next (s.goto (afterS1 s.blk) (.send t (.w1 .s2)))) := by
  rw [sendStep, sendAdv, startAdv]
  cases s.blk.pinsOutput <;> rfl

theorem recvStep_s1 (t : RecvLatches) :
    recvStep t (.q1 .s1) s = require s.blk.pinsOutput .pinsNotOutput (.next (s.goto (afterS1 s.blk) (.receive t (.q1 .s2)))) := by
  rw [recvStep, recvAdv, startAdv]
  cases s.blk.pinsOutput <;> rfl

end

section

variable {s : State} (hs : s.seq = .ready)

include hs

theorem exec_start :
    exec .start s = require (s.blk.bus == .idle) .startNotFromIdle (require s.blk.pinsOutput .pinsNotOutput
      (.next (s.goto (afterS1 s.blk) (.start .s2)))) := by
  rw [← startStep_s1]
  exact Ops.issue_ready hs _

theorem exec_stop :
    exec .stop s = require (byteAccepted s.blk.bus) .stopNotAfterStartOrAck (require s.blk.pinsOutput .pinsNotOutput
      (require (!s.blk.latchClock) .stopEntryClockNotLow (.next (s.goto (afterP1 s.blk) (.stop .p2))))) := by
  rw [← stopStep_p1]
  exact Ops.issue_ready hs _

theorem exec_sendByte (v : Byte) :
    exec (.sendByte v) s = require (byteAccepted s.blk.bus) .byteNotAfterStartOrAck
      (require s.blk.clockDrivenLow .transferEntryClockNotLow
        (.next (s.goto (afterB1 v s.blk) (.sendByte (.b2 (.x1 .eight)))))) := by
  rw [← sendByteStep_b1]
  exact Ops.issue_ready hs _

theorem exec_xfer8 :
    exec (.xfer 8 0xF0#8) s = require (byteAccepted s.blk.bus) .byteNotAfterStartOrAck
      (require s.blk.clockDrivenLow .transferEntryClockNotLow
        (.next (s.goto (afterX1 .eight s.blk) (.xfer (.x2 ⟨.eight, s.blk.dirData, s.blk.dr⟩))))) := by
  rw [← xferStep_x1]
  exact Ops.issue_ready hs _

theorem exec_xfer1 :
    exec (.xfer 1 0xFE#8) s = require (ackAccepted s.blk.bus) .ackNotAfterByte
      (require s.blk.clockDrivenLow .transferEntryClockNotLow
        (.next (s.goto (afterX1 .one s.blk) (.xfer (.x2 ⟨.one, s.blk.dirData, s.blk.dr⟩))))) := by
  rw [← xferStep_x1]
  exact Ops.issue_ready hs _

/-- An `XFER` of neither admitted pair (R93, R151). -/
theorem exec_xfer_other {n : Nat} {cw : Byte} (h8 : ¬ (n = 8 ∧ cw = 0xF0#8)) (h1 : ¬ (n = 1 ∧ cw = 0xFE#8)) :
    exec (.xfer n cw) s = .refused .transferOperands := by
  rw [exec, execXfer, Ops.issue_ready hs, widthOf, if_neg h8, if_neg h1]

theorem exec_send (a : Nat) (bytes : List Byte) :
    exec (.send a bytes) s = require (s.blk.bus == .idle) .busy (require (decide (a < 128)) .addressRange
      (require s.blk.pinsOutput .pinsNotOutput (.next (s.goto (afterS1 s.blk) (.send (sendLatches a bytes) (.w1 .s2)))))) := by
  rw [← sendStep_s1]
  exact Ops.issue_ready hs _

theorem exec_receive (a n : Nat) :
    exec (.receive a n) s = require (s.blk.bus == .idle) .busy (require (decide (a < 128)) .addressRange
      (require (decide (0 < n)) .countZero (require s.blk.pinsOutput .pinsNotOutput
        (.next (s.goto (afterS1 s.blk) (.receive (recvLatches a n) (.q1 .s2))))))) := by
  rw [← recvStep_s1]
  exact Ops.issue_ready hs _

end

/-! ### Refusals -/

theorem require_eq_refused_iff {p : Bool} {r e : Refusal} {o : Out} :
    require p r o = .refused e ↔ (p = false ∧ r = e) ∨ (p = true ∧ o = .refused e) := by
  cases p <;> simp [require]

theorem byteAccepted_iff {bus : BusState} : byteAccepted bus = true ↔ bus = .start ∨ bus = .ackPhase := by
  simp [byteAccepted]

theorem ackAccepted_iff {bus : BusState} : ackAccepted bus = true ↔ bus = .addressPhase ∨ bus = .dataPhase := by
  simp [ackAccepted]

/-- A tier-1 command has no test but the strobe's (R155, R129). -/
theorem exec_micro {i : Instr} (hi : isMicro i = true) {s : State} (hs : s.seq = .ready) :
    (∃ t, exec i s = .next t) ∨ (i = .strobe ∧ exec i s = .refused .fallingStrobeWhileClockLow) := by
  cases i with
  | strobe =>
    cases h : s.blk.strobe with
    | some c => exact .inl ⟨_, MicroOps.exec_strobe_some hs h⟩
    | none => exact .inr ⟨rfl, MicroOps.exec_strobe_none hs h⟩
  | start => cases hi
  | stop => cases hi
  | sendByte v => cases hi
  | xfer n cw => cases hi
  | send a bytes => cases hi
  | receive a n => cases hi
  | _ => exact .inl ⟨_, Ops.issue_ready hs _⟩

/-- A command is refused by its first test exactly when that test fails, where no later test gives the same reason. -/
theorem require_eq_refused_self {p : Bool} {r : Refusal} {o : Out} (h : o ≠ .refused r) : require p r o = .refused r ↔ ¬ p = true := by
  simp [require_eq_refused_iff, h]

/-- Settles O24: each command is its chain of tests (`exec_start` and those after it), of which the one on `BusState` is the first and the
only one with its reason. -/
theorem commandsAreAcceptedByBusState : Obligations.CommandsAreAcceptedByBusState := by
  unfold Obligations.CommandsAreAcceptedByBusState
  intro s hs
  have idle : (s.blk.bus == .idle) = true ↔ s.blk.bus = .idle := beq_iff_eq
  refine ⟨?_, fun v => ?_, ?_, ?_, ?_, fun a bytes => ?_, fun a n => ?_, fun i hi => exec_micro hi hs⟩
  · rw [exec_start hs, require_eq_refused_self (by simp [require_eq_refused_iff]), idle]
  · rw [exec_sendByte hs, require_eq_refused_self (by simp [require_eq_refused_iff]), byteAccepted_iff, not_or]
  · rw [exec_xfer8 hs, require_eq_refused_self (by simp [require_eq_refused_iff]), byteAccepted_iff, not_or]
  · rw [exec_xfer1 hs, require_eq_refused_self (by simp [require_eq_refused_iff]), ackAccepted_iff, not_or]
  · rw [exec_stop hs, require_eq_refused_self (by simp [require_eq_refused_iff]), byteAccepted_iff, not_or]
  · rw [exec_send hs, require_eq_refused_self (by simp [require_eq_refused_iff]), idle]
  · rw [exec_receive hs, require_eq_refused_self (by simp [require_eq_refused_iff]), idle]

/-- Settles O25: the tests before the one that fails hold (`Ops.require_true`), so that one refuses (`Ops.require_false`). -/
theorem entryTestsRefuseBeforeAnyEffect : Obligations.EntryTestsRefuseBeforeAnyEffect := by
  unfold Obligations.EntryTestsRefuseBeforeAnyEffect
  intro s hs
  have pinsFail : ¬ PinsOutput s.blk → s.blk.pinsOutput = false := fun h => Bool.eq_false_iff.2 (mt pinsOutput_iff.1 h)
  have clockFails : ¬ ClockLow s.blk → s.blk.clockDrivenLow = false := fun h => Bool.eq_false_iff.2 (mt clockDrivenLow_iff.1 h)
  refine ⟨fun n cw h8 h1 => exec_xfer_other hs h8 h1, fun hb => ?fromIdle, fun hb => ?beforeByte, fun hb hlow => ?beforeAck⟩
  case fromIdle =>
    have hidle : (s.blk.bus == .idle) = true := beq_iff_eq.2 hb
    refine ⟨fun a bytes ha => ?_, fun a n ha => ?_, fun a ha => ?_, fun hp => ⟨?_, fun a bytes ha => ?_, fun a n ha hn => ?_⟩⟩
    · rw [exec_send hs, Ops.require_true hidle, Ops.require_false (decide_eq_false (by omega))]
    · rw [exec_receive hs, Ops.require_true hidle, Ops.require_false (decide_eq_false (by omega))]
    · rw [exec_receive hs, Ops.require_true hidle, Ops.require_true (decide_eq_true ha),
        Ops.require_false (decide_eq_false (by omega))]
    · rw [exec_start hs, Ops.require_true hidle, Ops.require_false (pinsFail hp)]
    · rw [exec_send hs, Ops.require_true hidle, Ops.require_true (decide_eq_true ha), Ops.require_false (pinsFail hp)]
    · rw [exec_receive hs, Ops.require_true hidle, Ops.require_true (decide_eq_true ha), Ops.require_true (decide_eq_true hn),
        Ops.require_false (pinsFail hp)]
  case beforeByte =>
    have hbyte := byteAccepted_iff.2 hb
    refine ⟨fun hlow => ⟨fun v => ?_, ?_⟩, fun hp => ?_, fun hp hl => ?_⟩
    · rw [exec_sendByte hs, Ops.require_true hbyte, Ops.require_false (clockFails hlow)]
    · rw [exec_xfer8 hs, Ops.require_true hbyte, Ops.require_false (clockFails hlow)]
    · rw [exec_stop hs, Ops.require_true hbyte, Ops.require_false (pinsFail hp)]
    · rw [exec_stop hs, Ops.require_true hbyte, Ops.require_true (pinsOutput_iff.2 hp), Ops.require_false (by simp [hl])]
  case beforeAck => rw [exec_xfer1 hs, Ops.require_true (ackAccepted_iff.2 hb), Ops.require_false (clockFails hlow)]

end Sys2Proof.Proofs.Acceptance
end

section
/-! A command as it is issued, and every move of the host, keeps the invariant of Sys2Proof/Safety.lean; with the micro-operations of a
running command (`seqStep_inv`) that is every step of the machine. -/

namespace Sys2Proof.Proofs.StepInvariant

open Sys2Proof Sys2Proof.Machine Sys2Proof.Claims Sys2Proof.Laws Sys2Proof.Laws.Invariant Sys2Proof.Proofs.Scope
open Sys2Proof.Proofs.RunningInvariant Sys2Proof.Proofs.Acceptance
open Sys2Proof.Proofs.DataMoves (clockDrivenLow_iff pinsOutput_iff)

/-- A test before a command's first micro-operation may be used by what follows it. -/
theorem anyNext_require {Q : State → Prop} {p : Bool} {r : Refusal} {o : Out} (h : p = true → AnyNext Q o) :
    AnyNext Q (require p r o) := by
  cases p
  · trivial
  · exact h rfl

variable {s : State} {b c : Block}

/-! ### Between commands -/

/-- What the invariant says while the sequencer waits: the phase of R155, and no poll counted. -/
theorem inv_iff_of_ready (hs : s.seq = .ready) : Inv s ↔ ReadyInv s.blk ∧ s.blk.pollN = 0 := by
  obtain ⟨blk, seq, result, program, client, clientLog, inbox⟩ := s
  cases hs
  exact ⟨fun hi => ⟨hi.1, hi.2.1 rfl⟩, fun h => ⟨h.1, fun _ => h.2, .inl h.2⟩⟩

/-- In `Idle` no start is pending. -/
theorem afterStart_of_idle (hr : ReadyInv b) (hb : b.bus = .idle) : b.afterStart = false := by
  obtain ⟨-, hiff⟩ := hr
  simpa [hb] using hiff

/-! ### The first micro-operation of a listing -/

/-- A listing is entered with no poll counted. -/
theorem entered_inv {q : Seq} (hq : q.inListing = true) (hpos : PositionInv q c) (hz : c.pollN = 0) :
    AnyNext Inv (.next (s.goto c q)) :=
  goto_inv hq hpos (.inl hz) fun _ => hz

/-- S1 leaves `generateStart` at S2 (R152). -/
theorem startInv_afterS1 (hr : ReadyInv b) (hb : b.bus = .idle) (hp : b.pinsOutput = true) : StartInv .s2 (afterS1 b) :=
  ⟨pinsOutput_iff.1 hp, rfl, (afterStart_of_idle hr hb : b.afterStart = false), rfl⟩

/-- X1 with the lines of X0 before it leaves `transfer` at X2 (R151). -/
theorem xferInv_afterX1 (hl : b.clockDrivenLow = true) (w : Width) : XferInv w (.x2 ⟨w, b.dirData, b.dr⟩) (afterX1 w b) := by
  have hlow : ClockLow b := clockDrivenLow_iff.1 hl
  cases w with
  | eight => exact ⟨rfl, rfl, hlow, rfl, (by decide : (loadCnt (controlWord .eight)).getLsbD 0 = false)⟩
  | one => exact ⟨⟨rfl, rfl⟩, rfl, hlow, rfl, rfl⟩

theorem xferStep_x1_inv (hz : s.blk.pollN = 0) (w : Width) : AnyNext Inv (xferStep (.x1 w) s) := by
  rw [xferStep_x1]
  exact anyNext_require fun hl => entered_inv rfl ⟨w, xferInv_afterX1 hl w⟩ (by simpa [afterX1] using hz)

/-- The first poll of a `WAITHIGH` is a poll like its later ones (R131). -/
theorem waitHighStep_ready_inv (hr : ReadyInv s.blk) (hz : s.blk.pollN = 0) (l : Line) : AnyNext Inv (waitHighStep l s) := by
  have hi : Inv (PollRuns.atWaitHigh l s) := ⟨hr, nofun, .inl hz⟩
  have key := seqStep_inv hi
  rwa [← Ops.step_running (by simp [PollRuns.atWaitHigh]), PollRuns.step_atWaitHigh] at key

/-! ### A command as it is issued -/

/-- A command of one micro-operation leaves `BusState`, `after_start` and `poll_n` alone (R155). -/
theorem complete_inv (hr : ReadyInv s.blk) (hz : s.blk.pollN = 0) (h : SamePhase s.blk c) (v : ResultValue) :
    Inv (s.complete c v) := by
  obtain ⟨hbus, hstart, hpoll⟩ := h
  refine finish_inv ?_ (hpoll.trans hz) _
  rw [ReadyInv, hbus, hstart]
  exact hr

theorem issue_complete_inv (hr : ReadyInv s.blk) (hz : s.blk.pollN = 0) (h : SamePhase s.blk c) (v : ResultValue) :
    AnyNext Inv (s.issue (.next (s.complete c v))) :=
  .issue (complete_inv hr hz h v)

/-- A command issued while the sequencer waits, with its first micro-operation. -/
theorem exec_inv (hs : s.seq = .ready) (hi : Inv s) (i : Instr) : AnyNext Inv (exec i s) := by
  obtain ⟨hr, hz⟩ := (inv_iff_of_ready hs).1 hi
  cases i with
  | strobe =>
    refine .issue ?_
    split
    · exact complete_inv hr hz (MicroOps.strobe_oneEdge ‹_›).phase _
    · trivial
  | waitHigh l => exact .issue (waitHighStep_ready_inv hr hz l)
  | start =>
    rw [exec_start hs]
    refine anyNext_require fun hb => anyNext_require fun hp => ?_
    exact entered_inv rfl (startInv_afterS1 hr (eq_of_beq hb) hp) hz
  | stop =>
    rw [exec_stop hs]
    refine anyNext_require fun _ => anyNext_require fun hp => anyNext_require fun hl => ?_
    have hlow : s.blk.latchClock = false := by simpa using hl
    exact entered_inv rfl ⟨⟨pinsOutput_iff.1 hp, hlow, rfl, rfl⟩, by simp⟩ hz
  | sendByte v =>
    rw [exec_sendByte hs]
    refine anyNext_require fun _ => anyNext_require fun hl => ?_
    exact entered_inv rfl ⟨rfl, rfl, clockDrivenLow_iff.1 hl⟩ hz
  | xfer n cw =>
    refine .issue ?_
    rcases widthOf n cw with _ | _ | _
    · trivial
    · exact anyNext_require fun _ => xferStep_x1_inv hz _
    · exact anyNext_require fun _ => xferStep_x1_inv hz _
  | send a bytes =>
    rw [exec_send hs]
    refine anyNext_require fun hb => anyNext_require fun _ => anyNext_require fun hp => ?_
    exact entered_inv rfl ⟨startInv_afterS1 hr (eq_of_beq hb) hp, rfl⟩ hz
  | receive a n =>
    rw [exec_receive hs]
    refine anyNext_require fun hb => anyNext_require fun _ => anyNext_require fun hn => anyNext_require fun hp => ?_
    exact entered_inv rfl ⟨of_decide_eq_true hn, rfl, startInv_afterS1 hr (eq_of_beq hb) hp, rfl⟩ hz
  | _ => exact issue_complete_inv hr hz ⟨by simp, by simp, by simp⟩ _

/-! ### The moves of the host -/

/-- The host's own state is no part of the invariant. -/
theorem exec_host_inv (hs : s.seq = .ready) (hi : Inv s) (ops : List HostOp) (k : Client) (i : Instr) :
    AnyNext Inv (exec i { s with program := ops, client := k }) :=
  exec_inv (s := { s with program := ops, client := k }) hs hi i

theorem nextMove_inv (hs : s.seq = .ready) (hi : Inv s) : AnyNext Inv (nextMove s) := by
  unfold nextMove
  split
  · exact hi
  · unfold issueFetched
    split
    · exact exec_host_inv hs hi _ _ _
    · trivial
  · exact .withResult fun _ => hi
  · exact exec_host_inv hs hi _ _ _
  · exact exec_host_inv hs hi _ _ _
  · exact exec_host_inv hs hi _ _ _

/-- M2 writes the clock alone (R193). -/
theorem hostStep_inv (hs : s.seq = .ready) (hi : Inv s) : AnyNext Inv (hostStep s) := by
  unfold hostStep
  split
  · exact nextMove_inv hs hi
  · refine .withResult fun r => ?_
    split
    · exact hi
    · exact exec_inv hs hi _
  · exact .withResult fun _ => hi
  · exact .withResult fun r => (inv_iff_of_ready (s := s.conversionWait r.status) hs).2 ((inv_iff_of_ready hs).1 hi)
  · exact exec_host_inv hs hi _ _ _
  · exact .withResult fun _ => hi

/-- Settles O48: a step is a move of the host (`hostStep_inv`) or a micro-operation of the running command (`seqStep_inv`). -/
theorem everyStepKeepsTheInvariant : Obligations.EveryStepKeepsTheInvariant := by
  unfold Obligations.EveryStepKeepsTheInvariant
  intro s t hi h
  have key : AnyNext Inv (step s) := by
    by_cases hs : s.seq = .ready
    · rw [Ops.step_ready hs]
      exact hostStep_inv hs hi
    · rw [Ops.step_running hs]
      exact seqStep_inv hi
  rwa [h] at key

end Sys2Proof.Proofs.StepInvariant
end

section
/-! Clock stretching (41_primitives.md R157): the polls of a line that is low for a while, then one sample of 1. -/

namespace Sys2Proof.Proofs.Stretching

open Sys2Proof Sys2Proof.Machine Sys2Proof.Claims Sys2Proof.Laws Sys2Proof.Laws.Runs Sys2Proof.Proofs.PollRuns

variable {s : State} {l : Line} {q : Seq}

theorem awaited_of_poll (h : s.seq.poll = some (l, q)) : s.seq.awaited = some l := by
  unfold Seq.awaited
  split
  · next e => simp [e, Seq.poll] at h
  · simp [h]

/-- A step at a poll of a listing that samples 1 (R131): to the next label, with `poll_n` at 0. -/
theorem step_high (h : s.seq.poll = some (l, q)) (hs : s.blk.sample l = true) :
    step s = .next (s.goto ({ s.blk with pollN := 0 }.tick 0) q) := by
  rw [Polls.step_poll h, Polls.atPoll, Ops.poll_high hs]

/-- Settles O15: the polls while the line is low (`runs_low`), then the poll that sees it high (`step_high`). -/
theorem stretchingOnlyRepeatsPolls : Obligations.StretchingOnlyRepeatsPolls := by
  unfold Obligations.StretchingOnlyRepeatsPolls
  intro s l q n hq hl hdrive hlow hhigh
  obtain ⟨h, m, hh, hrun⟩ := runs_low (awaited_of_poll hq) hl fun k hk => level_eq_false.2 (.inr (hlow k hk))
  have hsample : (passed s.blk n h m).sample l = true := by simp [sample_passed, Block.level, hdrive, hhigh]
  obtain ⟨e, m', hpassed⟩ := passed_tick { s.blk with pollN := 0 } n 0 h m
  have hlast : runs (n + 1) s = .next (s.goto (passed { s.blk with pollN := 0 } (n + 1) (h ++ [e]) m') q) := by
    rw [runs, run_add 1 hrun, ← hpassed]
    exact run_succ 0 (step_high (s := { s with blk := passed s.blk n h m }) hq hsample)
  exact ⟨_, hlast, rfl, rfl, ⟨rfl, rfl, rfl, rfl⟩, ⟨rfl, rfl, rfl, rfl⟩, ⟨rfl, rfl, rfl⟩, rfl, rfl, rfl, rfl,
    elapsed_passed (by simp [hh]) 0 m'⟩

end Sys2Proof.Proofs.Stretching
end

section
/-! Commands of tier 2 as whole runs, no poll repeated (41_primitives.md R151 to R154, R156, 70_reset_and_hazards.md R260): the listing's run
(Sys2Proof/Laws/Listings.lean) behind the command's acceptance. -/

namespace Sys2Proof.Proofs.CommandRuns

open Sys2Proof Sys2Proof.Machine Sys2Proof.Claims Sys2Proof.Laws Sys2Proof.Laws.Runs Sys2Proof.Laws.Listings
open Sys2Proof.Proofs.Acceptance Sys2Proof.Proofs.MicroOps
open Sys2Proof.Proofs.DataMoves (clockDrivenLow_iff pinsOutput_iff)

/-! ### From a listing to its command -/

/-- A command whose acceptance runs the first micro-operation of its listing, and the steps after it. -/
theorem runs_of_ends {π ρ : Type} {f : π → Block → Adv π ρ} {position : π → Seq} {done : State → ρ → Block → State}
    (hd : Drives f position done) {s : State} {n t : Nat} {p q : π} {c r : Block} {v : ρ} (h1 : f p s.blk = .goto q c)
    (he : Ends f (n + 2) p s.blk v r t) :
    ∃ h m, h.length = n + 2 ∧ t ≤ m ∧ Returns f (n + 2) p s.blk v (passed r (n + 2) h m) ∧
      runs (n + 1) (s.goto c (position q)) = .next (done s v (passed r (n + 2) h m)) := by
  obtain ⟨h, m, hh, ht, hr⟩ := he
  obtain ⟨q', c', h1', -, hrun⟩ := Returns.exec hd hr
  cases h1.symm.trans h1'
  exact ⟨h, m, hh, ht, hr, hrun⟩

/-- What `n` micro-operations have used, whatever registers they wrote. -/
theorem elapsed_of_passed {b r : Block} {n t m : Nat} {h : List Levels} (hh : h.length = n) (ht : t ≤ m)
    (hr : (r.cfg, r.env, r.ops, r.time, r.lineHist) = (b.cfg, b.env, b.ops, b.time, b.lineHist)) :
    Elapsed n t b (passed r n h m) := by
  simp only [Prod.mk.injEq] at hr
  obtain ⟨hcfg, henv, hops, htime, hhist⟩ := hr
  exact ⟨hcfg, by rw [passed_env, henv], by rw [passed_ops, hops], by rw [passed_time, htime]; omega,
    h, hh, by rw [passed_lineHist, hhist]⟩

section

variable {s : State} (hs : s.seq = .ready)

include hs

theorem exec_start_accepted (hb : s.blk.bus = .idle) (hp : PinsOutput s.blk) :
    exec .start s = .next (s.goto (afterS1 s.blk) (.start .s2)) := by
  rw [exec_start hs, Ops.require_true (beq_iff_eq.2 hb), Ops.require_true (pinsOutput_iff.2 hp)]

theorem exec_stop_accepted (hb : s.blk.bus = .start ∨ s.blk.bus = .ackPhase) (hp : PinsOutput s.blk) (hl : s.blk.latchClock = false) :
    exec .stop s = .next (s.goto (afterP1 s.blk) (.stop .p2)) := by
  rw [exec_stop hs, Ops.require_true (byteAccepted_iff.2 hb), Ops.require_true (pinsOutput_iff.2 hp), Ops.require_true (by simp [hl])]

theorem exec_sendByte_accepted (hb : s.blk.bus = .start ∨ s.blk.bus = .ackPhase) (hl : ClockLow s.blk) (v : Byte) :
    exec (.sendByte v) s = .next (s.goto (afterB1 v s.blk) (.sendByte (.b2 (.x1 .eight)))) := by
  rw [exec_sendByte hs, Ops.require_true (byteAccepted_iff.2 hb), Ops.require_true (clockDrivenLow_iff.2 hl)]

theorem exec_xfer8_accepted (hb : s.blk.bus = .start ∨ s.blk.bus = .ackPhase) (hl : ClockLow s.blk) :
    exec (.xfer 8 0xF0#8) s = .next (s.goto (afterX1 .eight s.blk) (.xfer (.x2 ⟨.eight, s.blk.dirData, s.blk.dr⟩))) := by
  rw [exec_xfer8 hs, Ops.require_true (byteAccepted_iff.2 hb), Ops.require_true (clockDrivenLow_iff.2 hl)]

theorem exec_xfer1_accepted (hb : s.blk.bus = .addressPhase ∨ s.blk.bus = .dataPhase) (hl : ClockLow s.blk) :
    exec (.xfer 1 0xFE#8) s = .next (s.goto (afterX1 .one s.blk) (.xfer (.x2 ⟨.one, s.blk.dirData, s.blk.dr⟩))) := by
  rw [exec_xfer1 hs, Ops.require_true (ackAccepted_iff.2 hb), Ops.require_true (clockDrivenLow_iff.2 hl)]

end

/-! ### transfer -/

/-- The bits a transfer of eight captures: the samples, the first in bit 7 (R65). -/
theorem captured_eight_getLsbD (b : Block) {k : Nat} (hk : k < 8) :
    (captured b 5 8).getLsbD (7 - k) = sampledBit b k (5 * k + 5) := by
  rw [captured_getLsbD b 5 8 (7 - k) (by omega) (by omega), if_pos (by omega), show 8 - 1 - (7 - k) = k by omega]
  rfl

/-- A transfer of one bit shifts `DR` once (R151). -/
theorem captured_one_getLsbD_succ (b : Block) {k : Nat} (hk : k < 7) : (captured b 5 1).getLsbD (k + 1) = b.dr.getLsbD k := by
  rw [captured_getLsbD b 5 1 (k + 1) (by omega) (by omega), if_neg (by omega), Nat.add_sub_cancel]

theorem captured_one_getLsbD_zero (b : Block) : (captured b 5 1).getLsbD 0 = sampledBit b 0 5 := by
  rw [captured_getLsbD b 5 1 0 (by omega) (by omega), if_pos (by omega)]
  rfl

/-- Settles O22: the run of `transfer` (`Listings.transfer`) with one clock cycle. -/
theorem transferOneBitCapturesTheAcknowledgment : Obligations.TransferOneBitCapturesTheAcknowledgment := by
  unfold Obligations.TransferOneBitCapturesTheAcknowledgment
  intro s hs hb hl hn
  obtain ⟨h, m, hh, ht, -, hrun⟩ := runs_of_ends drives_xfer (n := 5) (xferAdv_x1 hl .one) (transfer .one s.blk hl.1 hl.2 hn)
  exact ⟨_, _, captured s.blk 5 1, exec_xfer1_accepted hs hb hl, hrun, completed_complete _ _ _,
    elapsed_of_passed hh (by simpa [bitCount, cycleTime, Claims.cycle] using ht) rfl, captured_one_getLsbD_zero _,
    fun k hk => captured_one_getLsbD_succ _ hk, rfl, rfl, rfl, rfl, rfl, rfl, rfl, rfl, rfl, rfl, rfl⟩

/-! ### sendByte -/

/-- What `SENDBYTE` writes to the primitive history for its byte: the byte sent, or what another device sent in its place. -/
theorem byteEvent_output {b : Block} (h : b.dirData = .output) (v : Byte) : byteEvent b v = .byteOut v := by
  simp [byteEvent, transferEvent, h]

theorem byteEvent_input {b : Block} (h : b.dirData = .input) (v : Byte) : ∃ r, byteEvent b v = .byteIn r := by
  simp [byteEvent, transferEvent, h]

/-- Settles O23: the run of `sendByte` (`Listings.sendByte`). -/
theorem sendByteReturnsTheAcknowledgmentBit : Obligations.SendByteReturnsTheAcknowledgmentBit := by
  unfold Obligations.SendByteReturnsTheAcknowledgmentBit
  intro v s hs hb hl hn
  obtain ⟨h, m, hh, ht, -, hrun⟩ := runs_of_ends drives_sendByte (n := 51) (byteAdv_b1 hl v) (sendByte v s.blk hl.1 hl.2 hn)
  exact ⟨_, _, _, byteEvent s.blk v, exec_sendByte_accepted hs hb hl v, rfl, hrun, completed_complete _ _ _,
    elapsed_of_passed hh ht rfl, rfl, rfl, rfl, rfl, hl.1, rfl, rfl, rfl, rfl, rfl, rfl, rfl,
    fun h => byteEvent_output h v, fun h => byteEvent_input h v⟩

/-! ### generateStop with DATA held low by the data register -/

/-- At P6 both latches are released (R153). -/
def atP6 (b : Block) : Block := { b with latchClock := true, latchData := true, pollN := 0 }

/-- From P2 to the poll of P6, CLOCK not stretched. -/
theorem stop_reaches_p6 (b : Block) (h1 : (b.answerAt 1).clockLow = false) :
    Reaches stopAdv 4 .p2 b .p6 (atP6 b) b.cfg.tHigh := by
  have g := (Reaches.refl stopAdv .p2 b).step (k := 0) (q' := .p3) (r' := { b with latchClock := true }) (fun h m => rfl)
  have g := g.step (fun h m => poll_passes StopPos.p3 StopPos.p4 _ 1 h m .clock (by simp [Block.drivesLow, Block.drivesClockLow]) h1)
  have g := g.step (k := b.cfg.tHigh) (q' := .p5) (r' := _) (fun h m => rfl)
  have g := g.step (k := 0) (q' := .p6) (r' := atP6 b) (fun h m => rfl)
  simp only [Nat.zero_add, Nat.add_zero] at g
  exact g

/-- Settles O20: the run reaches P6 (`stop_reaches_p6`), where the poll finds DATA low at every sample (`runs_low`). -/
theorem stopHangsWhileTheDataRegisterHoldsDataLow : Obligations.StopHangsWhileTheDataRegisterHoldsDataLow := by
  unfold Obligations.StopHangsWhileTheDataRegisterHoldsDataLow
  intro s hs hb hp hl h7 hlimit h2
  refine ⟨_, exec_stop_accepted hs hb hp hl, fun n => ?_⟩
  have h2' : ((afterP1 s.blk).answerAt 1).clockLow = false := by
    rw [Ops.answerAt_next rfl rfl]
    exact h2
  obtain ⟨h, m, -, -, hgoes⟩ := stop_reaches_p6 (afterP1 s.blk) h2'
  have hreach := Goes.run drives_stop (s := s.goto (afterP1 s.blk) (.stop .p2)) rfl hgoes
  have hdrive : (passed (atP6 (afterP1 s.blk)) 4 h m).drivesLow .data = true :=
    drivesLow_iff.2 ⟨hp.2, .inr ⟨rfl, h7⟩⟩
  obtain ⟨h', m', -, hlow⟩ := PollRuns.runs_low (n := n) (s := s.goto (passed (atP6 (afterP1 s.blk)) 4 h m) (.stop .p6)) rfl
    hlimit fun _ _ => PollRuns.level_eq_false.2 (.inl hdrive)
  exact ⟨_, (run_add n hreach).trans hlow, rfl, rfl, rfl, rfl, rfl, hdrive, ⟨rfl, rfl, rfl⟩, rfl⟩

end Sys2Proof.Proofs.CommandRuns
end

section
/-! The line history of a primitive on an idle bus (41_primitives.md R151 to R153, 00_scope.md R12): what each label has shown on the wire so
far, kept by every micro-operation. -/

namespace Sys2Proof.Proofs.IdleBus

open Sys2Proof Sys2Proof.Machine Sys2Proof.Claims Sys2Proof.Laws Sys2Proof.Laws.Runs Sys2Proof.Proofs.Scope

/-! ### Runs on an idle bus -/

section

variable {π ρ : Type} {P : π → Block → Prop} {R : ρ → Block → Prop} {f : π → Block → Adv π ρ} {b c : Block} {l : Line} {n k : Nat}

/-- The micro-operation of a listing leads to a label with `P`, or returns with `R`. -/
def Gives (P : π → Block → Prop) (R : ρ → Block → Prop) : Adv π ρ → Prop
  | .goto p c => P p c
  | .ret v c => R v c
  | .timeout _ _ => True
  | .refuse _ => True

theorem idleBus_one (h : b.idleBus (n + 1)) : b.idleBus 1 := fun k hk => h k (by omega)

/-- One micro-operation uses up one of the idle answers. -/
theorem idleBus_next (ht : Ticked b c) (h : b.idleBus (n + 1)) : c.idleBus n := fun k hk => by
  rw [Ops.answerAt_next ht.env ht.ops]
  exact h (k + 1) (by omega)

/-- What every micro-operation keeps on an idle bus, a run of them keeps. -/
theorem goes_keeps (htick : ∀ p b, Leaves (Ticked b) (f p b)) (hkeep : ∀ p b, b.idleBus 1 → P p b → Gives P R (f p b)) {p q : π}
    (hg : Goes f n p b q c) (hb : b.idleBus (n + k)) (hp : P p b) : P q c ∧ c.idleBus k := by
  induction n generalizing p b with
  | zero =>
    obtain ⟨rfl, rfl⟩ := hg
    exact ⟨hp, by simpa using hb⟩
  | succ n ih =>
    obtain ⟨p', b', hf, hg⟩ := hg
    rw [Nat.succ_add] at hb
    have ht := htick p b
    have hk := hkeep p b (idleBus_one hb) hp
    rw [hf] at ht hk
    exact ih hg (idleBus_next ht hb) hk

/-- And so does a run that returns. -/
theorem returns_keeps (htick : ∀ p b, Leaves (Ticked b) (f p b)) (hkeep : ∀ p b, b.idleBus 1 → P p b → Gives P R (f p b)) {p : π} {v : ρ}
    (hr : Returns f n p b v c) (hb : b.idleBus n) (hp : P p b) : R v c := by
  obtain ⟨m, q, d, rfl, hg, hf⟩ := hr
  obtain ⟨hq, hd⟩ := goes_keeps htick hkeep hg hb hp
  have hk := hkeep q d hd hq
  rwa [hf] at hk

/-! ### One micro-operation on an idle bus -/

theorem answer_of_idleBus (h : b.idleBus 1) : b.answer = ⟨false, false, false, false⟩ := by
  rw [Ops.answer_eq]
  exact h 0 (by omega)

/-- A line reads what the master makes of it. -/
theorem sample_of_idleBus (h : b.idleBus 1) (l : Line) : b.sample l = !b.drivesLow l := by
  rw [Block.sample, answer_of_idleBus h]
  cases l <;> simp [Block.level, envLow]

/-- A poll of a released line is not repeated. -/
theorem pollAdv_of_idleBus (h : b.idleBus 1) (hl : b.drivesLow l = false) (here next : π) :
    (pollAdv b l here next : Adv π ρ) = .goto next ({ b with pollN := 0 }.tick 0) := by
  rw [pollAdv, Ops.poll_high (by rw [sample_of_idleBus h, hl]; rfl)]

/-- The tick that ends a micro-operation adds the levels the master's new drive makes. -/
theorem lineHist_tick (h : b.idleBus 1) (k : Nat) (hc : (c.env, c.ops, c.lineHist) = (b.env, b.ops, b.lineHist)) :
    (c.tick k).lineHist = b.lineHist ++ [⟨!c.drivesClockLow, !c.drivesDataLow⟩] := by
  simp only [Prod.mk.injEq] at hc
  obtain ⟨henv, hops, hhist⟩ := hc
  have hanswer : c.answer = ⟨false, false, false, false⟩ := by
    rw [Ops.answer_eq, Ops.answerAt_of_env henv hops, ← Ops.answer_eq, answer_of_idleBus h]
  rw [StateFields.tick_lineHist, hhist, Block.levelsAfter, hanswer]
  simp [Block.level, Block.drivesLow, envLowAfter]

end

/-! ### generateStart and generateStop -/

/-- Both lines are outputs and `DR[7]` is 1, so that the latches `x` of CLOCK and `y` of DATA are what the lines show; the line history has
grown from `l` by `h`. -/
structure Shows (l h : List Levels) (x y : Bool) (b : Block) : Prop where
  pins : PinsOutput b
  dr : b.dr.getLsbD 7 = true
  latchClock : b.latchClock = x
  latchData : b.latchData = y
  lineHist : b.lineHist = l ++ h

section

variable {l h : List Levels} {x y x' y' : Bool} {b c : Block}

/-- A micro-operation that writes latches shows them. -/
theorem Shows.tick (hs : Shows l h x y b) (hb : b.idleBus 1)
    (hc : (c.env, c.ops, c.lineHist, c.dirClock, c.dirData, c.dr) = (b.env, b.ops, b.lineHist, b.dirClock, b.dirData, b.dr))
    (hx : c.latchClock = x') (hy : c.latchData = y') (k : Nat) : Shows l (h ++ [⟨x', y'⟩]) x' y' (c.tick k) := by
  simp only [Prod.mk.injEq] at hc
  obtain ⟨henv, hops, hhist, hdirClock, hdirData, hdr⟩ := hc
  obtain ⟨⟨hpc, hpd⟩, h7, -, -, hl⟩ := hs
  refine ⟨⟨hdirClock.trans hpc, hdirData.trans hpd⟩, hdr ▸ h7, hx, hy, ?_⟩
  rw [lineHist_tick hb k (by rw [henv, hops, hhist]), hl, List.append_assoc, Block.drivesClockLow, Block.drivesDataLow, hdirClock, hpc,
    hdirData, hpd, hdr, h7, hx, hy]
  simp

/-- A poll on a line whose latch is 1. -/
theorem Shows.poll {π ρ : Type} (hs : Shows l h x y b) (hb : b.idleBus 1) (m : Line) (hm : b.latch m = true) (here next : π) :
    ∃ c, (pollAdv b m here next : Adv π ρ) = .goto next c ∧ Shows l (h ++ [⟨x, y⟩]) x y c := by
  have hlow : b.drivesLow m = false := by
    rw [← Bool.not_eq_true, MicroOps.drivesLow_iff]
    simp [hm, hs.dr]
  exact ⟨_, pollAdv_of_idleBus hb hlow here next, hs.tick (c := { b with pollN := 0 }) hb rfl hs.latchClock hs.latchData 0⟩

end

/-- The line history so far and the latches at each label (R152). -/
def StartShows (l : List Levels) (p : StartPos) (b : Block) : Prop :=
  match p with
  | .s1 => Shows l [] b.latchClock true b
  | .s2 => Shows l [⟨true, true⟩] true true b
  | .s3 => Shows l [⟨true, true⟩, ⟨true, true⟩] true true b
  | .s4 => Shows l [⟨true, true⟩, ⟨true, true⟩, ⟨true, true⟩] true true b
  | .s5 => Shows l [⟨true, true⟩, ⟨true, true⟩, ⟨true, true⟩, ⟨true, false⟩] true false b
  | .s6 => Shows l [⟨true, true⟩, ⟨true, true⟩, ⟨true, true⟩, ⟨true, false⟩, ⟨true, false⟩] true false b
  | .s7 => Shows l [⟨true, true⟩, ⟨true, true⟩, ⟨true, true⟩, ⟨true, false⟩, ⟨true, false⟩, ⟨false, false⟩] false false b

/-- What `generateStart` shows from its first micro-operation to its return. -/
def startLevels : List Levels :=
  [⟨true, true⟩, ⟨true, true⟩, ⟨true, true⟩, ⟨true, false⟩, ⟨true, false⟩, ⟨false, false⟩, ⟨false, true⟩]

theorem startAdv_shows (l : List Levels) (p : StartPos) (b : Block) (hb : b.idleBus 1) (hs : StartShows l p b) :
    Gives (StartShows l) (fun _ c => c.lineHist = l ++ startLevels) (startAdv p b) := by
  cases p with
  | s1 =>
    rw [Acceptance.startAdv_s1 hs.pins]
    exact hs.tick (c := ({ b with bus := .start } : Block).withLatch .clock true) hb rfl rfl hs.latchData _
  | s2 =>
    obtain ⟨c, e, hc⟩ := hs.poll (ρ := Unit) hb .clock hs.latchClock StartPos.s2 .s3
    rw [startAdv, e]
    exact hc
  | s3 => exact hs.tick hb rfl hs.latchClock hs.latchData _
  | s4 => exact hs.tick (c := b.withLatch .data false) hb rfl hs.latchClock rfl _
  | s5 => exact hs.tick hb rfl hs.latchClock hs.latchData _
  | s6 => exact hs.tick (c := b.withLatch .clock false) hb rfl rfl hs.latchData _
  | s7 => exact (hs.tick (c := b.withLatch .data true) hb rfl hs.latchClock rfl 0).lineHist

/-- The line history so far and the latches at each label (R153). -/
def StopShows (l : List Levels) (p : StopPos) (b : Block) : Prop :=
  match p with
  | .p1 => Shows l [] false b.latchData b
  | .p2 => Shows l [⟨false, false⟩] false false b
  | .p3 => Shows l [⟨false, false⟩, ⟨true, false⟩] true false b
  | .p4 => Shows l [⟨false, false⟩, ⟨true, false⟩, ⟨true, false⟩] true false b
  | .p5 => Shows l [⟨false, false⟩, ⟨true, false⟩, ⟨true, false⟩, ⟨true, false⟩] true false b
  | .p6 => Shows l [⟨false, false⟩, ⟨true, false⟩, ⟨true, false⟩, ⟨true, false⟩, ⟨true, true⟩] true true b
  | .p7 => Shows l [⟨false, false⟩, ⟨true, false⟩, ⟨true, false⟩, ⟨true, false⟩, ⟨true, true⟩, ⟨true, true⟩] true true b

/-- What `generateStop` shows from its first micro-operation to its return. -/
def stopLevels : List Levels :=
  [⟨false, false⟩, ⟨true, false⟩, ⟨true, false⟩, ⟨true, false⟩, ⟨true, true⟩, ⟨true, true⟩, ⟨true, true⟩]

theorem stopAdv_shows (l : List Levels) (p : StopPos) (b : Block) (hb : b.idleBus 1) (hs : StopShows l p b) :
    Gives (StopShows l) (fun _ c => c.lineHist = l ++ stopLevels) (stopAdv p b) := by
  cases p with
  | p1 =>
    rw [Acceptance.stopAdv_p1 hs.pins hs.latchClock]
    exact hs.tick (c := ({ b with bus := .stop } : Block).withLatch .data false) hb rfl hs.latchClock rfl _
  | p2 => exact hs.tick (c := b.withLatch .clock true) hb rfl rfl hs.latchData _
  | p3 =>
    obtain ⟨c, e, hc⟩ := hs.poll (ρ := Unit) hb .clock hs.latchClock StopPos.p3 .p4
    rw [stopAdv, e]
    exact hc
  | p4 => exact hs.tick hb rfl hs.latchClock hs.latchData _
  | p5 => exact hs.tick (c := b.withLatch .data true) hb rfl hs.latchClock rfl _
  | p6 =>
    obtain ⟨c, e, hc⟩ := hs.poll (ρ := Unit) hb .data hs.latchData StopPos.p6 .p7
    rw [stopAdv, e]
    exact hc
  | p7 => exact (hs.tick hb rfl hs.latchClock hs.latchData 0).lineHist

section

open Sys2Proof.Proofs.CommandRuns Sys2Proof.Proofs.Acceptance Sys2Proof.Proofs.MicroOps

/-- Settles O18: the run of `generateStart` (`Listings.generateStart`), and on an idle bus what it shows (`startAdv_shows`). -/
theorem startMakesAStartCondition : Obligations.StartMakesAStartCondition := by
  unfold Obligations.StartMakesAStartCondition
  intro s hcan h1
  obtain ⟨hs, hb, hp⟩ := hcan
  obtain ⟨h, m, hh, ht, hret, hrun⟩ := runs_of_ends drives_start (n := 5) (startAdv_s1 hp) (Listings.generateStart s.blk hp.1 hp.2 h1)
  refine ⟨_, _, exec_start_accepted hs hb hp, rfl, rfl, rfl, hrun, completed_complete _ _ _, elapsed_of_passed hh ht rfl,
    hp.1, hp.2, rfl, rfl, ⟨rfl, rfl, rfl⟩, rfl, rfl, rfl, rfl, fun hidle hd h7 => ?_⟩
  exact returns_keeps startAdv_ticks (startAdv_shows s.blk.lineHist) hret hidle ⟨hp, h7, rfl, hd, (List.append_nil _).symm⟩

/-- Settles O19: the run of `generateStop` (`Listings.generateStop`), and on an idle bus what it shows (`stopAdv_shows`). -/
theorem stopMakesAStopCondition : Obligations.StopMakesAStopCondition := by
  unfold Obligations.StopMakesAStopCondition
  intro s hs hb hp hl h7 h2 h5
  obtain ⟨h, m, hh, ht, hret, hrun⟩ :=
    runs_of_ends drives_stop (n := 5) (stopAdv_p1 hp hl) (Listings.generateStop s.blk hp.1 hp.2 hl h7 h2 h5)
  refine ⟨_, _, exec_stop_accepted hs hb hp hl, rfl, rfl, rfl, hrun, completed_complete _ _ _, elapsed_of_passed hh ht rfl,
    hp.1, hp.2, rfl, rfl, ⟨rfl, rfl, rfl⟩, rfl, rfl, rfl, rfl, fun hidle => ?_⟩
  exact returns_keeps stopAdv_ticks (stopAdv_shows s.blk.lineHist) hret hidle ⟨hp, h7, hl, rfl, (List.append_nil _).symm⟩

end

end Sys2Proof.Proofs.IdleBus
end

section
/-! An 8-bit transfer on an idle bus: the data bits of the line history (20_memory.md R77) are the samples shifted into `DR` (41_primitives.md
R151, 20_memory.md R65). -/

namespace Sys2Proof.Proofs.TransferBits

open Sys2Proof Sys2Proof.Machine Sys2Proof.Claims Sys2Proof.Laws Sys2Proof.Proofs.IdleBus
open Sys2Proof.Proofs.DataMoves (clockDrivenLow_iff)
open Sys2Proof.Proofs.CommandRuns
open Sys2Proof.Proofs.MicroOps (toNat_countUp doneAfter_countUp)

/-! ### Data bits of a growing line history -/

theorem dataBits_concat (before : Levels) (h : List Levels) (a : Levels) :
    dataBits before (h ++ [a]) = dataBits before h ++ (dataBit (h.getLastD before) a).toList := by
  induction h generalizing before with
  | nil => simp [dataBits]
  | cons x h ih =>
    rw [List.cons_append, dataBits, dataBits, ih, List.append_assoc, List.getLastD_cons]

/-- The line history has grown from `l`, CLOCK being low there, to CLOCK at `x` with the data bits `bits` (R77). -/
def Heard (l : List Levels) (x : Bool) (bits : List Bool) (b : Block) : Prop :=
  ∃ h, b.lineHist = l ++ h ∧ ∀ d, dataBits ⟨false, d⟩ h = bits ∧ (h.getLastD ⟨false, d⟩).clock = x

section

variable {l : List Levels} {x y : Bool} {bits bits' : List Bool} {b c : Block}

theorem heard_nothing (b : Block) : Heard b.lineHist false [] b := ⟨[], (List.append_nil _).symm, fun _ => ⟨rfl, rfl⟩⟩

/-- A micro-operation adds a data bit where CLOCK rises, and no other. -/
theorem Heard.tick (hh : Heard l x bits b) (hb : b.idleBus 1) (k : Nat)
    (hc : (c.env, c.ops, c.lineHist) = (b.env, b.ops, b.lineHist)) (hy : c.drivesClockLow = !y)
    (hbits : bits' = bits ++ if !x && y then [!c.drivesDataLow] else []) : Heard l y bits' (c.tick k) := by
  obtain ⟨h, hl, hd⟩ := hh
  refine ⟨h ++ [⟨y, !c.drivesDataLow⟩], by rw [lineHist_tick hb k hc, hl, hy, Bool.not_not, List.append_assoc], fun d => ⟨?_, by simp⟩⟩
  obtain ⟨hdb, hlast⟩ := hd d
  rw [dataBits_concat, hdb, hbits, dataBit, hlast]
  cases x <;> cases y <;> rfl

end

/-! ### Bits shifted in -/

/-- The last bits of a register after a row of shifts are the bits shifted in, the first highest (R65, R79). -/
theorem foldl_shiftIn_getLsbD (bits : List Bool) (d : Byte) {k : Nat} (hk : k < bits.length) (h8 : bits.length ≤ 8) :
    (bits.foldl shiftIn d).getLsbD (bits.length - 1 - k) = bits[k] := by
  induction bits using List.reverseRecOn with
  | nil => simp at hk
  | append_singleton bits v ih =>
    simp only [List.length_append, List.length_singleton] at hk h8 ⊢
    rw [List.foldl_append, List.foldl_cons, List.foldl_nil, Listings.shiftIn_getLsbD _ _ _ (by omega)]
    by_cases hlast : k = bits.length
    · subst hlast
      simp
    · rw [if_neg (by omega), show bits.length + 1 - 1 - k - 1 = bits.length - 1 - k by omega, ih (by omega) (by omega),
        List.getElem_append_left (by omega)]

/-- Eight bits shifted in are the whole register. -/
theorem eq_map_of_foldl_shiftIn {bits : List Bool} (h8 : bits.length = 8) (d : Byte) :
    bits = (List.range 8).map fun k => (bits.foldl shiftIn d).getLsbD (7 - k) := by
  refine List.ext_getElem (by simp [h8]) fun k hk _ => ?_
  rw [List.getElem_map, List.getElem_range, ← foldl_shiftIn_getLsbD bits d hk (by omega), h8]

/-! ### The labels of transfer -/

/-- Bits heard before a label with CLOCK low, and the count and `DR` that go with them. -/
structure AtLow (l : List Levels) (d : Byte) (bits : List Bool) (b : Block) : Prop where
  clock : ClockLow b
  heard : Heard l false bits b
  dr : b.dr = bits.foldl shiftIn d
  done : b.done = false
  cnt : b.cnt.toNat = 2 * bits.length

/-- The same with CLOCK high: the last bit heard is the level of DATA, not yet shifted in. -/
structure AtHigh (l : List Levels) (d : Byte) (bits : List Bool) (b : Block) : Prop where
  clock : ClockReleased b
  heard : Heard l true (bits ++ [!b.drivesDataLow]) b
  dr : b.dr = bits.foldl shiftIn d
  done : b.done = false
  cnt : b.cnt.toNat = 2 * bits.length + 1

/-- All eight bits heard and shifted in. -/
structure AtEnd (l : List Levels) (d : Byte) (bits : List Bool) (b : Block) : Prop where
  clock : ClockLow b
  heard : Heard l false bits b
  dr : b.dr = bits.foldl shiftIn d
  length : bits.length = 8

/-- What a transfer of eight bits from the byte `d` has heard before each label (R151). -/
def XferShows (l : List Levels) (d : Byte) (p : XferPos) (b : Block) : Prop :=
  match p with
  | .x1 w => w = .eight ∧ ClockLow b ∧ b.lineHist = l ∧ b.dr = d
  | .x2 _ => ∃ bits, AtLow l d bits b
  | .x3 _ => ∃ bits, AtLow l d bits b
  | .x4 _ => ∃ bits, AtHigh l d bits b
  | .x5 _ => ∃ bits, AtHigh l d bits b
  | .x6 _ => ∃ bits, AtHigh l d bits b
  | .x7 _ => ∃ bits, AtLow l d bits b ∨ (b.done = true ∧ AtEnd l d bits b)

section

variable {l : List Levels} {d : Byte} {bits : List Bool} {b : Block}

theorem drivesClockLow_of_clockLow (h : ClockLow b) : b.drivesClockLow = true := by simp [Block.drivesClockLow, h.1, h.2]

theorem drivesClockLow_of_clockReleased (h : ClockReleased b) : b.drivesClockLow = false := by simp [Block.drivesClockLow, h.2]

/-- A delay with CLOCK low (X2, X7). -/
theorem AtLow.delay (h : AtLow l d bits b) (hb : b.idleBus 1) (k : DelaySel) : AtLow l d bits (b.delay k) :=
  ⟨h.clock, h.heard.tick hb _ rfl (drivesClockLow_of_clockLow h.clock) (by simp), h.dr, h.done, h.cnt⟩

/-- The rising strobe (X3) lets the next bit be heard. -/
theorem AtLow.rises (h : AtLow l d bits b) (hb : b.idleBus 1) : AtHigh l d bits b.risingStrobe := by
  have hcnt := h.cnt
  have hlt := b.cnt.isLt
  refine ⟨⟨h.clock.1, rfl⟩, h.heard.tick hb 0 rfl (drivesClockLow_of_clockReleased ⟨h.clock.1, rfl⟩) rfl, h.dr, ?done, ?cnt⟩
  case done =>
    have hne : b.cnt ≠ 15#4 := by bv_omega
    rw [StateFields.risingStrobe_done, ← Bool.not_eq_true, doneAfter_countUp, h.done]
    simp [hne]
  case cnt =>
    rw [StateFields.risingStrobe_cnt, toNat_countUp]
    omega

/-- A poll that passes, and a delay, with CLOCK high (X4, X5). -/
theorem AtHigh.stays (h : AtHigh l d bits b) (hb : b.idleBus 1) (n k : Nat) : AtHigh l d bits ({ b with pollN := n }.tick k) :=
  ⟨h.clock, h.heard.tick hb k rfl (drivesClockLow_of_clockReleased h.clock) (List.append_nil _).symm,
    h.dr, h.done, h.cnt⟩

/-- The falling strobe (X6) shifts in the bit that was heard; the eighth sets `DONE`. -/
theorem AtHigh.falls (h : AtHigh l d bits b) (hb : b.idleBus 1) :
    ∃ bits, AtLow l d bits b.fallingStrobe ∨ (b.fallingStrobe.done = true ∧ AtEnd l d bits b.fallingStrobe) := by
  have hlow : ClockLow b.fallingStrobe := ⟨h.clock.1, rfl⟩
  have hheard : Heard l false (bits ++ [!b.drivesDataLow]) b.fallingStrobe :=
    h.heard.tick hb 0 rfl (drivesClockLow_of_clockLow hlow) (by simp)
  have hdr : b.fallingStrobe.dr = (bits ++ [!b.drivesDataLow]).foldl shiftIn d := by
    rw [StateFields.fallingStrobe_dr, sample_of_idleBus hb, h.dr, List.foldl_append]
    rfl
  have hdone : b.fallingStrobe.done = true ↔ b.cnt = 15#4 := by
    rw [StateFields.fallingStrobe_done, doneAfter_countUp, h.done]
    simp
  have hcnt := h.cnt
  have hlt := b.cnt.isLt
  refine ⟨bits ++ [!b.drivesDataLow], ?_⟩
  by_cases hlast : b.cnt = 15#4
  · refine .inr ⟨hdone.2 hlast, hlow, hheard, hdr, ?_⟩
    rw [List.length_append, List.length_singleton]
    bv_omega
  · refine .inl ⟨hlow, hheard, hdr, Bool.eq_false_iff.2 (mt hdone.1 hlast), ?_⟩
    rw [StateFields.fallingStrobe_cnt, toNat_countUp, List.length_append, List.length_singleton]
    bv_omega

end

/-- On an idle bus `transfer` returns the eight bits it has shown. -/
theorem xferAdv_shows (l : List Levels) (d : Byte) (p : XferPos) (b : Block) (hb : b.idleBus 1) (hs : XferShows l d p b) :
    Gives (XferShows l d) (fun r c => ∃ bits, Heard l false bits c ∧ r = bits.foldl shiftIn d ∧ bits.length = 8) (xferAdv p b) := by
  cases p with
  | x1 w =>
    obtain ⟨rfl, hlow, rfl, rfl⟩ := hs
    rw [Acceptance.xferAdv_x1 hlow]
    exact ⟨[], hlow, (heard_nothing b).tick hb 0 rfl (drivesClockLow_of_clockLow hlow) rfl, rfl, rfl, rfl⟩
  | x2 c =>
    obtain ⟨bits, h⟩ := hs
    exact ⟨bits, h.delay hb _⟩
  | x3 c =>
    obtain ⟨bits, h⟩ := hs
    rw [xferAdv, strobeAdv, Ops.strobe_rising h.clock.2]
    exact ⟨bits, h.rises hb⟩
  | x4 c =>
    obtain ⟨bits, h⟩ := hs
    rw [xferAdv, pollAdv_of_idleBus (l := .clock) hb (drivesClockLow_of_clockReleased h.clock)]
    exact ⟨bits, h.stays hb 0 0⟩
  | x5 c =>
    obtain ⟨bits, h⟩ := hs
    exact ⟨bits, h.stays hb b.pollN _⟩
  | x6 c =>
    obtain ⟨bits, h⟩ := hs
    have hsample : b.sample .clock = true := by
      rw [sample_of_idleBus hb, Block.drivesLow, drivesClockLow_of_clockReleased h.clock]
      rfl
    rw [xferAdv, strobeAdv, Ops.strobe_falling h.clock.2 hsample]
    exact h.falls hb
  | x7 c =>
    obtain ⟨bits, h | ⟨hdone, h⟩⟩ := hs
    · rw [xferAdv, if_neg (Bool.eq_false_iff.1 h.done)]
      exact ⟨bits, h.delay hb _⟩
    · rw [xferAdv, if_pos hdone]
      exact ⟨bits, h.heard.tick hb 0 rfl (drivesClockLow_of_clockLow h.clock) (by simp), h.dr, h.length⟩

/-- Settles O21: the run of `transfer` (`Listings.transfer`) with eight clock cycles, and on an idle bus what it shows (`xferAdv_shows`). -/
theorem transferEightBitsCapturesEightSamples : Obligations.TransferEightBitsCapturesEightSamples := by
  unfold Obligations.TransferEightBitsCapturesEightSamples
  intro s hs hb hl hn
  obtain ⟨h, m, hh, ht, hret, hrun⟩ :=
    runs_of_ends Runs.drives_xfer (n := 40) (Acceptance.xferAdv_x1 hl .eight) (Listings.transfer .eight s.blk hl.1 hl.2 hn)
  refine ⟨_, _, Listings.captured s.blk 5 8, exec_xfer8_accepted hs hb hl, hrun, MicroOps.completed_complete _ _ _,
    elapsed_of_passed hh ht rfl, fun k hk => captured_eight_getLsbD _ hk, rfl, rfl, rfl, rfl, rfl, rfl, rfl, rfl, rfl, rfl, ?event,
    fun hidle => ?heard⟩
  case event =>
    refine congrArg (fun e => s.blk.primHist ++ [e]) (?_ : transferEvent ⟨.eight, s.blk.dirData, s.blk.dr⟩ _ = _)
    cases s.blk.dirData <;> rfl
  case heard =>
    obtain ⟨bits, ⟨h', hl', hbits⟩, hr, h8⟩ :=
      returns_keeps Scope.xferAdv_ticks (xferAdv_shows s.blk.lineHist s.blk.dr) hret hidle ⟨rfl, hl, rfl, rfl⟩
    have hr : Listings.captured s.blk 5 8 = bits.foldl shiftIn s.blk.dr := hr
    exact ⟨h', hl', fun d => by rw [(hbits d).1, hr]; exact eq_map_of_foldl_shiftIn h8 _⟩

end Sys2Proof.Proofs.TransferBits
end

section
/-! What the two transactions share (42_transactions.md R170 to R172): acceptance with the operands copied, the start, the frame of a byte
the master sends, and the stop, none of them polling twice (70_reset_and_hazards.md R260). -/

namespace Sys2Proof.Proofs.Transactions

open Sys2Proof Sys2Proof.Machine Sys2Proof.Claims Sys2Proof.Laws Sys2Proof.Laws.Runs Sys2Proof.Laws.Listings
open Sys2Proof.Proofs.Acceptance
open Sys2Proof.Proofs.DataMoves (pinsOutput_iff)

/-! ### Acceptance -/

section

variable {s : State} {a : Nat} (hc : CanTransact s) (ha : a < 128)

include hc ha

theorem exec_send_accepted (bytes : List Byte) :
    exec (.send a bytes) s = .next (s.goto (afterS1 s.blk) (.send (sendLatches a bytes) (.w1 .s2))) := by
  obtain ⟨hs, hb, hp⟩ := hc
  rw [exec_send hs, Ops.require_true (beq_iff_eq.2 hb), Ops.require_true (decide_eq_true ha), Ops.require_true (pinsOutput_iff.2 hp)]

theorem exec_receive_accepted {c : Nat} (h0 : 0 < c) :
    exec (.receive a c) s = .next (s.goto (afterS1 s.blk) (.receive (recvLatches a c) (.q1 .s2))) := by
  obtain ⟨hs, hb, hp⟩ := hc
  rw [exec_receive hs, Ops.require_true (beq_iff_eq.2 hb), Ops.require_true (decide_eq_true ha), Ops.require_true (decide_eq_true h0),
    Ops.require_true (pinsOutput_iff.2 hp)]

end

theorem elapsed_afterS1 (b : Block) : Elapsed 1 0 b (afterS1 b) := Environment.elapsed_tick 0 rfl rfl rfl rfl rfl

/-- An address below 128 fits its latch (R32). -/
theorem toNat_addressLatch {a : Nat} (ha : a < 128) : (BitVec.ofNat 7 a).toNat = a := Nat.mod_eq_of_lt ha

/-- Settles O26: both transactions are accepted behind their tests (`exec_send_accepted`, `exec_receive_accepted`), with S1 as their first
micro-operation. -/
theorem transactionsCopyTheirOperands : Obligations.TransactionsCopyTheirOperands := by
  unfold Obligations.TransactionsCopyTheirOperands
  intro s a hc ha
  obtain ⟨-, -, hp⟩ := id hc
  exact ⟨fun bytes => ⟨_, _, exec_send_accepted hc ha bytes, rfl, toNat_addressLatch ha, rfl, rfl, rfl, ⟨rfl, rfl, rfl, rfl⟩,
      elapsed_afterS1 _, rfl, rfl, hp, ⟨rfl, rfl, rfl⟩, rfl, rfl, rfl, rfl⟩,
    fun c h0 => ⟨_, _, exec_receive_accepted hc ha h0, rfl, toNat_addressLatch ha, rfl, rfl, rfl, rfl, ⟨rfl, rfl, rfl, rfl⟩,
      elapsed_afterS1 _, rfl, rfl, hp, ⟨rfl, rfl, rfl⟩, rfl, rfl, rfl, rfl⟩⟩

/-! ### Between the frames of a transaction -/

/-- Where a frame, or the stop, can begin in a transaction issued at `b` (R156): CLOCK driven low, DATA an output with its latch released;
`evs` is what the transaction has written to the primitive history so far. What `passed` counts is as it was at `b`. -/
structure Between (b : Block) (evs : List PrimEvent) (r : Block) : Prop where
  kept : (r.cfg, r.env, r.ops, r.time, r.lineHist) = (b.cfg, b.env, b.ops, b.time, b.lineHist)
  clock : ClockLow r
  dirData : r.dirData = .output
  latchData : r.latchData = true
  primHist : r.primHist = b.primHist ++ evs

section

variable {b r : Block} {evs : List PrimEvent}

theorem Between.cfg (hr : Between b evs r) : r.cfg = b.cfg := congrArg Prod.fst hr.kept

theorem Between.answerAt (hr : Between b evs r) (k : Nat) : r.answerAt k = b.answerAt k := by
  have hkept := hr.kept
  simp only [Prod.mk.injEq] at hkept
  obtain ⟨-, henv, hops, -, -⟩ := hkept
  exact Ops.answerAt_of_env henv hops k

end

/-- The registers after `generateStart` (R156). -/
def started (b : Block) : Block :=
  { b with bus := .start, latchClock := false, latchData := true, afterStart := true, pollN := 0, primHist := b.primHist ++ [.start] }

/-- The registers after `sendByte v` with the acknowledgment bit `nack` (R156). -/
def byteSent (r : Block) (v : Byte) (nack : Bool) : Block :=
  { r with
    latchClock := false, dirData := .output, dr := 0xFF#8, cnt := 0#4, done := true, bus := .ackPhase, afterStart := false, pollN := 0
    primHist := r.primHist ++ [.byteOut v, .ackBit nack] }

/-- The registers after `generateStop` (R156). -/
def stopped (r : Block) : Block :=
  { r with bus := .idle, latchClock := true, latchData := true, afterStart := false, pollN := 0, primHist := r.primHist ++ [.stop] }

theorem between_started {b : Block} (hp : PinsOutput b) : Between b [.start] (started b) := ⟨rfl, ⟨hp.1, rfl⟩, hp.2, rfl, rfl⟩

section

variable {b r : Block} {evs : List PrimEvent} {n : Nat} (hr : Between b evs r)

include hr

theorem Between.byteSent (v : Byte) (nack : Bool) : Between b (evs ++ [.byteOut v, .ackBit nack]) (byteSent r v nack) :=
  ⟨hr.kept, ⟨hr.clock.1, rfl⟩, rfl, hr.latchData, by simp [Transactions.byteSent, hr.primHist]⟩

/-- `sendByte` (R154) as a frame of a transaction, `n` micro-operations after its beginning. -/
theorem Between.sendByte_ends (v : Byte) (ha : ∀ j, j < 53 → (b.answerAt (n + j)).clockLow = false) (h : List Levels) (m : Nat) :
    Ends byteAdv 53 (.b1 v) (passed r n h m) (!(b.answerAt (n + 49)).dataLow)
      (passed (Transactions.byteSent r v (!(b.answerAt (n + 49)).dataLow)) n h m) (9 * cycleTime b.cfg) := by
  have g := sendByte v (passed r n h m) hr.clock.1 hr.clock.2 fun j hj => by rw [passed_answerAt, hr.answerAt]; exact ha j hj
  rw [passed_answerAt, hr.answerAt, CommandRuns.byteEvent_output (by exact hr.dirData)] at g
  rw [← hr.cfg]
  exact g

/-- `generateStop` (R153) at the end of a transaction. -/
theorem Between.stop_ends (h7 : r.dr.getLsbD 7 = true) (h2 : (b.answerAt (n + 2)).clockLow = false)
    (h5 : (b.answerAt (n + 5)).dataLow = false) (h : List Levels) (m : Nat) :
    Ends stopAdv 7 .p1 (passed r n h m) () (passed (stopped r) n h m) (b.cfg.tHigh + b.cfg.tLow) := by
  have g := generateStop (passed r n h m) hr.clock.1 hr.dirData hr.clock.2 h7 (by rwa [passed_answerAt, hr.answerAt])
    (by rwa [passed_answerAt, hr.answerAt])
  rw [← hr.cfg]
  exact g

/-- A transaction's stop after a completed transfer leaves the registers of R36. -/
theorem Between.afterTransaction (ht : TransferDone r) (h : List Levels) (m : Nat) : AfterTransaction (passed (stopped r) n h m) :=
  ⟨hr.clock.1, hr.dirData, rfl, rfl, ht.1, ht.2, rfl, rfl, rfl⟩

end

end Sys2Proof.Proofs.Transactions
end

section
/-! `SEND` as a whole run, no poll repeated (42_transactions.md R171): the start, the frames up to the first that is not acknowledged, the
stop. -/

namespace Sys2Proof.Proofs.SendRuns

open Sys2Proof Sys2Proof.Machine Sys2Proof.Claims Sys2Proof.Laws Sys2Proof.Laws.Runs Sys2Proof.Laws.Listings
open Sys2Proof.Proofs.Transactions

/-! ### Frames -/

/-- The bytes a `SEND` makes frames of (R171): the address byte, then the payload. -/
def frameBytes (a : BitVec 7) (bytes : List Byte) : List Byte := addressWrite a :: bytes

/-- The frame after `k` acknowledged ones adds its two events. -/
theorem ackedFrames_take_succ {l : List Byte} {k : Nat} (hk : k < l.length) :
    ackedFrames (l.take (k + 1)) = ackedFrames (l.take k) ++ [.byteOut (l.getD k 0#8), .ackBit false] := by
  rw [List.take_succ_eq_append_getElem hk, List.getD_eq_getElem _ _ hk, ackedFrames, List.flatMap_append]
  rfl

/-- `send` with its latches in its label. -/
def sendListing (r : SendRun) : Block → Adv SendRun Result := sendAdv r.latches r.pos

theorem drives_sendListing : Drives sendListing (fun r => .send r.latches r.pos) (fun s r b => s.finish b r) := drives_send

/-! The listings `send` calls, run inside it. -/

section

variable {b r : Block} {n u : Nat}

theorem reaches_of_start (t : SendLatches) {q : StartPos} (he : Ends startAdv n q b () r u) :
    Reaches sendListing n ⟨t, .w1 q⟩ b ⟨t, .w2 (.b1 (addressWrite t.addr))⟩ r u :=
  he.call (inside := fun q => SendRun.mk t (.w1 q)) (after := fun _ b' => .goto ⟨t, .w2 (.b1 (addressWrite t.addr))⟩ b')
    (fun _ _ => rfl) fun _ _ => rfl

theorem reaches_of_address (t : SendLatches) {q : BytePos} {ack : Bool} (he : Ends byteAdv n q b ack r u) :
    Reaches sendListing n ⟨t, .w2 q⟩ b (sendNext (afterAddress t ack)) r u :=
  he.call (inside := fun q => SendRun.mk t (.w2 q)) (fun _ _ => rfl) fun _ _ => by rfl

theorem reaches_of_payload (t : SendLatches) {q : BytePos} {ack : Bool} (he : Ends byteAdv n q b ack r u) :
    Reaches sendListing n ⟨t, .w4 q⟩ b (sendNext (afterPayload t ack)) r u :=
  he.call (inside := fun q => SendRun.mk t (.w4 q)) (fun _ _ => rfl) fun _ _ => by rfl

theorem ends_of_stop (t : SendLatches) {q : StopPos} (he : Ends stopAdv n q b () r u) :
    Ends sendListing n ⟨t, .w6 q⟩ b (sendResult t) r u :=
  he.callReturn (inside := fun q => SendRun.mk t (.w6 q)) (after := fun _ b' => .ret (sendResult t) b') (fun _ _ => rfl)
    fun _ _ => rfl

end

/-- Where frame `k` begins when those before it were acknowledged; after the last frame, the stop. -/
def atFrame (a : BitVec 7) (bytes : List Byte) : Nat → SendRun
  | 0 => ⟨⟨a, bytes, 0, true⟩, .w2 (.b1 (addressWrite a))⟩
  | k + 1 => sendNext ⟨a, bytes, k, true⟩

/-- W3 with a payload byte left (R171). -/
theorem sendNext_payload {t : SendLatches} (hok : t.ok = true) (hi : t.i < t.bytes.length) :
    sendNext t = ⟨t, .w4 (.b1 (t.bytes.getD t.i 0#8))⟩ := if_pos (by simp [hok, hi])

/-- W3 with no payload byte left, or the last frame not acknowledged (R171). -/
theorem sendNext_stop {t : SendLatches} (h : t.ok = true → t.bytes.length ≤ t.i) : sendNext t = ⟨t, .w6 .p1⟩ :=
  if_neg (by simpa using h)

section

variable {a : BitVec 7} {bytes : List Byte} {b r : Block} {evs : List PrimEvent} {n k : Nat}

/-- One frame of a `SEND`, `n` micro-operations after its beginning (R171 W2, W4). -/
theorem frame_reaches (hr : Between b evs r) (hk : k ≤ bytes.length) (ha : ∀ j, j < 53 → (b.answerAt (n + j)).clockLow = false)
    (h : List Levels) (m : Nat) :
    Reaches sendListing 53 (atFrame a bytes k) (passed r n h m) (sendNext ⟨a, bytes, k, (b.answerAt (n + 49)).dataLow⟩)
      (passed (byteSent r ((frameBytes a bytes).getD k 0#8) (!(b.answerAt (n + 49)).dataLow)) n h m) (9 * cycleTime b.cfg) := by
  cases k with
  | zero =>
    have g := reaches_of_address ⟨a, bytes, 0, true⟩ (hr.sendByte_ends (addressWrite a) ha h m)
    rwa [afterAddress, Bool.not_not] at g
  | succ k =>
    have g := reaches_of_payload ⟨a, bytes, k, true⟩ (hr.sendByte_ends (bytes.getD k 0#8) ha h m)
    rw [afterPayload, Bool.not_not] at g
    rw [atFrame, sendNext_payload rfl (by exact hk)]
    exact g

/-- The start and `k` acknowledged frames. -/
theorem frames_reach (hp : PinsOutput b) (hk : k ≤ bytes.length + 1) (ha : ∀ j, j < 7 + 53 * k → (b.answerAt j).clockLow = false)
    (hack : ∀ i, i < k → (b.answerAt (7 + 53 * i + 49)).dataLow = true) :
    ∃ r, Between b (.start :: ackedFrames ((frameBytes a bytes).take k)) r ∧
      Reaches sendListing (7 + 53 * k) ⟨⟨a, bytes, 0, true⟩, .w1 .s1⟩ b (atFrame a bytes k) r
        (b.cfg.tSetup + b.cfg.tHigh + k * (9 * cycleTime b.cfg)) := by
  induction k with
  | zero =>
    refine ⟨started b, between_started hp, ?_⟩
    rw [Nat.zero_mul]
    exact reaches_of_start ⟨a, bytes, 0, true⟩ (generateStart b hp.1 hp.2 (ha 1 (by omega)))
  | succ k ih =>
    obtain ⟨r, hr, g⟩ := ih (by omega) (fun j hj => ha j (by omega)) fun i hi => hack i (by omega)
    have g := g.trans fun h m => frame_reaches hr (by omega) (fun j hj => ha _ (by omega)) h m
    rw [hack k (by omega)] at g
    refine ⟨byteSent r ((frameBytes a bytes).getD k 0#8) false, ?_, ?_⟩
    · rw [ackedFrames_take_succ (by simpa [frameBytes] using hk)]
      exact hr.byteSent _ false
    · rw [Nat.mul_succ, ← Nat.add_assoc, Nat.succ_mul k (9 * _), ← Nat.add_assoc]
      exact g

/-- The whole of a `SEND` whose last frame is frame `k`: the last of the payload, or one that is not acknowledged. -/
theorem send_ends (hp : PinsOutput b) (hk : k ≤ bytes.length) (ha : b.noStretch (14 + 53 * (k + 1)))
    (hack : ∀ i, i < k → (b.answerAt (7 + 53 * i + 49)).dataLow = true) {ok : Bool}
    (hok : (b.answerAt (7 + 53 * k + 49)).dataLow = ok) (hlast : ok = true → k = bytes.length)
    (hstop : (b.answerAt (12 + 53 * (k + 1))).dataLow = false) :
    ∃ r, Between b (.start :: ackedFrames ((frameBytes a bytes).take k)) r ∧
      Ends sendListing (12 + 53 * (k + 1) + 2) ⟨⟨a, bytes, 0, true⟩, .w1 .s1⟩ b (sendResult ⟨a, bytes, k, ok⟩)
        (stopped (byteSent r ((frameBytes a bytes).getD k 0#8) (!ok))) (frames b.cfg (k + 1)) := by
  obtain ⟨r, hr, g⟩ := frames_reach (a := a) hp (Nat.le_succ_of_le hk) (fun j hj => ha j (by omega)) hack
  have g := g.trans fun h m => frame_reaches hr hk (fun j hj => ha _ (by omega)) h m
  rw [hok, sendNext_stop (by exact fun h => (hlast h).ge)] at g
  have hr' := hr.byteSent ((frameBytes a bytes).getD k 0#8) (!ok)
  have e : 7 + 53 * k + 53 = 7 + 53 * (k + 1) := by omega
  rw [e] at g
  have g := g.ends fun h m => ends_of_stop _ (hr'.stop_ends (by simp [byteSent]) (ha _ (by omega)) (by rw [← hstop]; congr 2; omega) h m)
  refine ⟨r, hr, ?_⟩
  have hn : 12 + 53 * (k + 1) + 2 = 7 + 53 * (k + 1) + 7 := by omega
  have ht : frames b.cfg (k + 1) = b.cfg.tSetup + b.cfg.tHigh + k * (9 * cycleTime b.cfg) + 9 * cycleTime b.cfg +
      (b.cfg.tHigh + b.cfg.tLow) := by
    rw [frames, Claims.cycle, cycleTime]; ring
  rw [hn, ht]
  exact g

end

/-! ### The command -/

/-- The address byte of a `SEND` (R91). -/
theorem addressWrite_ofNat {a : Nat} (ha : a < 128) : addressWrite (BitVec.ofNat 7 a) = BitVec.ofNat 8 (2 * a) := by
  refine BitVec.eq_of_toNat_eq ?_
  rw [addressWrite, Encoding.toNat_append_bit, toNat_addressLatch ha, BitVec.toNat_ofNat]
  exact (Nat.mod_eq_of_lt (by omega)).symm

/-- `SEND` from its issue to its result, frame `k` its last: `ok` says whether that one was acknowledged too. -/
theorem send_runs {s : State} {a k : Nat} {bytes : List Byte} {ok : Bool} (hc : CanTransact s) (ha : a < 128) (hk : k ≤ bytes.length)
    (hn : s.blk.noStretch (14 + 53 * (k + 1))) (hack : ∀ i, i < k → (s.blk.answerAt (7 + 53 * i + 49)).dataLow = true)
    (hok : (s.blk.answerAt (7 + 53 * k + 49)).dataLow = ok) (hlast : ok = true → k = bytes.length)
    (hstop : (s.blk.answerAt (12 + 53 * (k + 1))).dataLow = false) :
    ∃ s1 t, exec (.send a bytes) s = .next s1 ∧ runs (13 + 53 * (k + 1)) s1 = .next t ∧ t.seq = .ready ∧
      t.result = some (sendResult ⟨BitVec.ofNat 7 a, bytes, k, ok⟩) ∧ SameHost s t ∧
      Elapsed (14 + 53 * (k + 1)) (frames s.blk.cfg (k + 1)) s.blk t.blk ∧ AfterTransaction t.blk ∧ t.blk.dr = 0xFF#8 ∧
      t.blk.primHist = s.blk.primHist ++ .start :: ackedFrames ((BitVec.ofNat 8 (2 * a) :: bytes).take k) ++
        [.byteOut ((BitVec.ofNat 8 (2 * a) :: bytes).getD k 0#8), .ackBit (!ok), .stop] := by
  have hp : PinsOutput s.blk := hc.2.2
  obtain ⟨r, hr, he⟩ := send_ends (a := BitVec.ofNat 7 a) hp hk hn hack hok hlast hstop
  have h1 : sendListing ⟨sendLatches a bytes, .w1 .s1⟩ s.blk = .goto ⟨sendLatches a bytes, .w1 .s2⟩ (Acceptance.afterS1 s.blk) := by
    rw [sendListing, sendAdv, Acceptance.startAdv_s1 hp]; rfl
  obtain ⟨h, m, hh, ht, -, hrun⟩ := CommandRuns.runs_of_ends drives_sendListing h1 he
  have e1 : 12 + 53 * (k + 1) + 1 = 13 + 53 * (k + 1) := by omega
  have e2 : 12 + 53 * (k + 1) + 2 = 14 + 53 * (k + 1) := by omega
  rw [e2] at hh hrun
  rw [e1] at hrun
  have hr' := hr.byteSent ((frameBytes (BitVec.ofNat 7 a) bytes).getD k 0#8) (!ok)
  refine ⟨_, _, exec_send_accepted hc ha bytes, hrun, rfl, rfl, ⟨rfl, rfl, rfl, rfl⟩, CommandRuns.elapsed_of_passed hh ht hr.kept,
    hr'.afterTransaction ⟨rfl, rfl⟩ h m, rfl, ?_⟩
  rw [← addressWrite_ofNat ha]
  simp [stopped, byteSent, hr.primHist, frameBytes]

/-- Settles O27: the run of `SEND` (`send_runs`) with the last frame of the payload acknowledged too. -/
theorem sendAllAcknowledgedSucceeds : Obligations.SendAllAcknowledgedSucceeds := by
  unfold Obligations.SendAllAcknowledgedSucceeds
  intro a bytes s hc ha hn hack hstop
  obtain ⟨s1, t, hexec, hrun, hseq, hres, hhost, helapsed, hafter, hdr, hprim⟩ :=
    send_runs hc ha le_rfl hn (fun i hi => hack i hi.le) (hack _ le_rfl) (fun _ => rfl) hstop
  refine ⟨s1, t, hexec, hrun, ⟨hseq, hres, hhost⟩, helapsed, hafter, hdr, ?_⟩
  have hall := ackedFrames_take_succ (l := BitVec.ofNat 8 (2 * a) :: bytes) (k := bytes.length) (by simp)
  rw [List.take_of_length_le (by simp)] at hall
  rw [hprim, hall]
  simp

/-- Settles O28: the run of `SEND` (`send_runs`) with frame `j` its last and not acknowledged. -/
theorem sendStopsAtTheFirstNack : Obligations.SendStopsAtTheFirstNack := by
  unfold Obligations.SendStopsAtTheFirstNack
  intro a bytes j s hc ha hj hn hack hnack hstop
  exact send_runs hc ha hj hn hack hnack nofun hstop

end Sys2Proof.Proofs.SendRuns
end

section
/-! `RECEIVE` as a whole run, no poll repeated (42_transactions.md R172): the start, the address frame, the bytes with the master's
acknowledgment bits, the stop. -/

namespace Sys2Proof.Proofs.ReceiveRuns

open Sys2Proof Sys2Proof.Machine Sys2Proof.Claims Sys2Proof.Laws Sys2Proof.Laws.Runs Sys2Proof.Laws.Listings
open Sys2Proof.Proofs.Transactions

/-- `receive` with its latches in its label. -/
def recvListing (r : RecvRun) : Block → Adv RecvRun Result := recvAdv r.latches r.pos

theorem drives_recvListing : Drives recvListing (fun r => .receive r.latches r.pos) (fun s r b => s.finish b r) := drives_receive

/-! The listings `receive` calls, run inside it. -/

section

variable {b r : Block} {n u : Nat} (t : RecvLatches)

theorem reaches_of_start {q : StartPos} (he : Ends startAdv n q b () r u) :
    Reaches recvListing n ⟨t, .q1 q⟩ b ⟨t, .q2 (.b1 (addressRead t.addr))⟩ r u :=
  he.call (inside := fun q => RecvRun.mk t (.q1 q)) (after := fun _ b' => .goto ⟨t, .q2 (.b1 (addressRead t.addr))⟩ b')
    (fun _ _ => rfl) fun _ _ => rfl

/-- Q3 does not take the exit of R214. -/
theorem reaches_of_address {q : BytePos} {ack : Bool} (he : Ends byteAdv n q b ack r u)
    (hcheck : r.cfg.rxCheckAddrAck = false ∨ ack = false) : Reaches recvListing n ⟨t, .q2 q⟩ b (recvNext t) r u :=
  he.call (inside := fun q => RecvRun.mk t (.q2 q)) (after := fun ack b' => .goto (recvAfterAddress b'.cfg.rxCheckAddrAck t ack) b')
    (fun _ _ => rfl) fun h m => by
      have hgo : ¬ ((passed r n h m).cfg.rxCheckAddrAck && ack) = true := by
        rw [passed_cfg, Bool.and_eq_true]
        rintro ⟨h1, h2⟩
        obtain e | e := hcheck
        · rw [h1] at e; cases e
        · rw [h2] at e; cases e
      rw [recvAfterAddress, if_neg hgo]

theorem reaches_of_read {x : XferPos} {v : Byte} (he : Ends xferAdv n x b v r u) :
    Reaches recvListing n ⟨t, .q6 x⟩ b ⟨t, .q7 v⟩ r u :=
  he.call (inside := fun x => RecvRun.mk t (.q6 x)) (fun _ _ => rfl) fun _ _ => by rfl

theorem reaches_of_ack {x : XferPos} {v d : Byte} (he : Ends xferAdv n x b d r u) :
    Reaches recvListing n ⟨t, .q9 v x⟩ b (recvNext (afterRead t v)) r u :=
  he.call (inside := fun x => RecvRun.mk t (.q9 v x)) (fun _ _ => rfl) fun _ _ => by rfl

theorem ends_of_stop {q : StopPos} (he : Ends stopAdv n q b () r u) :
    Ends recvListing n ⟨t, .q11 q⟩ b ⟨.ok, .bytes t.out⟩ r u :=
  he.callReturn (inside := fun q => RecvRun.mk t (.q11 q)) (after := fun _ b' => .ret ⟨.ok, .bytes t.out⟩ b') (fun _ _ => rfl)
    fun _ _ => rfl

end

/-! ### One byte -/

/-- The byte that the eight samples of Q6 give, Q5 being `n` micro-operations away. -/
def readValue (r : Block) (n : Nat) : Byte := captured { r with dirData := .input } (6 + n) 8

/-- `DR` after the master's acknowledgment bit (Q9), Q5 being `n` micro-operations away. -/
def ackValue (t : RecvLatches) (r : Block) (n : Nat) : Byte := captured { r with dirData := .output, dr := ackOrNack t } (50 + n) 1

/-- The registers after a byte `v` and its acknowledgment bit, which leaves `d` in `DR`. -/
def byteRead (r : Block) (v d : Byte) : Block :=
  { r with
    latchClock := false, dirData := .output, dr := d, cnt := 0#4, done := true, bus := .ackPhase, afterStart := false, pollN := 0
    primHist := r.primHist ++ [.byteIn v] ++ [.ackBit (d.getLsbD 0)] }

/-- Q5 to Q10 (R172). -/
theorem byte_reaches (t : RecvLatches) (b : Block) (hl : ClockLow b) (ha : ∀ j, j < 52 → (b.answerAt j).clockLow = false) :
    Reaches recvListing 52 ⟨t, .q5⟩ b (recvNext (afterRead t (readValue b 0))) (byteRead b (readValue b 0) (ackValue t b 0))
      (9 * cycleTime b.cfg) := by
  let v := readValue b 0
  let r1 : Block := { b with bus := .dataPhase, dirData := .input }
  let r2 : Block := { b with
    bus := .ackPhase, latchClock := false, dirData := .output, dr := v, cnt := 0#4, done := true, pollN := 0
    primHist := b.primHist ++ [.byteIn v] }
  have g := (Reaches.refl recvListing ⟨t, .q5⟩ b).step (k := 0) (q' := ⟨t, .q6 (.x1 .eight)⟩) (r' := r1) fun h m => rfl
  have g := g.trans fun h m => reaches_of_read t
    (transfer_passed .eight r1 1 h m hl.1 hl.2 fun j hj => ha _ (by simp only [bitCount] at hj; omega))
  rw [show captured r1 (5 + (0 + 1)) (bitCount .eight) = v from captured_congr rfl rfl rfl (fun _ => rfl) _] at g
  have g := g.step (k := 0) (q' := ⟨t, .q8 v⟩) (r' := r2) fun h m => rfl
  have g := g.step (k := 0) (q' := ⟨t, .q9 v (.x1 .one)⟩) (r' := { r2 with dr := ackOrNack t }) fun h m => rfl
  have g := g.trans fun h m => reaches_of_ack t
    (transfer_passed .one _ 45 h m hl.1 rfl fun j hj => ha _ (by simp only [bitCount] at hj; omega))
  rw [show captured { r2 with dr := ackOrNack t } (5 + 45) (bitCount .one) = ackValue t b 0 from
    captured_congr rfl rfl rfl (fun _ => rfl) _] at g
  have ht : 9 * cycleTime b.cfg = 0 + 0 + bitCount .eight * cycleTime b.cfg + 0 + 0 + bitCount .one * cycleTime b.cfg := by
    simp only [bitCount]; omega
  rw [ht]
  exact g

/-- The samples ahead, `n` micro-operations later. -/
theorem captured_passed (b : Block) (n : Nat) (h : List Levels) (m off k : Nat) :
    captured (passed b n h m) off k = captured b (off + n) k :=
  captured_congr (c := passed b n h m) (b := b) rfl rfl rfl (fun j => by rw [passed_answerAt]; congr 1; omega) k

theorem readValue_passed (r : Block) (n : Nat) (h : List Levels) (m : Nat) : readValue (passed r n h m) 0 = readValue r n :=
  captured_passed { r with dirData := .input } n h m 6 8

theorem ackValue_passed (t : RecvLatches) (r : Block) (n : Nat) (h : List Levels) (m : Nat) :
    ackValue t (passed r n h m) 0 = ackValue t r n :=
  captured_passed { r with dirData := .output, dr := ackOrNack t } n h m 50 1

section

variable {b r : Block} {evs : List PrimEvent} {n : Nat} (t : RecvLatches) (hr : Between b evs r)

include hr

theorem between_byteRead (v d : Byte) : Between b (evs ++ [.byteIn v, .ackBit (d.getLsbD 0)]) (byteRead r v d) :=
  ⟨hr.kept, ⟨hr.clock.1, rfl⟩, rfl, hr.latchData, by simp [byteRead, hr.primHist]⟩

/-- One byte of a `RECEIVE`, `n` micro-operations after its beginning. -/
theorem next_byte_reaches (ha : ∀ j, j < 52 → (b.answerAt (n + j)).clockLow = false) (h : List Levels) (m : Nat) :
    Reaches recvListing 52 ⟨t, .q5⟩ (passed r n h m) (recvNext (afterRead t (readValue r n)))
      (passed (byteRead r (readValue r n) (ackValue t r n)) n h m) (9 * cycleTime b.cfg) := by
  have g := byte_reaches t (passed r n h m) hr.clock fun j hj => by rw [passed_answerAt, hr.answerAt]; exact ha j hj
  rw [readValue_passed, ackValue_passed] at g
  rw [← hr.cfg]
  exact g

/-- The samples of a byte, the first in bit 7 (R65): DATA is left to the environment. -/
theorem readValue_getLsbD {i : Nat} (hi : i < 8) :
    (readValue r n).getLsbD (7 - i) = !(b.answerAt (n + 6 + 5 * i)).dataLow := by
  rw [readValue, captured_getLsbD _ _ _ _ le_rfl (by omega), if_pos (by omega), show 8 - 1 - (7 - i) = i by omega, Nat.add_comm _ (5 * i),
    Nat.add_comm n, ← hr.answerAt]
  rfl

/-- The level of DATA in the master's acknowledgment bit: its own bit, wired to the environment's (R62, R63). -/
theorem ackValue_sample : (ackValue t r n).getLsbD 0 = ((ackOrNack t).getLsbD 7 && !(b.answerAt (n + 50)).dataLow) := by
  rw [ackValue, captured_getLsbD _ _ _ _ (by omega) (by omega), if_pos (by omega)]
  show (!((true && (!r.latchData || !(ackOrNack t).getLsbD 7)) || (r.answerAt (5 * 0 + (50 + n))).dataLow)) = _
  rw [hr.latchData, hr.answerAt, Nat.mul_zero, Nat.zero_add, Nat.add_comm n]
  simp

/-- ACK (R95): the master holds DATA low in its own acknowledgment bit. -/
theorem ackValue_ack (ht : t.i + 1 ≠ t.count) : (ackValue t r n).getLsbD 0 = false := by
  rw [ackValue_sample t hr, ackOrNack, if_neg ht]
  rfl

/-- NACK (R95): the master leaves DATA to the environment. -/
theorem ackValue_nack (ht : t.i + 1 = t.count) : (ackValue t r n).getLsbD 0 = !(b.answerAt (n + 50)).dataLow := by
  rw [ackValue_sample t hr, ackOrNack, if_pos ht]
  rfl

end

/-- The NACK pattern shifted once (R36). -/
theorem ackValue_nack_upper (t : RecvLatches) (r : Block) (n : Nat) (ht : t.i + 1 = t.count) {i : Nat} (h0 : 0 < i) (hi : i < 8) :
    (ackValue t r n).getLsbD i = true := by
  rw [ackValue, captured_getLsbD _ _ _ _ (by omega) hi, if_neg (by omega)]
  simp only [ackOrNack, if_pos ht, nackPattern]
  interval_cases i <;> rfl

/-! ### The bytes -/

/-- The bytes `out` of a `RECEIVE` issued at `b` are the levels sampled (R172). -/
def Sampled (b : Block) (out : List Byte) : Prop :=
  ∀ k i, k < out.length → i < 8 → (out.getD k 0#8).getLsbD (7 - i) = !(b.answerAt (66 + 52 * k + 5 * i)).dataLow

theorem Sampled.snoc {b : Block} {out : List Byte} {v : Byte} (h : Sampled b out)
    (hv : ∀ i, i < 8 → v.getLsbD (7 - i) = !(b.answerAt (60 + 52 * out.length + 6 + 5 * i)).dataLow) : Sampled b (out ++ [v]) := by
  intro k i hk hi
  obtain hk | rfl : k < out.length ∨ k = out.length := by rw [List.length_append, List.length_singleton] at hk; omega
  · rw [List.getD_append _ _ _ _ hk]
    exact h k i hk hi
  · rw [List.getD_append_right _ _ _ _ le_rfl, Nat.sub_self, List.getD_cons_zero, hv i hi]
    congr 3
    omega

/-- The primitive history of a `RECEIVE` before its first byte. -/
def addressEvents (a : BitVec 7) (b : Block) : List PrimEvent :=
  [.start, .byteOut (addressRead a), .ackBit (!(b.answerAt 56).dataLow)]

/-- The primitive history of bytes that the master acknowledged. -/
def readEvents (out : List Byte) : List PrimEvent := out.flatMap fun v => [.byteIn v, .ackBit false]

theorem recvNext_byte {t : RecvLatches} (h : t.i < t.count) : recvNext t = ⟨t, .q5⟩ := if_pos h

theorem recvNext_stop {t : RecvLatches} (h : t.count ≤ t.i) : recvNext t = ⟨t, .q11 .p1⟩ := if_neg (Nat.not_lt.2 h)

section

variable {a : BitVec 7} {b : Block} {k : Nat} (hp : PinsOutput b)
  (hcheck : b.cfg.rxCheckAddrAck = false ∨ (b.answerAt 56).dataLow = true)

include hp hcheck

/-- The start and the address frame. -/
theorem address_reaches {c : Nat} (hc : 0 < c) (ha : ∀ j, j < 60 → (b.answerAt j).clockLow = false) :
    ∃ r, Between b (addressEvents a b) r ∧
      Reaches recvListing 60 ⟨⟨a, c, 0, []⟩, .q1 .s1⟩ b ⟨⟨a, c, 0, []⟩, .q5⟩ r
        (b.cfg.tSetup + b.cfg.tHigh + 9 * cycleTime b.cfg) := by
  have hr := between_started hp
  have g := reaches_of_start ⟨a, c, 0, []⟩ (generateStart b hp.1 hp.2 (ha 1 (by omega)))
  have g := g.trans fun h m => reaches_of_address ⟨a, c, 0, []⟩
    (hr.sendByte_ends (addressRead a) (fun j hj => ha _ (by omega)) h m) (hcheck.imp id fun e => by simpa using e)
  rw [recvNext_byte (by exact hc)] at g
  exact ⟨_, hr.byteSent _ _, g⟩

/-- The start, the address frame and `k` bytes of `c`, more to come. -/
theorem bytes_reach {c : Nat} (hk : k < c) (ha : ∀ j, j < 60 + 52 * k → (b.answerAt j).clockLow = false) :
    ∃ out r, out.length = k ∧ Sampled b out ∧ Between b (addressEvents a b ++ readEvents out) r ∧
      Reaches recvListing (60 + 52 * k) ⟨⟨a, c, 0, []⟩, .q1 .s1⟩ b ⟨⟨a, c, k, out⟩, .q5⟩ r
        (b.cfg.tSetup + b.cfg.tHigh + 9 * cycleTime b.cfg + k * (9 * cycleTime b.cfg)) := by
  induction k with
  | zero =>
    obtain ⟨r, hr, g⟩ := address_reaches (a := a) hp hcheck hk ha
    refine ⟨[], r, rfl, nofun, ?_, ?_⟩
    · simpa [readEvents] using hr
    · rw [Nat.zero_mul]
      exact g
  | succ k ih =>
    obtain ⟨out, r, hlen, hout, hr, g⟩ := ih (by omega) fun j hj => ha j (by omega)
    have g := g.trans fun h m => next_byte_reaches ⟨a, c, k, out⟩ hr (fun j hj => ha _ (by omega)) h m
    have hv := fun i => readValue_getLsbD (i := i) (n := 60 + 52 * k) hr
    have hack : (ackValue ⟨a, c, k, out⟩ r (60 + 52 * k)).getLsbD 0 = false := ackValue_ack _ hr (by exact hk.ne)
    rw [recvNext_byte (by exact hk)] at g
    generalize readValue r (60 + 52 * k) = v at g hv
    generalize ackValue ⟨a, c, k, out⟩ r (60 + 52 * k) = d at g hack
    have hr' := between_byteRead hr v d
    rw [hack] at hr'
    refine ⟨out ++ [v], byteRead r v d, by simp [hlen], hout.snoc (by rwa [hlen]), ?_, ?_⟩
    · simpa [readEvents] using hr'
    · rw [Nat.mul_succ, ← Nat.add_assoc, Nat.succ_mul k (9 * _), ← Nat.add_assoc]
      exact g

/-- The whole of a `RECEIVE` of `k + 1` bytes: `d` is what the last acknowledgment bit leaves in `DR`. -/
theorem receive_ends (ha : b.noStretch (67 + 52 * (k + 1))) (hstop : (b.answerAt (65 + 52 * (k + 1))).dataLow = false) :
    ∃ out v d r, out.length = k ∧ Sampled b (out ++ [v]) ∧ (∀ i, 0 < i → i < 8 → d.getLsbD i = true) ∧
      d.getLsbD 0 = (!(b.answerAt (58 + 52 * (k + 1))).dataLow) ∧ Between b (addressEvents a b ++ readEvents out) r ∧
      Ends recvListing (65 + 52 * (k + 1) + 2) ⟨⟨a, k + 1, 0, []⟩, .q1 .s1⟩ b ⟨.ok, .bytes (out ++ [v])⟩ (stopped (byteRead r v d))
        (frames b.cfg (k + 1 + 1)) := by
  obtain ⟨out, r, hlen, hout, hr, g⟩ := bytes_reach (a := a) hp hcheck (Nat.lt_succ_self k) fun j hj => ha j (by omega)
  have g := g.trans fun h m => next_byte_reaches ⟨a, k + 1, k, out⟩ hr (fun j hj => ha _ (by omega)) h m
  have hupper := fun i => @ackValue_nack_upper ⟨a, k + 1, k, out⟩ r (60 + 52 * k) rfl i
  have hr' := between_byteRead hr (readValue r (60 + 52 * k)) (ackValue ⟨a, k + 1, k, out⟩ r (60 + 52 * k))
  rw [recvNext_stop (by exact le_rfl)] at g
  have g := g.ends fun h m => ends_of_stop _ (hr'.stop_ends (hupper 7 (by omega) (by omega)) (ha _ (by omega))
    (by rw [← hstop]; congr 2; omega) h m)
  refine ⟨out, _, _, r, hlen, hout.snoc fun i hi => by rw [hlen]; exact readValue_getLsbD hr hi, hupper, ?_, hr, ?_⟩
  · rw [ackValue_nack _ hr rfl]
    congr 3
    omega
  · have hn : 65 + 52 * (k + 1) + 2 = 60 + 52 * k + 52 + 7 := by omega
    have ht : frames b.cfg (k + 1 + 1) = b.cfg.tSetup + b.cfg.tHigh + 9 * cycleTime b.cfg + k * (9 * cycleTime b.cfg) +
        9 * cycleTime b.cfg + (b.cfg.tHigh + b.cfg.tLow) := by
      rw [frames, Claims.cycle, cycleTime]; ring
    rw [hn, ht]
    exact g

end

/-! ### The command -/

/-- The address byte of a `RECEIVE` (R91). -/
theorem addressRead_ofNat {a : Nat} (ha : a < 128) : addressRead (BitVec.ofNat 7 a) = BitVec.ofNat 8 (2 * a + 1) := by
  refine BitVec.eq_of_toNat_eq ?_
  rw [addressRead, Encoding.toNat_append_bit, toNat_addressLatch ha, BitVec.toNat_ofNat]
  exact (Nat.mod_eq_of_lt (by omega)).symm

/-- Settles O29: the run of `RECEIVE` (`receive_ends`) behind its acceptance. -/
theorem receiveReturnsTheSampledBytes : Obligations.ReceiveReturnsTheSampledBytes := by
  unfold Obligations.ReceiveReturnsTheSampledBytes
  intro a c s hc ha h0 hcheck hn hstop
  obtain ⟨k, rfl⟩ : ∃ k, c = k + 1 := ⟨c - 1, by omega⟩
  have hp : PinsOutput s.blk := hc.2.2
  obtain ⟨out, v, d, r, hlen, hout, hupper, hsample, hr, he⟩ := receive_ends (a := BitVec.ofNat 7 a) hp hcheck hn hstop
  have h1 : recvListing ⟨recvLatches a (k + 1), .q1 .s1⟩ s.blk = .goto ⟨recvLatches a (k + 1), .q1 .s2⟩ (Acceptance.afterS1 s.blk) := by
    rw [recvListing, recvAdv, Acceptance.startAdv_s1 hp]; rfl
  obtain ⟨h, m, hh, ht, -, hrun⟩ := CommandRuns.runs_of_ends drives_recvListing h1 he
  have e1 : 65 + 52 * (k + 1) + 1 = 66 + 52 * (k + 1) := by omega
  have e2 : 65 + 52 * (k + 1) + 2 = 67 + 52 * (k + 1) := by omega
  rw [e2] at hh hrun
  rw [e1] at hrun
  have hr' := between_byteRead hr v d
  refine ⟨_, _, out ++ [v], exec_receive_accepted hc ha h0, hrun, ⟨rfl, rfl, rfl, rfl, rfl, rfl⟩,
    CommandRuns.elapsed_of_passed hh ht hr.kept, hr'.afterTransaction ⟨rfl, rfl⟩ h m, by simp [hlen],
    fun j i hj hi => hout j i (by simpa [hlen] using hj) hi, hupper, hsample, ?_⟩
  rw [← addressRead_ofNat ha]
  simp [stopped, byteRead, hr.primHist, addressEvents, readEvents, ← hlen]

end Sys2Proof.Proofs.ReceiveRuns
end

section
/-! The control flow of `BusState` (42_transactions.md R173, 41_primitives.md R155): every micro-operation of a listing, and every command as
it is issued, moves it along a transition or leaves it. -/

namespace Sys2Proof.Proofs.BusProtocol

open Sys2Proof Sys2Proof.Machine Sys2Proof.Laws Sys2Proof.Laws.Invariant Sys2Proof.Proofs.Scope
open Sys2Proof.Proofs.Acceptance Sys2Proof.Proofs.StepInvariant

/-- `BusState` is kept from `b` to `c`, or moves along a transition. -/
def Follows (b c : Block) : Prop := busTransition b.bus c.bus

theorem follows_of_same {b c : Block} (h : c.bus = b.bus) : Follows b c := .inl h.symm

/-- A byte begins after a start or after an acknowledgment bit, and `after_start` tells which (R155, R151 X0). -/
def BeforeByte (b : Block) : Prop := (b.bus = .start ∧ b.afterStart = true) ∨ (b.bus = .ackPhase ∧ b.afterStart = false)

theorem BeforeByte.transition {b : Block} (h : BeforeByte b) : busTransition b.bus (bytePhase b.afterStart) := by
  obtain ⟨hb, ha⟩ | ⟨hb, ha⟩ := h <;> simp [busTransition, bytePhase, hb, ha]

/-- Between commands the `BusState` that accepts a byte says what `after_start` is (R155). -/
theorem beforeByte_of_ready {b : Block} (hr : ReadyInv b) (hb : b.bus = .start ∨ b.bus = .ackPhase) : BeforeByte b := by
  obtain ⟨-, hstart⟩ := hr
  obtain hb | hb := hb
  · exact .inl ⟨hb, hstart.2 (.inl hb)⟩
  · exact .inr ⟨hb, by simpa [hb] using hstart⟩

/-! ### One micro-operation of a listing -/

section

variable {b : Block}

theorem pollAdv_follows {π ρ : Type} (l : Line) (here next : π) : Leaves (Follows b) (pollAdv b l here next : Adv π ρ) :=
  (Environment.pollAdv_leaves b l here next).mono fun _ ⟨_, hc⟩ => hc ▸ follows_of_same rfl

theorem strobeAdv_follows {π ρ : Type} (next : π) : Leaves (Follows b) (strobeAdv b next : Adv π ρ) := by
  generalize e : (strobeAdv b next : Adv π ρ) = r
  obtain ⟨rfl, -⟩ | ⟨rfl, -⟩ | ⟨rfl, -⟩ := Ops.strobeAdv_cases e
  · exact follows_of_same rfl
  · exact follows_of_same rfl
  · trivial

/-- A transfer nested in a caller finds the phase of its width already set (R151 X0). -/
theorem xferAdv_follows {w : Width} {x : XferPos} (hi : XferInv w x b) : Leaves (Follows b) (xferAdv x b) := by
  obtain ⟨hphase, hi⟩ := hi
  cases x with
  | x1 w' =>
    obtain ⟨rfl, hlow⟩ := hi
    rw [xferAdv_x1 hlow]
    cases w' with
    | eight => exact follows_of_same (Eq.symm hphase)
    | one => exact follows_of_same (Eq.symm hphase.1)
  | x3 c => exact strobeAdv_follows _
  | x4 c => exact pollAdv_follows _ _ _
  | x6 c => exact strobeAdv_follows _
  | x7 c => rw [xferAdv]; split <;> exact follows_of_same rfl
  | _ => exact follows_of_same rfl

/-- A start that runs is past S1: it stays in `Start` (R152). -/
theorem startAdv_follows {p : StartPos} (hi : StartInv p b) : Leaves (Follows b) (startAdv p b) := by
  obtain ⟨-, -, -, hi⟩ := hi
  cases p with
  | s1 => exact hi.elim
  | s2 => exact pollAdv_follows _ _ _
  | _ => exact follows_of_same rfl

/-- A stop enters `Stop` at P1 and leaves it for `Idle` at P7 (R153). -/
theorem stopAdv_follows {p : StopPos} (hi : StopInv p b) : Leaves (Follows b) (stopAdv p b) := by
  obtain ⟨hpins, hi⟩ := hi
  cases p with
  | p1 =>
    obtain ⟨hlow, hb⟩ := hi
    rw [stopAdv_p1 hpins hlow]
    exact (by simp [hb, busTransition] : busTransition b.bus .stop)
  | p3 => exact pollAdv_follows _ _ _
  | p6 => exact pollAdv_follows _ _ _
  | p7 =>
    obtain ⟨-, -, hb⟩ := hi
    exact (by simp [hb, busTransition] : busTransition b.bus .idle)
  | _ => exact follows_of_same rfl

/-- The phase of a byte goes over into its acknowledgment. -/
theorem transition_bytePhase_ack (afterStart : Bool) : busTransition (bytePhase afterStart) .ackPhase := by
  cases afterStart <;> simp [busTransition, bytePhase]

/-- A byte enters its phase at B1 and `AckPhase` at B3 (R154). -/
theorem byteAdv_follows {p : BytePos} (hi : ByteInv p b) : Leaves (Follows b) (byteAdv p b) := by
  cases p with
  | b1 v =>
    obtain ⟨hlow, hphase⟩ := hi
    rw [byteAdv_b1 hlow]
    exact BeforeByte.transition hphase
  | b2 x => exact (xferAdv_follows hi).call fun _ _ h => h
  | b3 =>
    obtain ⟨-, hb, -⟩ := hi
    exact (hb ▸ transition_bytePhase_ack b.afterStart : busTransition b.bus .ackPhase)
  | b4 x => exact (xferAdv_follows hi.1).call fun _ _ h => h
  | _ => exact follows_of_same rfl

theorem sendAdv_follows {t : SendLatches} {p : SendPos} (hi : SendInv t p b) : Leaves (Follows b) (sendAdv t p b) := by
  cases p with
  | w1 q => exact (startAdv_follows hi.1).call fun _ _ h => h
  | w2 q => exact (byteAdv_follows hi.1).call fun _ _ h => h
  | w4 q => exact (byteAdv_follows hi.1).call fun _ _ h => h
  | w6 q => exact (stopAdv_follows hi.1).call fun _ _ h => h

/-- `receive` itself enters `DataPhase` at Q5 and `AckPhase` at Q7 (R172). -/
theorem recvAdv_follows {t : RecvLatches} {p : RecvPos} (hi : RecvInv t p b) : Leaves (Follows b) (recvAdv t p b) := by
  obtain ⟨-, -, hi⟩ := hi
  cases p with
  | q1 q => exact (startAdv_follows hi.1).call fun _ _ h => h
  | q2 q => exact (byteAdv_follows hi.1).call fun _ _ h => h
  | q3 q => exact (stopAdv_follows hi.1).call fun _ _ h => h
  | q5 =>
    obtain ⟨-, -, -, hb, -⟩ := hi
    exact (by simp [hb, busTransition] : busTransition b.bus .dataPhase)
  | q6 x => exact (xferAdv_follows hi.1).call fun _ _ h => h
  | q7 v =>
    obtain ⟨-, -, -, hb, -⟩ := hi
    exact (by simp [hb, busTransition] : busTransition b.bus .ackPhase)
  | q8 v => exact follows_of_same rfl
  | q9 v x => exact (xferAdv_follows hi.1).call fun _ _ h => h
  | q11 q => exact (stopAdv_follows hi.1).call fun _ _ h => h

end

/-! ### One micro-operation of a running command -/

section

variable {s : State}

theorem waitHighStep_follows (l : Line) : AnyNext (fun t => Follows s.blk t.blk) (waitHighStep l s) := by
  obtain ⟨k, hk⟩ := Environment.waitHighNext_blk s l
  exact follows_of_same (by rw [hk]; rfl)

/-- The next micro-operation of a running command: R173, or the end of BusTimeout's recovery (R213). -/
theorem seqStep_follows (hi : Inv s) :
    AnyNext (fun t => Follows s.blk t.blk ∨ (t.blk.bus = .idle ∧ ∃ l, s.seq = .recover .r5 l)) (seqStep s) := by
  obtain ⟨hpos, -⟩ := hi
  obtain ⟨blk, seq, result, program, client, clientLog, inbox⟩ := s
  cases seq with
  | ready => exact .inl (follows_of_same rfl)
  | waitHigh l => exact (waitHighStep_follows l).mono fun _ => .inl
  | start p => exact ((startAdv_follows hpos).runListing fun _ _ h => h).mono fun _ => .inl
  | stop p => exact ((stopAdv_follows hpos.1).runListing fun _ _ h => h).mono fun _ => .inl
  | sendByte p => exact ((byteAdv_follows hpos).runListing fun _ _ h => h).mono fun _ => .inl
  | xfer x =>
    obtain ⟨w, hx⟩ := hpos
    exact ((xferAdv_follows hx).runListing fun _ _ h => h).mono fun _ => .inl
  | send t p => exact ((sendAdv_follows hpos).runListing fun _ _ h => h).mono fun _ => .inl
  | receive t p => exact ((recvAdv_follows hpos).runListing fun _ _ h => h).mono fun _ => .inl
  | recover p l =>
    cases p with
    | r5 => exact .inr ⟨rfl, l, rfl⟩
    | _ => exact .inl (follows_of_same rfl)

/-! ### A command as it is issued -/

/-- A listing is entered. -/
theorem goto_follows {c : Block} {q : Seq} (h : busTransition s.blk.bus c.bus) :
    AnyNext (fun t => Follows s.blk t.blk) (.next (s.goto c q)) := h

/-- A command that begins a byte, behind the test of R155. -/
theorem transition_of_byteAccepted {b : Block} (hr : ReadyInv b) (hb : byteAccepted b.bus = true) :
    busTransition b.bus (bytePhase b.afterStart) :=
  (beforeByte_of_ready hr (byteAccepted_iff.1 hb)).transition

/-- A command issued while the sequencer waits, with its first micro-operation. -/
theorem exec_follows (hs : s.seq = .ready) (hr : ReadyInv s.blk) (i : Instr) :
    AnyNext (fun t => Follows s.blk t.blk) (exec i s) := by
  have fromIdle : (s.blk.bus == .idle) = true → busTransition s.blk.bus .start := fun h => by
    simp [eq_of_beq h, busTransition]
  cases i with
  | strobe =>
    refine .issue ?_
    split
    · exact follows_of_same (MicroOps.strobe_oneEdge ‹_›).phase.1
    · trivial
  | waitHigh l => exact .issue (waitHighStep_follows l)
  | start =>
    rw [exec_start hs]
    exact anyNext_require fun hb => .require (goto_follows (fromIdle hb)) _ _
  | stop =>
    rw [exec_stop hs]
    refine anyNext_require fun hb => .require (.require ?_ _ _) _ _
    obtain hb | hb := byteAccepted_iff.1 hb <;> exact (by simp [hb, busTransition] : busTransition s.blk.bus .stop)
  | sendByte v =>
    rw [exec_sendByte hs]
    exact anyNext_require fun hb => .require (goto_follows (transition_of_byteAccepted hr hb)) _ _
  | xfer n cw =>
    refine .issue ?_
    rcases widthOf n cw with _ | _ | _
    · trivial
    · refine anyNext_require fun hb => ?_
      rw [xferStep_x1]
      exact .require (goto_follows (transition_of_byteAccepted hr hb)) _ _
    · refine anyNext_require fun hb => ?_
      rw [xferStep_x1]
      refine .require ?_ _ _
      obtain hb | hb := ackAccepted_iff.1 hb <;> exact (by simp [hb, busTransition] : busTransition s.blk.bus .ackPhase)
  | send a bytes =>
    rw [exec_send hs]
    exact anyNext_require fun hb => .require (.require (goto_follows (fromIdle hb)) _ _) _ _
  | receive a n =>
    rw [exec_receive hs]
    exact anyNext_require fun hb => .require (.require (.require (goto_follows (fromIdle hb)) _ _) _ _) _ _
  | _ => exact .issue (follows_of_same (by simp))

/-! ### The moves of the host -/

/-- What a move of the host does to the block: nothing but let its clock go on, or what the command it issues does. -/
def IssuesOrWaits (s t : State) : Prop :=
  (∃ m, t.blk = { s.blk with time := m }) ∨ ∃ i ops k, exec i { s with program := ops, client := k } = .next t

theorem exec_issues (i : Instr) (ops : List HostOp) (k : Client) :
    AnyNext (IssuesOrWaits s) (exec i { s with program := ops, client := k }) := by
  cases h : exec i { s with program := ops, client := k } with
  | next t => exact .inr ⟨i, ops, k, h⟩
  | fault r => trivial
  | refused r => trivial

theorem nextMove_issuesOrWaits : AnyNext (IssuesOrWaits s) (nextMove s) := by
  unfold nextMove
  split
  · exact .inl ⟨_, rfl⟩
  · unfold issueFetched
    split
    · exact exec_issues _ _ _
    · trivial
  · exact .withResult fun _ => .inl ⟨_, rfl⟩
  · exact exec_issues _ _ _
  · exact exec_issues _ _ _
  · exact exec_issues _ _ _

theorem hostStep_issuesOrWaits : AnyNext (IssuesOrWaits s) (hostStep s) := by
  unfold hostStep
  split
  · exact nextMove_issuesOrWaits
  · refine .withResult fun r => ?_
    split
    · exact .inl ⟨_, rfl⟩
    · exact exec_issues _ _ _
  · exact .withResult fun _ => .inl ⟨_, rfl⟩
  · exact .withResult fun _ => .inl ⟨_, rfl⟩
  · exact exec_issues _ _ _
  · exact .withResult fun _ => .inl ⟨_, rfl⟩

theorem hostStep_follows (hs : s.seq = .ready) (hi : Inv s) : AnyNext (fun t => Follows s.blk t.blk) (hostStep s) := by
  refine hostStep_issuesOrWaits.mono ?_
  rintro t (⟨m, ht⟩ | ⟨i, ops, k, h⟩)
  · exact follows_of_same (by rw [ht])
  · have key := exec_follows (s := { s with program := ops, client := k }) hs ((inv_iff_of_ready hs).1 hi).1 i
    rwa [h] at key

end

/-- Settles O50: a step is a move of the host (`hostStep_follows`) or a micro-operation of the running command (`seqStep_follows`). -/
theorem busStateFollowsTheProtocol : Obligations.BusStateFollowsTheProtocol := by
  unfold Obligations.BusStateFollowsTheProtocol
  intro s t hi h
  by_cases hs : s.seq = .ready
  · have key := hostStep_follows hs hi
    rw [← Ops.step_ready hs, h] at key
    exact .inl key
  · have key := seqStep_follows hi
    rwa [← Ops.step_running hs, h] at key

end Sys2Proof.Proofs.BusProtocol
end

section
/-! The float32 words of R195 (43_host_client.md): the fields of a word put together from an exponent and a fraction, the number it stands
for, and the words of the two exact conversions. -/

namespace Sys2Proof.Proofs.Floats

open Sys2Proof Sys2Proof.Machine Sys2Proof.Laws.Conversion

/-! ### The fields of a float32 word -/

/-- `w` is finite and stands for `q`. -/
def Represents (w : BitVec 32) (q : Rat) : Prop := f32Finite w = true ∧ f32Value w = q

/-- The positive word with exponent field `e` and fraction field `f`. -/
def f32Word (e f : Nat) : BitVec 32 := BitVec.ofNat 32 (e * 2 ^ 23 + f)

section

variable {e f : Nat}

theorem toNat_f32Word (he : e < 2 ^ 8) (hf : f < 2 ^ 23) : (f32Word e f).toNat = e * 2 ^ 23 + f := by
  rw [f32Word, BitVec.toNat_ofNat, Nat.mod_eq_of_lt (by omega)]

theorem exponent_f32Word (he : e < 2 ^ 8) (hf : f < 2 ^ 23) : ((f32Word e f).extractLsb' 23 8).toNat = e := by
  rw [BitVec.extractLsb'_toNat, toNat_f32Word he hf, Nat.shiftRight_eq_div_pow]
  omega

theorem fraction_f32Word (he : e < 2 ^ 8) (hf : f < 2 ^ 23) : ((f32Word e f).extractLsb' 0 23).toNat = f := by
  rw [BitVec.extractLsb'_toNat, toNat_f32Word he hf, Nat.shiftRight_zero]
  omega

theorem sign_f32Word (he : e < 2 ^ 8) (hf : f < 2 ^ 23) : (f32Word e f).getLsbD 31 = false := by
  rw [BitVec.getLsbD, toNat_f32Word he hf]
  exact Nat.testBit_lt_two_pow (by omega)

/-- A normal word: neither the exponent of the subnormals nor that of infinity. -/
theorem f32Word_represents (h0 : 0 < e) (he : e < 255) (hf : f < 2 ^ 23) :
    Represents (f32Word e f) (((2 ^ 23 + f : Nat) : Rat) * 2 ^ e / 2 ^ 150) := by
  have he' : e < 2 ^ 8 := by omega
  have hexp := exponent_f32Word he' hf
  refine ⟨bne_iff_ne.2 fun h => ?_, ?_⟩
  · rw [h] at hexp
    exact he.ne hexp.symm
  · simp only [f32Value, hexp, fraction_f32Word he' hf, sign_f32Word he' hf, if_neg h0.ne', Bool.false_eq_true, if_false]

end

/-- Setting the sign bit of a positive word negates its number. -/
theorem Represents.neg {w : BitVec 32} {q : Rat} (h : Represents w q) (hs : w.getLsbD 31 = false) :
    Represents (w ||| 0x80000000#32) (-q) := by
  obtain ⟨hfin, rfl⟩ := h
  have hexp : (w ||| 0x80000000#32).extractLsb' 23 8 = w.extractLsb' 23 8 := by
    rw [BitVec.extractLsb'_or]
    exact BitVec.or_zero
  have hfrac : (w ||| 0x80000000#32).extractLsb' 0 23 = w.extractLsb' 0 23 := by
    rw [BitVec.extractLsb'_or]
    exact BitVec.or_zero
  have hsign : (w ||| 0x80000000#32).getLsbD 31 = true := by simp
  refine ⟨by rwa [f32Finite, hexp], ?_⟩
  simp only [f32Value, hexp, hfrac, hsign, hs, Bool.false_eq_true, if_true, if_false]

/-! ### The word of `m / 65536` -/

section

variable {m : Nat}

theorem log2_lt_24 (hm : m < 2 ^ 24) : Nat.log2 m < 24 := by
  obtain rfl | h0 := Nat.eq_zero_or_pos m
  · decide
  · exact (Nat.log2_lt h0.ne').2 hm

/-- The significand of a number of at most 24 bits, shifted so that its leading one is bit 23. -/
theorem significand_bounds (h0 : m ≠ 0) (hm : m < 2 ^ 24) :
    2 ^ 23 ≤ m * 2 ^ (23 - Nat.log2 m) ∧ m * 2 ^ (23 - Nat.log2 m) < 2 ^ 24 := by
  have hlog := log2_lt_24 hm
  constructor
  · calc 2 ^ 23 = 2 ^ Nat.log2 m * 2 ^ (23 - Nat.log2 m) := by rw [← Nat.pow_add]; congr 1; omega
      _ ≤ m * 2 ^ (23 - Nat.log2 m) := Nat.mul_le_mul_right _ (Nat.log2_self_le h0)
  · calc m * 2 ^ (23 - Nat.log2 m) < 2 ^ (Nat.log2 m + 1) * 2 ^ (23 - Nat.log2 m) :=
          Nat.mul_lt_mul_of_pos_right Nat.lt_log2_self (Nat.two_pow_pos _)
      _ = 2 ^ 24 := by rw [← Nat.pow_add]; congr 1; omega

theorem f32OfNat_zero : f32OfNat 0 = 0#32 := rfl

theorem f32OfNat_of_ne_zero (h0 : m ≠ 0) :
    f32OfNat m = f32Word (Nat.log2 m + 111) (m * 2 ^ (23 - Nat.log2 m) - 2 ^ 23) := if_neg h0

theorem sign_f32OfNat (hm : m < 2 ^ 24) : (f32OfNat m).getLsbD 31 = false := by
  obtain rfl | h0 := eq_or_ne m 0
  · rfl
  · obtain ⟨hlow, hhigh⟩ := significand_bounds h0 hm
    have hlog := log2_lt_24 hm
    rw [f32OfNat_of_ne_zero h0]
    exact sign_f32Word (by omega) (by omega)

/-- A number of at most 24 bits fits the significand, so the word stands for it exactly. -/
theorem f32OfNat_represents (hm : m < 2 ^ 24) : Represents (f32OfNat m) ((m : Rat) / 65536) := by
  obtain rfl | h0 := eq_or_ne m 0
  · rw [f32OfNat_zero]
    exact ⟨by decide, by simp [f32Value]⟩
  · obtain ⟨hlow, hhigh⟩ := significand_bounds h0 hm
    have hlog := log2_lt_24 hm
    have hvalue : ((2 ^ 23 + (m * 2 ^ (23 - Nat.log2 m) - 2 ^ 23) : Nat) : Rat) * 2 ^ (Nat.log2 m + 111) / 2 ^ 150 = m / 65536 := by
      rw [Nat.add_sub_cancel' hlow, Nat.cast_mul, Nat.cast_pow, Nat.cast_ofNat, mul_assoc, ← pow_add,
        show 23 - Nat.log2 m + (Nat.log2 m + 111) = 134 by omega]
      ring
    rw [f32OfNat_of_ne_zero h0, ← hvalue]
    exact f32Word_represents (by omega) (by omega) (by omega)

end

/-! ### The words of the two conversions -/

section

variable (raw : BitVec 16)

theorem nearestT_represents : Represents (nearestT raw) (exactT raw) := by
  have hraw := raw.isLt
  unfold nearestT
  split
  case isTrue hneg =>
    have hexact : exactT raw = -(((2621440 - raw.toNat * 165 : Nat) : Rat) / 65536) := by
      rw [exactT, Nat.cast_sub hneg.le]
      push_cast
      ring
    rw [hexact]
    exact (f32OfNat_represents (by omega)).neg (sign_f32OfNat (by omega))
  case isFalse hpos =>
    have hexact : exactT raw = ((raw.toNat * 165 - 2621440 : Nat) : Rat) / 65536 := by
      rw [exactT, Nat.cast_sub (not_lt.1 hpos)]
      push_cast
      ring
    rw [hexact]
    exact f32OfNat_represents (by omega)

theorem nearestH_represents : Represents (nearestH raw) (exactH raw) := by
  have hraw := raw.isLt
  have hexact : exactH raw = ((raw.toNat * 100 : Nat) : Rat) / 65536 := by rw [exactH, Nat.cast_mul, Nat.cast_ofNat]
  rw [hexact]
  exact f32OfNat_represents (by omega)

/-- A raw value as a rational, at most 65535. -/
theorem toNat_le_rat : (raw.toNat : Rat) ≤ 65535 := by
  have hraw : raw.toNat ≤ 65535 := by omega
  exact_mod_cast hraw

theorem exactT_range : -40 ≤ exactT raw ∧ exactT raw ≤ 65535 * 165 / 65536 - 40 := by
  have h0 : (0 : Rat) ≤ raw.toNat := Nat.cast_nonneg _
  have hmax := toNat_le_rat raw
  constructor <;> rw [exactT] <;> linarith

theorem exactH_range : 0 ≤ exactH raw ∧ exactH raw ≤ 65535 * 100 / 65536 := by
  have h0 : (0 : Rat) ≤ raw.toNat := Nat.cast_nonneg _
  have hmax := toNat_le_rat raw
  constructor <;> rw [exactH] <;> linarith

end

/-- Words that stand for the exact values themselves are within any tolerance of them. -/
theorem floatEvalOk_of_represents {f g : BitVec 16 → BitVec 32} (hf : ∀ raw, Represents (f raw) (exactT raw))
    (hg : ∀ raw, Represents (g raw) (exactH raw)) : FloatEvalOk (floatEvalOf f g) := by
  intro raw
  obtain ⟨hfinT, hvalT⟩ := hf raw
  obtain ⟨hfinH, hvalH⟩ := hg raw
  rw [convT_floatEvalOf, convH_floatEvalOf, hvalT, hvalH, sub_self, sub_self]
  exact ⟨hfinT, hfinH, by norm_num, by norm_num⟩

/-- Settles O60: the two words stand for the exact values (`nearestT_represents`, `nearestH_represents`), so their distance from them is 0. -/
theorem nearestFloatEvaluationIsAdmitted : Obligations.NearestFloatEvaluationIsAdmitted := by
  unfold Obligations.NearestFloatEvaluationIsAdmitted
  refine ⟨fun raw => ?_, floatEvalOk_of_represents nearestT_represents nearestH_represents⟩
  obtain ⟨hfinT, hvalT⟩ := nearestT_represents raw
  obtain ⟨hfinH, hvalH⟩ := nearestH_represents raw
  obtain ⟨hminT, hmaxT⟩ := exactT_range raw
  exact ⟨hfinT, hvalT, hfinH, hvalH, hminT, hmaxT, exactH_range raw⟩

end Sys2Proof.Proofs.Floats
end

section
/-! The client's calls (43_host_client.md R192 to R196): the step of the host at each of a call's points, and what a call returns. -/

namespace Sys2Proof.Proofs.ClientCalls

open Sys2Proof Sys2Proof.Machine Sys2Proof.Claims Sys2Proof.Laws Sys2Proof.Proofs.RestStates
open Sys2Proof.Proofs.MicroOps (toNat_append_byte)

/-! ### The host's step in a call -/

section

variable {s : State} {ops : List HostOp} {r : Result} {s1 : Status}

theorem step_initializeClient (hs : s.seq = .ready) (hc : s.client = .idle) (hp : s.program = .initializeClient :: ops) :
    step s = exec (initializeCommand s.blk.cfg) { s with program := ops, client := .initializing } := by
  simp [Ops.step_ready hs, hostStep, hc, nextMove, hp]

theorem step_measure (hs : s.seq = .ready) (hc : s.client = .idle) (hp : s.program = .measure :: ops) :
    step s = exec (triggerCommand s.blk.cfg) { s with program := ops, client := .triggering } := by
  simp [Ops.step_ready hs, hostStep, hc, nextMove, hp]

theorem step_initializing (hs : s.seq = .ready) (hc : s.client = .initializing) (hr : s.result = some r) :
    step s = .next (s.clientReturns (initializeReturn s.blk.cfg r.status)) := by
  simp [Ops.step_ready hs, hostStep, hc, withResult_some hr]

theorem step_triggering (hs : s.seq = .ready) (hc : s.client = .triggering) (hr : s.result = some r) :
    step s = .next (s.conversionWait r.status) := by
  simp [Ops.step_ready hs, hostStep, hc, withResult_some hr]

theorem step_waited (hs : s.seq = .ready) (hc : s.client = .waited s1) :
    step s = exec (readCommand s.blk.cfg) { s with client := .reading s1 } := by
  simp [Ops.step_ready hs, hostStep, hc]

theorem step_reading (hs : s.seq = .ready) (hc : s.client = .reading s1) (hr : s.result = some r) :
    step s = .next (s.clientReturns (measureReturn s.blk.cfg s.clientLog.length s1 r)) := by
  simp [Ops.step_ready hs, hostStep, hc, withResult_some hr]

/-- M2 writes nothing of the block but its clock. -/
@[simp] theorem conversionWait_blk (s : State) (s1 : Status) :
    (s.conversionWait s1).blk =
      { s.blk with time := s.blk.time + s.blk.cfg.conversionDelay + Config.freeHostElapsed s.clientLog.length } := rfl

end

/-- Settles O57: the host's step at the call (`step_initializeClient`) and at its end (`step_initializing`). -/
theorem initializeIsOneSendOfThreeBytes : Obligations.InitializeIsOneSendOfThreeBytes := by
  unfold Obligations.InitializeIsOneSendOfThreeBytes
  intro s ops hs
  exact ⟨step_initializeClient hs, fun r hc hr => ⟨_, step_initializing hs hc hr, rfl, rfl, hs, rfl, rfl⟩⟩

/-- Settles O58: the host's step at the call (`step_measure`), at the wait (`step_triggering`) and after it (`step_waited`). -/
theorem measureTriggersWaitsAndReads : Obligations.MeasureTriggersWaitsAndReads := by
  unfold Obligations.MeasureTriggersWaitsAndReads
  intro s ops hs
  refine ⟨step_measure hs, fun r hc hr => ⟨_, step_triggering hs hc hr, rfl, ?time, ⟨rfl, rfl, rfl, rfl⟩, ⟨rfl, rfl, rfl⟩,
    ⟨rfl, rfl, rfl⟩, rfl, step_waited hs rfl⟩⟩
  rw [conversionWait_blk]
  exact Nat.le_add_right _ _

/-! ### What `measure()` returns -/

section

variable {cfg : Config} {n : Nat} {s1 : Status} {r : Result}

theorem measureReturn_first (hd : cfg.driverSurfacesErrors = true) (h : s1 ≠ .ok) :
    measureReturn cfg n s1 r = .measureStatus s1 := by
  simp [measureReturn, hd, h]

theorem measureReturn_second (hd : cfg.driverSurfacesErrors = true) (h1 : s1 = .ok) (h : r.status ≠ .ok) :
    measureReturn cfg n s1 r = .measureStatus r.status := by
  simp [measureReturn, hd, h1, h]

theorem measureReturn_reading (h : cfg.driverSurfacesErrors = false ∨ (s1 = .ok ∧ r.status = .ok)) :
    measureReturn cfg n s1 r = .reading (readingFrom cfg.floatEval n r.value) := by
  obtain hd | ⟨h1, h2⟩ := h
  · simp [measureReturn, hd]
  · simp [measureReturn, h1, h2]

end

/-- R194: most significant byte first. -/
theorem toNat_rawOf (hi lo : Byte) : (rawOf hi lo).toNat = hi.toNat * 256 + lo.toNat := by
  rw [rawOf, toNat_append_byte]
  omega

/-- Settles O59: the call's end (`step_reading`), with the three cases of what it returns (`measureReturn_first` and those after it). -/
theorem measureReturnsAReading : Obligations.MeasureReturnsAReading := by
  unfold Obligations.MeasureReturnsAReading
  intro s s1 r hs hc hr
  refine ⟨_, _, step_reading hs hc hr, rfl, rfl, hs, rfl, rfl, measureReturn_first, measureReturn_second, fun h => ?_⟩
  refine ⟨_, measureReturn_reading h, fun b0 b1 b2 b3 hv => ?_⟩
  rw [hv]
  exact ⟨rawOf b0 b1, rawOf b2 b3, toNat_rawOf b0 b1, toNat_rawOf b2 b3, rfl, rfl⟩

end Sys2Proof.Proofs.ClientCalls
end

section
/-! BusTimeout (60_exceptions.md R212, R213): what the samples of 0 at a poll come to, under the default limit and under a finite one. -/

namespace Sys2Proof.Proofs.BusTimeout

open Sys2Proof Sys2Proof.Machine Sys2Proof.Claims Sys2Proof.Laws Sys2Proof.Laws.Runs Sys2Proof.Proofs.PollRuns

variable {s : State} {l : Line} {limit n : Nat}

/-- Settles O16: the polls of a line that is low at every sample (`runs_low`) leave the position and every register. -/
theorem everyPollHangsOnALineHeldLow : Obligations.EveryPollHangsOnALineHeldLow := by
  unfold Obligations.EveryPollHangsOnALineHeldLow
  intro s l n ha hl hlow
  obtain ⟨h, m, hh, hrun⟩ := runs_low ha hl fun k hk => level_eq_false.2 (hlow k hk)
  exact ⟨_, hrun, rfl, rfl, ⟨rfl, rfl, rfl, rfl⟩, ⟨rfl, rfl, rfl, rfl⟩, ⟨rfl, rfl, rfl⟩, ⟨rfl, rfl, rfl⟩, rfl,
    elapsed_passed hh s.blk.pollN m⟩

/-! ### Samples of 0 under a finite limit (R131) -/

/-- The state after `n` samples of 0 that were counted: the position stays. -/
def polled (s : State) (n : Nat) (h : List Levels) (m : Nat) : State :=
  { s with blk := passed { s.blk with pollN := s.blk.pollN + n } n h m }

theorem sample_polled (s : State) (n : Nat) (h : List Levels) (m : Nat) (l : Line) :
    (polled s n h m).blk.sample l = s.blk.level l (envLow (s.blk.answerAt n) l) :=
  sample_passed { s.blk with pollN := s.blk.pollN + n } n h m l

section

variable (ha : s.seq.awaited = some l) (hl : s.blk.cfg.pollLimit = some limit)

include ha hl

/-- A step at a poll that samples 0 below the limit counts the sample. -/
theorem step_low_bounded (h : s.blk.sample l = false) (hn : s.blk.pollN + 1 < limit) :
    step s = .next { s with blk := { s.blk with pollN := s.blk.pollN + 1 }.tick 0 } := by
  rw [Polls.step_low ha h, Polls.atLow, Ops.poll_again_bounded h hl hn]

/-- A step at a poll that samples 0 and reaches the limit raises BusTimeout. -/
theorem step_low_timeout (h : s.blk.sample l = false) (hn : limit ≤ s.blk.pollN + 1) :
    step s = .next (s.raiseBusTimeout (s.blk.tick 0) l) := by
  rw [Polls.step_low ha h, Polls.atLow, Ops.poll_timeout h hl hn]

/-- Below the limit, as long as the line is low at every sample, the position stays and `poll_n` counts. -/
theorem runs_low_bounded (hn : s.blk.pollN + n < limit)
    (hlow : ∀ k, k < n → s.blk.level l (envLow (s.blk.answerAt k) l) = false) :
    ∃ h m, h.length = n ∧ runs n s = .next (polled s n h m) := by
  induction n with
  | zero => exact ⟨[], 0, rfl, by rw [polled, passed_zero]; rfl⟩
  | succ n ih =>
    obtain ⟨h, m, hh, hrun⟩ := ih (by omega) fun k hk => hlow k (by omega)
    have hsample : (polled s n h m).blk.sample l = false := by rw [sample_polled]; exact hlow n (by omega)
    obtain ⟨e, m', hpassed⟩ := passed_tick { s.blk with pollN := s.blk.pollN + (n + 1) } n 0 h m
    refine ⟨h ++ [e], m', by simp [hh], ?_⟩
    rw [polled, runs, run_add 1 hrun, ← hpassed]
    exact run_succ 0 (step_low_bounded (s := polled s n h m) ha hl hsample (by exact hn))

/-- The sample of 0 that reaches the limit is the `n + 1`-th: BusTimeout is raised with it (log 22). -/
theorem runs_to_timeout (hn : s.blk.pollN + n + 1 = limit)
    (hlow : ∀ k, k < n + 1 → s.blk.level l (envLow (s.blk.answerAt k) l) = false) :
    ∃ h m, h.length = n + 1 ∧
      runs (n + 1) s = .next (s.raiseBusTimeout (passed { s.blk with pollN := s.blk.pollN + n } (n + 1) h m) l) := by
  obtain ⟨h, m, hh, hrun⟩ := runs_low_bounded (n := n) ha hl (by omega) fun k hk => hlow k (by omega)
  have hsample : (polled s n h m).blk.sample l = false := by rw [sample_polled]; exact hlow n (by omega)
  obtain ⟨e, m', hpassed⟩ := passed_tick { s.blk with pollN := s.blk.pollN + n } n 0 h m
  refine ⟨h ++ [e], m', by simp [hh], ?_⟩
  rw [runs, run_add 1 hrun, ← hpassed]
  exact run_succ 0 (step_low_timeout (s := polled s n h m) ha hl hsample (by exact hn.ge))

end

/-! ### The recovery (R213) -/

/-- The registers the recovery leaves, `SR` among them as it was. -/
def recovered (b : Block) : Block :=
  { b with dirClock := .output, dirData := .output, latchClock := true, latchData := true, dr := 0xFF#8 }

/-- Five steps after BusTimeout was raised the command has ended with status 2 and the line. -/
theorem runs_recovery (s : State) (b : Block) (l : Line) :
    ∃ h m, h.length = 5 ∧ runs 5 (s.raiseBusTimeout b l) = .next (s.returnBusTimeout (passed (recovered b) 5 h m) l) := by
  obtain ⟨h, m, hh, -, hreturns⟩ := Listings.recovery b
  exact ⟨h, m, hh, Returns.run (drives_recover l) (s := s.raiseBusTimeout b l) rfl hreturns⟩

/-- The whole of a BusTimeout: the `m` samples of 0 that the limit leaves, then the recovery. -/
theorem runs_timedOut {m : Nat} (ha : s.seq.awaited = some l) (hl : s.blk.cfg.pollLimit = some limit) (hm : 0 < m)
    (hn : s.blk.pollN + m = limit) (hlow : ∀ k, k < m → s.blk.level l (envLow (s.blk.answerAt k) l) = false) :
    ∃ t, runs (m + 5) s = .next t ∧ TimedOut (m + 5) l s t := by
  obtain ⟨n, rfl⟩ : ∃ n, m = n + 1 := ⟨m - 1, by omega⟩
  obtain ⟨h, u, hh, hraise⟩ := runs_to_timeout ha hl hn hlow
  obtain ⟨h', u', hh', hrecover⟩ := runs_recovery s (passed { s.blk with pollN := s.blk.pollN + n } (n + 1) h u) l
  have helapsed : Elapsed (n + 1 + 5) 0 s.blk (passed s.blk (n + 1 + 5) (h ++ h') (u + u')) :=
    elapsed_passed (by simp [hh, hh']) s.blk.pollN _
  rw [← passed_passed] at helapsed
  exact ⟨_, (run_add 5 hraise).trans hrecover, rfl, rfl, ⟨rfl, rfl, rfl, rfl⟩, rfl, rfl, rfl, rfl, rfl, rfl, rfl, rfl, rfl, rfl, rfl,
    helapsed⟩

/-- Settles O17: a poll counts its samples of 0 up to the limit (`runs_low_bounded`) and then times out (`runs_timedOut`); a `WAITHIGH` makes
its first poll as it is issued (`exec_waitHigh_runs`). -/
theorem busTimeoutAfterPollLimitSamples : Obligations.BusTimeoutAfterPollLimitSamples := by
  unfold Obligations.BusTimeoutAfterPollLimitSamples
  constructor
  · intro s l limit m ha hl hm hn hlow
    have hlevel : ∀ k, k < m → s.blk.level l (envLow (s.blk.answerAt k) l) = false := fun k hk => level_eq_false.2 (hlow k hk)
    refine ⟨fun k hk => ?_, runs_timedOut ha hl hm hn hlevel⟩
    obtain ⟨h, u, -, hrun⟩ := runs_low_bounded (n := k) ha hl (by omega) fun j hj => hlevel j (by omega)
    exact ⟨_, hrun, rfl⟩
  · intro s l limit hs hl hpos hz hlow
    obtain ⟨t, hrun, hout⟩ := runs_timedOut (s := atWaitHigh l s) (m := limit) rfl hl hpos
      (by rw [show (atWaitHigh l s).blk.pollN = 0 from hz, Nat.zero_add]) fun k hk => level_eq_false.2 (hlow k hk)
    obtain ⟨s1, hexec, hruns⟩ := exec_waitHigh_runs hs hrun
    exact ⟨s1, t, hexec, hruns, hout⟩

end Sys2Proof.Proofs.BusTimeout
end

section
/-! MalformedReceive (60_exceptions.md R214): a `RECEIVE` that checks its address byte's acknowledgment (42_transactions.md R172 Q3), no poll
repeated. -/

namespace Sys2Proof.Proofs.MalformedReceive

open Sys2Proof Sys2Proof.Machine Sys2Proof.Claims Sys2Proof.Laws Sys2Proof.Laws.Runs Sys2Proof.Laws.Listings
open Sys2Proof.Proofs.Transactions Sys2Proof.Proofs.ReceiveRuns

section

variable {b r : Block} {n u : Nat} (t : RecvLatches)

/-- Q3 takes the exit of R214. -/
theorem reaches_of_addressNack {q : BytePos} (he : Ends byteAdv n q b true r u) (hcheck : r.cfg.rxCheckAddrAck = true) :
    Reaches recvListing n ⟨t, .q2 q⟩ b ⟨t, .q3 .p1⟩ r u :=
  he.call (inside := fun q => RecvRun.mk t (.q2 q)) (after := fun ack b' => .goto (recvAfterAddress b'.cfg.rxCheckAddrAck t ack) b')
    (fun _ _ => rfl) fun h m => by rw [passed_cfg, hcheck]; rfl

/-- The stop of that exit returns status 3. -/
theorem ends_of_malformedStop {q : StopPos} (he : Ends stopAdv n q b () r u) :
    Ends recvListing n ⟨t, .q3 q⟩ b ⟨.malformedReceive, .empty⟩ r u :=
  he.callReturn (inside := fun q => RecvRun.mk t (.q3 q)) (after := fun _ b' => .ret ⟨.malformedReceive, .empty⟩ b') (fun _ _ => rfl)
    fun _ _ => rfl

/-- The whole of a `RECEIVE` that ends so: the start, the address frame, the stop. -/
theorem malformedReceive_ends (hp : PinsOutput b) (hcheck : b.cfg.rxCheckAddrAck = true) (ha : b.noStretch 67)
    (hnack : (b.answerAt 56).dataLow = false) (hstop : (b.answerAt 65).dataLow = false) :
    Ends recvListing (65 + 2) ⟨t, .q1 .s1⟩ b ⟨.malformedReceive, .empty⟩ (stopped (byteSent (started b) (addressRead t.addr) true))
      (frames b.cfg 1) := by
  have hr := between_started hp
  have hr' := hr.byteSent (addressRead t.addr) true
  have g := reaches_of_start t (generateStart b hp.1 hp.2 (ha 1 (by omega)))
  have hframe := hr.sendByte_ends (n := 7) (addressRead t.addr) fun j hj => ha _ (by omega)
  rw [hnack, Bool.not_false] at hframe
  have g := g.trans fun h m => reaches_of_addressNack t (hframe h m) hcheck
  have g := g.ends fun h m => ends_of_malformedStop t (hr'.stop_ends (by simp [byteSent]) (ha _ (by omega)) hstop h m)
  have ht : frames b.cfg 1 = b.cfg.tSetup + b.cfg.tHigh + 9 * cycleTime b.cfg + (b.cfg.tHigh + b.cfg.tLow) := by
    rw [frames, Claims.cycle, cycleTime]; ring
  rw [ht]
  exact g

end

/-- Settles O30: the run of the checked `RECEIVE` (`malformedReceive_ends`) behind its acceptance. -/
theorem receiveCheckedAddressNackIsMalformed : Obligations.ReceiveCheckedAddressNackIsMalformed := by
  unfold Obligations.ReceiveCheckedAddressNackIsMalformed
  intro a c s hc ha h0 hcheck hn hnack hstop
  have hp : PinsOutput s.blk := hc.2.2
  have hr := (between_started hp).byteSent (addressRead (BitVec.ofNat 7 a)) true
  have h1 : recvListing ⟨recvLatches a c, .q1 .s1⟩ s.blk = .goto ⟨recvLatches a c, .q1 .s2⟩ (Acceptance.afterS1 s.blk) := by
    rw [recvListing, recvAdv, Acceptance.startAdv_s1 hp]; rfl
  obtain ⟨h, m, hh, ht, -, hrun⟩ :=
    CommandRuns.runs_of_ends drives_recvListing h1 (malformedReceive_ends (recvLatches a c) hp hcheck hn hnack hstop)
  refine ⟨_, _, exec_receive_accepted hc ha h0, hrun, rfl, rfl, ⟨rfl, rfl, rfl, rfl⟩, CommandRuns.elapsed_of_passed hh ht hr.kept,
    hr.afterTransaction ⟨rfl, rfl⟩ h m, rfl, ?_⟩
  rw [← addressRead_ofNat ha]
  simp [stopped, byteSent, started, recvLatches]

end Sys2Proof.Proofs.MalformedReceive
end

section
/-! R222, R129: in a state of the invariant a running command is refused only by a falling strobe that finds CLOCK low. -/

namespace Sys2Proof.Proofs.RunningRefusals

open Sys2Proof Sys2Proof.Machine Sys2Proof.Laws Sys2Proof.Laws.Invariant Sys2Proof.Proofs.RunningInvariant

variable {s : State} {e : Refusal}

/-- A command's step is refused only where its listing's micro-operation is. -/
theorem runListing_refused {π ρ : Type} {r : Adv π ρ} {position : π → Seq} {done : ρ → Block → State}
    (h : s.runListing r position done = .refused e) : r = .refuse e := by
  cases r with
  | refuse e' => cases h; rfl
  | _ => cases h

/-- The next micro-operation of a running command, whatever command runs: of the listings, `transfer` alone can be refused (R151 X6), and so
what calls it. -/
theorem seqStep_refused (hi : Inv s) (h : seqStep s = .refused e) : e = .fallingStrobeWhileClockLow := by
  have hpoll := pollN_of_inListing hi
  obtain ⟨hpos, -⟩ := hi
  obtain ⟨blk, seq, result, program, client, clientLog, inbox⟩ := s
  cases seq with
  | ready => cases h
  | waitHigh l => cases h
  | start p =>
    obtain ⟨hb, hz⟩ := hpoll rfl
    have key := startAdv_keeps hpos hb fun hp => hz (by simp [Seq.poll, hp])
    rw [runListing_refused h] at key
    exact key.elim
  | stop p =>
    obtain ⟨hb, hz⟩ := hpoll rfl
    have key := stopAdv_keeps hpos.1 hb fun hp => hz (by simp [Seq.poll, hp])
    rw [runListing_refused h] at key
    exact key.elim
  | sendByte p =>
    obtain ⟨hb, hz⟩ := hpoll rfl
    have key := byteAdv_keeps hpos hb fun hp => hz (by simp [Seq.poll, hp])
    rwa [runListing_refused h] at key
  | xfer x =>
    obtain ⟨hb, hz⟩ := hpoll rfl
    obtain ⟨w, hx⟩ := hpos
    have key := xferAdv_keeps hx hb fun hp => hz (by simp [Seq.poll, hp])
    rwa [runListing_refused h] at key
  | send t p =>
    obtain ⟨hb, hz⟩ := hpoll rfl
    have key := sendAdv_keeps hpos hb hz
    rwa [runListing_refused h] at key
  | receive t p =>
    obtain ⟨hb, hz⟩ := hpoll rfl
    have key := recvAdv_keeps hpos hb hz
    rwa [runListing_refused h] at key
  | recover p l => cases p <;> cases h

/-- Settles O52: a step with a command running is that command's next micro-operation (`seqStep_refused`). -/
theorem runningCommandsAreRefusedForOneReasonOnly : Obligations.RunningCommandsAreRefusedForOneReasonOnly := by
  unfold Obligations.RunningCommandsAreRefusedForOneReasonOnly
  intro s r hi hs h
  rw [Ops.step_running hs] at h
  exact seqStep_refused hi h

end Sys2Proof.Proofs.RunningRefusals
end

section
/-! R241 (70_reset_and_hazards.md): the block executes nothing until the host hands it a command. -/

namespace Sys2Proof.Proofs.WaitingBlock

open Sys2Proof Sys2Proof.Machine Sys2Proof.Laws

variable {s : State}

/-- With no call of the client open, the host's step is its next move. -/
theorem hostStep_idle (hc : s.client = .idle) : hostStep s = nextMove s := by
  rw [hostStep, hc]

/-- With an empty list of moves the host leaves the block waiting. -/
theorem nextMove_nil (hp : s.program = []) : nextMove s = .next s := by
  rw [nextMove, hp]

/-- Settles O43: the sequencer waits, so the step is the host's; no call is open and no move is left, so it changes nothing. -/
theorem withoutACommandNothingRuns : Obligations.WithoutACommandNothingRuns := by
  unfold Obligations.WithoutACommandNothingRuns
  intro s hs hc hp
  calc step s = hostStep s := Ops.step_ready hs
    _ = nextMove s := hostStep_idle hc
    _ = .next s := nextMove_nil hp

end Sys2Proof.Proofs.WaitingBlock
end
